-- ==== Sys2Proof/Word.lean ====
section
/-! DEFINITION. The widths of the machine: words, bytes, counters and operand fields. -/

namespace Sys2Proof

/-- A 32-bit value: a register, an address, an instruction word (XLEN = 32, rules R5 and R8). -/
abbrev Word := BitVec 32

/-- The addressable unit, 8 bits (rule R36). -/
abbrev Byte := BitVec 8

/-- A 64-bit counter (rules R30 to R32). -/
abbrev DWord := BitVec 64

/-- A register number, 0 to 31, naming x0 to x31 (rules R20 and R81). -/
abbrev Reg := BitVec 5

/-- A CSR address, 12 bits (rule R29). -/
abbrev CsrAddr := BitVec 12

end Sys2Proof
end

