-- ==== Sys2Proof/Syntax.lean ====
section
/-! DEFINITION. The instructions, one constructor per row of spec/opcode_table.json (rule R96).
Operands are the fields of rules R88 to R94: an immediate is the value the field names, before it is
extended to 32 bits. -/

namespace Sys2Proof

/-- A predecessor or successor set of FENCE: any combination of device input, device output, memory
read and memory write (rules R66, R94). -/
structure Classes where
  i : Bool
  o : Bool
  r : Bool
  w : Bool
deriving DecidableEq, Repr

inductive Instr where
  -- integer computational instructions, U-format (rules R129, R130)
  | lui (rd : Reg) (imm20 : BitVec 20)
  | auipc (rd : Reg) (imm20 : BitVec 20)
  -- unconditional jumps (rules R150, R151); the JAL offset is the 21-bit J-immediate, bit 0 zero
  | jal (rd : Reg) (off : BitVec 21)
  | jalr (rd rs1 : Reg) (off : BitVec 12)
  -- conditional branches (rules R152 to R157); the offset is the 13-bit B-immediate, bit 0 zero
  | beq (rs1 rs2 : Reg) (off : BitVec 13)
  | bne (rs1 rs2 : Reg) (off : BitVec 13)
  | blt (rs1 rs2 : Reg) (off : BitVec 13)
  | bge (rs1 rs2 : Reg) (off : BitVec 13)
  | bltu (rs1 rs2 : Reg) (off : BitVec 13)
  | bgeu (rs1 rs2 : Reg) (off : BitVec 13)
  -- loads (rules R170 to R174)
  | lb (rd rs1 : Reg) (off : BitVec 12)
  | lh (rd rs1 : Reg) (off : BitVec 12)
  | lw (rd rs1 : Reg) (off : BitVec 12)
  | lbu (rd rs1 : Reg) (off : BitVec 12)
  | lhu (rd rs1 : Reg) (off : BitVec 12)
  -- stores (rules R175 to R177)
  | sb (rs2 rs1 : Reg) (off : BitVec 12)
  | sh (rs2 rs1 : Reg) (off : BitVec 12)
  | sw (rs2 rs1 : Reg) (off : BitVec 12)
  -- register-immediate instructions (rules R120 to R128)
  | addi (rd rs1 : Reg) (imm : BitVec 12)
  | slti (rd rs1 : Reg) (imm : BitVec 12)
  | sltiu (rd rs1 : Reg) (imm : BitVec 12)
  | xori (rd rs1 : Reg) (imm : BitVec 12)
  | ori (rd rs1 : Reg) (imm : BitVec 12)
  | andi (rd rs1 : Reg) (imm : BitVec 12)
  | slli (rd rs1 : Reg) (shamt : BitVec 5)
  | srli (rd rs1 : Reg) (shamt : BitVec 5)
  | srai (rd rs1 : Reg) (shamt : BitVec 5)
  -- register-register instructions (rules R131 to R140)
  | add (rd rs1 rs2 : Reg)
  | sub (rd rs1 rs2 : Reg)
  | sll (rd rs1 rs2 : Reg)
  | slt (rd rs1 rs2 : Reg)
  | sltu (rd rs1 rs2 : Reg)
  | xor (rd rs1 rs2 : Reg)
  | srl (rd rs1 rs2 : Reg)
  | sra (rd rs1 rs2 : Reg)
  | or (rd rs1 rs2 : Reg)
  | and (rd rs1 rs2 : Reg)
  -- fences (rules R190, R191); reserved fields are ignored (rule R99) and not kept
  | fence (pred succ : Classes)
  | fenceI
  -- environment call and breakpoint (rules R206, R207)
  | ecall
  | ebreak
  -- CSR instructions (rules R200 to R205)
  | csrrw (rd : Reg) (csr : CsrAddr) (rs1 : Reg)
  | csrrs (rd : Reg) (csr : CsrAddr) (rs1 : Reg)
  | csrrc (rd : Reg) (csr : CsrAddr) (rs1 : Reg)
  | csrrwi (rd : Reg) (csr : CsrAddr) (zimm : BitVec 5)
  | csrrsi (rd : Reg) (csr : CsrAddr) (zimm : BitVec 5)
  | csrrci (rd : Reg) (csr : CsrAddr) (zimm : BitVec 5)
deriving DecidableEq, Repr

end Sys2Proof
end

