-- ==== Sys2Proof/Decode.lean ====
section
/-! DEFINITION. The encoding of 30_encoding.md: the fields of a word, the decoder (total, refusing by
name), the encoder, and the row of the decode table each instruction belongs to. The numeric values
are those the spec supplies from general knowledge of RISC-V (log 17). -/

namespace Sys2Proof

/-! ### Words and bytes -/

/-- A field of `k` bits placed at bit `lo` of `n` bits, zeros elsewhere: `v << lo` of rule R105. -/
def place {k : Nat} (n lo : Nat) (v : BitVec k) : BitVec n := v.setWidth n <<< lo

/-- The halfword whose byte 0 holds bits 7:0 (little-endian, rule R50). -/
def leHalf (b0 b1 : Byte) : BitVec 16 := place 16 8 b1 ||| place 16 0 b0

/-- The word whose byte 0 holds bits 7:0 (little-endian, rules R50 and R53). -/
def leWord (b0 b1 b2 b3 : Byte) : Word :=
  place 32 24 b3 ||| place 32 16 b2 ||| place 32 8 b1 ||| place 32 0 b0

/-- Byte `i` of a word: bits 8i+7 to 8i (rule R52). -/
def byteOf (v : Word) (i : Nat) : Byte := v.extractLsb' (8 * i) 8

/-! ### Fields (rules R81 to R94) -/

def opcodeOf (w : Word) : BitVec 7 := w.extractLsb' 0 7
def rdOf (w : Word) : Reg := w.extractLsb' 7 5
def funct3Of (w : Word) : BitVec 3 := w.extractLsb' 12 3
def rs1Of (w : Word) : Reg := w.extractLsb' 15 5
def rs2Of (w : Word) : Reg := w.extractLsb' 20 5
def funct7Of (w : Word) : BitVec 7 := w.extractLsb' 25 7

/-- The 12-bit field of the I-immediate, also the CSR address and funct12 (rules R83, R88, R93). -/
def immIOf (w : Word) : BitVec 12 := w.extractLsb' 20 12

/-- The 12-bit field of the S-immediate (rules R84, R89). -/
def immSOf (w : Word) : BitVec 12 :=
  place 12 5 (w.extractLsb' 25 7) ||| place 12 0 (w.extractLsb' 7 5)

/-- The 13-bit B-immediate, bit 0 zero (rules R86, R90). -/
def immBOf (w : Word) : BitVec 13 :=
  place 13 12 (w.extractLsb' 31 1) ||| place 13 11 (w.extractLsb' 7 1) |||
    place 13 5 (w.extractLsb' 25 6) ||| place 13 1 (w.extractLsb' 8 4)

/-- The 20-bit field of the U-immediate (rules R85, R91). -/
def immUOf (w : Word) : BitVec 20 := w.extractLsb' 12 20

/-- The 21-bit J-immediate, bit 0 zero (rules R87, R92). -/
def immJOf (w : Word) : BitVec 21 :=
  place 21 20 (w.extractLsb' 31 1) ||| place 21 12 (w.extractLsb' 12 8) |||
    place 21 11 (w.extractLsb' 20 1) ||| place 21 1 (w.extractLsb' 21 10)

/-- A set of classes as four bits: I, O, R, W from the high bit down (rule R94). -/
def Classes.bits (c : Classes) : BitVec 4 :=
  place 4 3 (BitVec.ofBool c.i) ||| place 4 2 (BitVec.ofBool c.o) |||
    place 4 1 (BitVec.ofBool c.r) ||| place 4 0 (BitVec.ofBool c.w)

/-- The set four bits of a FENCE name (rule R94). -/
def Classes.ofBits (b : BitVec 4) : Classes :=
  { i := b.getLsbD 3, o := b.getLsbD 2, r := b.getLsbD 1, w := b.getLsbD 0 }

/-- The predecessor set of a FENCE, `inst[27:24]` (rule R94). -/
def predOf (w : Word) : Classes := .ofBits (w.extractLsb' 24 4)

/-- The successor set of a FENCE, `inst[23:20]` (rule R94). -/
def succOf (w : Word) : Classes := .ofBits (w.extractLsb' 20 4)

/-! ### The decoder -/

/-- Why a word or a list of bytes is no instruction. -/
inductive Reject where
  /-- Fewer than four bytes: every instruction is four bytes long (rule R80). -/
  | truncated
  /-- `inst[1:0]` is not 11: the space of the C extension, refused (rule R98 (a)). -/
  | compressed
  /-- Opcode OP with funct7 0000001: the space of the M extension, refused (rule R98 (b)). -/
  | mulDiv
  /-- Any other word that matches no row of the decode table (rule R97). -/
  | illegal
deriving DecidableEq, Repr

/-- Opcode BRANCH, by funct3 (rules R152 to R157). -/
def decodeBranch (w : Word) : Except Reject Instr :=
  match funct3Of w with
  | 0b000 => .ok (.beq (rs1Of w) (rs2Of w) (immBOf w))
  | 0b001 => .ok (.bne (rs1Of w) (rs2Of w) (immBOf w))
  | 0b100 => .ok (.blt (rs1Of w) (rs2Of w) (immBOf w))
  | 0b101 => .ok (.bge (rs1Of w) (rs2Of w) (immBOf w))
  | 0b110 => .ok (.bltu (rs1Of w) (rs2Of w) (immBOf w))
  | 0b111 => .ok (.bgeu (rs1Of w) (rs2Of w) (immBOf w))
  | _ => .error .illegal

/-- Opcode LOAD, by funct3 (rules R170 to R174). -/
def decodeLoad (w : Word) : Except Reject Instr :=
  match funct3Of w with
  | 0b000 => .ok (.lb (rdOf w) (rs1Of w) (immIOf w))
  | 0b001 => .ok (.lh (rdOf w) (rs1Of w) (immIOf w))
  | 0b010 => .ok (.lw (rdOf w) (rs1Of w) (immIOf w))
  | 0b100 => .ok (.lbu (rdOf w) (rs1Of w) (immIOf w))
  | 0b101 => .ok (.lhu (rdOf w) (rs1Of w) (immIOf w))
  | _ => .error .illegal

/-- Opcode STORE, by funct3 (rules R175 to R177). -/
def decodeStore (w : Word) : Except Reject Instr :=
  match funct3Of w with
  | 0b000 => .ok (.sb (rs2Of w) (rs1Of w) (immSOf w))
  | 0b001 => .ok (.sh (rs2Of w) (rs1Of w) (immSOf w))
  | 0b010 => .ok (.sw (rs2Of w) (rs1Of w) (immSOf w))
  | _ => .error .illegal

/-- Opcode OP-IMM with funct3 101: the right shifts, by funct7 (rules R93, R127, R128). -/
def decodeShiftRightImm (w : Word) : Except Reject Instr :=
  match funct7Of w with
  | 0b0000000 => .ok (.srli (rdOf w) (rs1Of w) (rs2Of w))
  | 0b0100000 => .ok (.srai (rdOf w) (rs1Of w) (rs2Of w))
  | _ => .error .illegal

/-- Opcode OP-IMM, by funct3; the shift amount stands where rs2 does (rules R93, R120 to R128). -/
def decodeOpImm (w : Word) : Except Reject Instr :=
  match funct3Of w with
  | 0b000 => .ok (.addi (rdOf w) (rs1Of w) (immIOf w))
  | 0b001 =>
    if funct7Of w = 0b0000000 then .ok (.slli (rdOf w) (rs1Of w) (rs2Of w)) else .error .illegal
  | 0b010 => .ok (.slti (rdOf w) (rs1Of w) (immIOf w))
  | 0b011 => .ok (.sltiu (rdOf w) (rs1Of w) (immIOf w))
  | 0b100 => .ok (.xori (rdOf w) (rs1Of w) (immIOf w))
  | 0b101 => decodeShiftRightImm w
  | 0b110 => .ok (.ori (rdOf w) (rs1Of w) (immIOf w))
  | 0b111 => .ok (.andi (rdOf w) (rs1Of w) (immIOf w))

/-- Opcode OP with funct7 0000000, by funct3. -/
def decodeOpBase (w : Word) : Except Reject Instr :=
  match funct3Of w with
  | 0b000 => .ok (.add (rdOf w) (rs1Of w) (rs2Of w))
  | 0b001 => .ok (.sll (rdOf w) (rs1Of w) (rs2Of w))
  | 0b010 => .ok (.slt (rdOf w) (rs1Of w) (rs2Of w))
  | 0b011 => .ok (.sltu (rdOf w) (rs1Of w) (rs2Of w))
  | 0b100 => .ok (.xor (rdOf w) (rs1Of w) (rs2Of w))
  | 0b101 => .ok (.srl (rdOf w) (rs1Of w) (rs2Of w))
  | 0b110 => .ok (.or (rdOf w) (rs1Of w) (rs2Of w))
  | 0b111 => .ok (.and (rdOf w) (rs1Of w) (rs2Of w))

/-- Opcode OP with funct7 0100000, by funct3. -/
def decodeOpAlt (w : Word) : Except Reject Instr :=
  match funct3Of w with
  | 0b000 => .ok (.sub (rdOf w) (rs1Of w) (rs2Of w))
  | 0b101 => .ok (.sra (rdOf w) (rs1Of w) (rs2Of w))
  | _ => .error .illegal

/-- Opcode OP, by funct7 (rules R98 (b), R131 to R140). -/
def decodeOp (w : Word) : Except Reject Instr :=
  match funct7Of w with
  | 0b0000000 => decodeOpBase w
  | 0b0100000 => decodeOpAlt w
  | 0b0000001 => .error .mulDiv
  | _ => .error .illegal

/-- Opcode MISC-MEM, by funct3; the other fields are reserved and ignored (rules R99, R190, R191). -/
def decodeMiscMem (w : Word) : Except Reject Instr :=
  match funct3Of w with
  | 0b000 => .ok (.fence (predOf w) (succOf w))
  | 0b001 => .ok .fenceI
  | _ => .error .illegal

/-- Opcode SYSTEM, by funct3; ECALL and EBREAK are one word each (rules R200 to R207). -/
def decodeSystem (w : Word) : Except Reject Instr :=
  match funct3Of w with
  | 0b000 =>
    if w = 0x00000073 then .ok .ecall
    else if w = 0x00100073 then .ok .ebreak
    else .error .illegal
  | 0b001 => .ok (.csrrw (rdOf w) (immIOf w) (rs1Of w))
  | 0b010 => .ok (.csrrs (rdOf w) (immIOf w) (rs1Of w))
  | 0b011 => .ok (.csrrc (rdOf w) (immIOf w) (rs1Of w))
  | 0b101 => .ok (.csrrwi (rdOf w) (immIOf w) (rs1Of w))
  | 0b110 => .ok (.csrrsi (rdOf w) (immIOf w) (rs1Of w))
  | 0b111 => .ok (.csrrci (rdOf w) (immIOf w) (rs1Of w))
  | _ => .error .illegal

/-- The instruction a 32-bit word is, or why it is none (rules R95 to R98). -/
def decode (w : Word) : Except Reject Instr :=
  if w.extractLsb' 0 2 = 0b11#2 then
    match opcodeOf w with
    | 0b0110111 => .ok (.lui (rdOf w) (immUOf w))
    | 0b0010111 => .ok (.auipc (rdOf w) (immUOf w))
    | 0b1101111 => .ok (.jal (rdOf w) (immJOf w))
    | 0b1100111 =>
      if funct3Of w = 0b000 then .ok (.jalr (rdOf w) (rs1Of w) (immIOf w)) else .error .illegal
    | 0b1100011 => decodeBranch w
    | 0b0000011 => decodeLoad w
    | 0b0100011 => decodeStore w
    | 0b0010011 => decodeOpImm w
    | 0b0110011 => decodeOp w
    | 0b0001111 => decodeMiscMem w
    | 0b1110011 => decodeSystem w
    | _ => .error .illegal
  else .error .compressed

/-- The instruction at the head of a list of bytes, lowest address first, with the bytes after it
(rules R53, R80). -/
def decodeBytes : List Byte → Except Reject (Instr × List Byte)
  | b0 :: b1 :: b2 :: b3 :: rest => (decode (leWord b0 b1 b2 b3)).map fun i => (i, rest)
  | _ => .error .truncated

/-- The four bytes, lowest address first, of an instruction given as in spec/opcode_table.json. -/
def tableBytes (nbits w : Nat) : List Byte :=
  let v : Word := BitVec.ofNat 32 (w % 2 ^ nbits)
  [byteOf v 0, byteOf v 1, byteOf v 2, byteOf v 3]

/-- The instruction the decoder reads from the table's word `w` of `nbits` bits. -/
def decodeTableWord (nbits w : Nat) : Option Instr :=
  match decodeBytes (tableBytes nbits w) with
  | .ok (i, _) => some i
  | .error _ => none

/-! ### The encoder (rule R105) -/

def rFormat (funct7 : BitVec 7) (rs2 rs1 : Reg) (funct3 : BitVec 3) (rd : Reg) (op : BitVec 7) :
    Word :=
  place 32 25 funct7 ||| place 32 20 rs2 ||| place 32 15 rs1 ||| place 32 12 funct3 |||
    place 32 7 rd ||| place 32 0 op

def iFormat (imm : BitVec 12) (rs1 : Reg) (funct3 : BitVec 3) (rd : Reg) (op : BitVec 7) : Word :=
  place 32 20 imm ||| place 32 15 rs1 ||| place 32 12 funct3 ||| place 32 7 rd ||| place 32 0 op

def sFormat (imm : BitVec 12) (rs2 rs1 : Reg) (funct3 : BitVec 3) (op : BitVec 7) : Word :=
  place 32 25 (imm.extractLsb' 5 7) ||| place 32 20 rs2 ||| place 32 15 rs1 |||
    place 32 12 funct3 ||| place 32 7 (imm.extractLsb' 0 5) ||| place 32 0 op

def sbFormat (off : BitVec 13) (rs2 rs1 : Reg) (funct3 : BitVec 3) (op : BitVec 7) : Word :=
  place 32 31 (off.extractLsb' 12 1) ||| place 32 25 (off.extractLsb' 5 6) ||| place 32 20 rs2 |||
    place 32 15 rs1 ||| place 32 12 funct3 ||| place 32 8 (off.extractLsb' 1 4) |||
    place 32 7 (off.extractLsb' 11 1) ||| place 32 0 op

def uFormat (imm20 : BitVec 20) (rd : Reg) (op : BitVec 7) : Word :=
  place 32 12 imm20 ||| place 32 7 rd ||| place 32 0 op

def ujFormat (off : BitVec 21) (rd : Reg) (op : BitVec 7) : Word :=
  place 32 31 (off.extractLsb' 20 1) ||| place 32 21 (off.extractLsb' 1 10) |||
    place 32 20 (off.extractLsb' 11 1) ||| place 32 12 (off.extractLsb' 12 8) ||| place 32 7 rd |||
    place 32 0 op

/-- The word of an instruction; reserved fields are written as zero (rules R99, R105). -/
def encode : Instr → Word
  | .lui rd imm20 => uFormat imm20 rd 0b0110111
  | .auipc rd imm20 => uFormat imm20 rd 0b0010111
  | .jal rd off => ujFormat off rd 0b1101111
  | .jalr rd rs1 off => iFormat off rs1 0b000 rd 0b1100111
  | .beq rs1 rs2 off => sbFormat off rs2 rs1 0b000 0b1100011
  | .bne rs1 rs2 off => sbFormat off rs2 rs1 0b001 0b1100011
  | .blt rs1 rs2 off => sbFormat off rs2 rs1 0b100 0b1100011
  | .bge rs1 rs2 off => sbFormat off rs2 rs1 0b101 0b1100011
  | .bltu rs1 rs2 off => sbFormat off rs2 rs1 0b110 0b1100011
  | .bgeu rs1 rs2 off => sbFormat off rs2 rs1 0b111 0b1100011
  | .lb rd rs1 off => iFormat off rs1 0b000 rd 0b0000011
  | .lh rd rs1 off => iFormat off rs1 0b001 rd 0b0000011
  | .lw rd rs1 off => iFormat off rs1 0b010 rd 0b0000011
  | .lbu rd rs1 off => iFormat off rs1 0b100 rd 0b0000011
  | .lhu rd rs1 off => iFormat off rs1 0b101 rd 0b0000011
  | .sb rs2 rs1 off => sFormat off rs2 rs1 0b000 0b0100011
  | .sh rs2 rs1 off => sFormat off rs2 rs1 0b001 0b0100011
  | .sw rs2 rs1 off => sFormat off rs2 rs1 0b010 0b0100011
  | .addi rd rs1 imm => iFormat imm rs1 0b000 rd 0b0010011
  | .slti rd rs1 imm => iFormat imm rs1 0b010 rd 0b0010011
  | .sltiu rd rs1 imm => iFormat imm rs1 0b011 rd 0b0010011
  | .xori rd rs1 imm => iFormat imm rs1 0b100 rd 0b0010011
  | .ori rd rs1 imm => iFormat imm rs1 0b110 rd 0b0010011
  | .andi rd rs1 imm => iFormat imm rs1 0b111 rd 0b0010011
  | .slli rd rs1 shamt => rFormat 0b0000000 shamt rs1 0b001 rd 0b0010011
  | .srli rd rs1 shamt => rFormat 0b0000000 shamt rs1 0b101 rd 0b0010011
  | .srai rd rs1 shamt => rFormat 0b0100000 shamt rs1 0b101 rd 0b0010011
  | .add rd rs1 rs2 => rFormat 0b0000000 rs2 rs1 0b000 rd 0b0110011
  | .sub rd rs1 rs2 => rFormat 0b0100000 rs2 rs1 0b000 rd 0b0110011
  | .sll rd rs1 rs2 => rFormat 0b0000000 rs2 rs1 0b001 rd 0b0110011
  | .slt rd rs1 rs2 => rFormat 0b0000000 rs2 rs1 0b010 rd 0b0110011
  | .sltu rd rs1 rs2 => rFormat 0b0000000 rs2 rs1 0b011 rd 0b0110011
  | .xor rd rs1 rs2 => rFormat 0b0000000 rs2 rs1 0b100 rd 0b0110011
  | .srl rd rs1 rs2 => rFormat 0b0000000 rs2 rs1 0b101 rd 0b0110011
  | .sra rd rs1 rs2 => rFormat 0b0100000 rs2 rs1 0b101 rd 0b0110011
  | .or rd rs1 rs2 => rFormat 0b0000000 rs2 rs1 0b110 rd 0b0110011
  | .and rd rs1 rs2 => rFormat 0b0000000 rs2 rs1 0b111 rd 0b0110011
  | .fence pred succ => iFormat (place 12 4 pred.bits ||| place 12 0 succ.bits) 0 0b000 0 0b0001111
  | .fenceI => iFormat 0 0 0b001 0 0b0001111
  | .ecall => iFormat 0 0 0b000 0 0b1110011
  | .ebreak => iFormat 1 0 0b000 0 0b1110011
  | .csrrw rd csr rs1 => iFormat csr rs1 0b001 rd 0b1110011
  | .csrrs rd csr rs1 => iFormat csr rs1 0b010 rd 0b1110011
  | .csrrc rd csr rs1 => iFormat csr rs1 0b011 rd 0b1110011
  | .csrrwi rd csr zimm => iFormat csr zimm 0b101 rd 0b1110011
  | .csrrsi rd csr zimm => iFormat csr zimm 0b110 rd 0b1110011
  | .csrrci rd csr zimm => iFormat csr zimm 0b111 rd 0b1110011

/-- The bytes of an instruction, lowest address first (rules R50, R53). -/
def encodeBytes (i : Instr) : List Byte :=
  [byteOf (encode i) 0, byteOf (encode i) 1, byteOf (encode i) 2, byteOf (encode i) 3]

/-! ### The decode table (rule R96) -/

/-- One row of the decode table: a word `w` is this instruction exactly when `w &&& mask = value`. -/
structure TableRow where
  mnemonic : String
  value : Word
  mask : Word
deriving DecidableEq, Repr

/-- A word matches a row of the decode table (rule R96). -/
def TableRow.covers (r : TableRow) (w : Word) : Bool := w &&& r.mask == r.value

/-- The row of the decode table an instruction belongs to, transcribed from rule R96. -/
def Instr.row : Instr → TableRow
  | .lui _ _ => ⟨"LUI", 0x00000037, 0x0000007F⟩
  | .auipc _ _ => ⟨"AUIPC", 0x00000017, 0x0000007F⟩
  | .jal _ _ => ⟨"JAL", 0x0000006F, 0x0000007F⟩
  | .jalr _ _ _ => ⟨"JALR", 0x00000067, 0x0000707F⟩
  | .beq _ _ _ => ⟨"BEQ", 0x00000063, 0x0000707F⟩
  | .bne _ _ _ => ⟨"BNE", 0x00001063, 0x0000707F⟩
  | .blt _ _ _ => ⟨"BLT", 0x00004063, 0x0000707F⟩
  | .bge _ _ _ => ⟨"BGE", 0x00005063, 0x0000707F⟩
  | .bltu _ _ _ => ⟨"BLTU", 0x00006063, 0x0000707F⟩
  | .bgeu _ _ _ => ⟨"BGEU", 0x00007063, 0x0000707F⟩
  | .lb _ _ _ => ⟨"LB", 0x00000003, 0x0000707F⟩
  | .lh _ _ _ => ⟨"LH", 0x00001003, 0x0000707F⟩
  | .lw _ _ _ => ⟨"LW", 0x00002003, 0x0000707F⟩
  | .lbu _ _ _ => ⟨"LBU", 0x00004003, 0x0000707F⟩
  | .lhu _ _ _ => ⟨"LHU", 0x00005003, 0x0000707F⟩
  | .sb _ _ _ => ⟨"SB", 0x00000023, 0x0000707F⟩
  | .sh _ _ _ => ⟨"SH", 0x00001023, 0x0000707F⟩
  | .sw _ _ _ => ⟨"SW", 0x00002023, 0x0000707F⟩
  | .addi _ _ _ => ⟨"ADDI", 0x00000013, 0x0000707F⟩
  | .slti _ _ _ => ⟨"SLTI", 0x00002013, 0x0000707F⟩
  | .sltiu _ _ _ => ⟨"SLTIU", 0x00003013, 0x0000707F⟩
  | .xori _ _ _ => ⟨"XORI", 0x00004013, 0x0000707F⟩
  | .ori _ _ _ => ⟨"ORI", 0x00006013, 0x0000707F⟩
  | .andi _ _ _ => ⟨"ANDI", 0x00007013, 0x0000707F⟩
  | .slli _ _ _ => ⟨"SLLI", 0x00001013, 0xFE00707F⟩
  | .srli _ _ _ => ⟨"SRLI", 0x00005013, 0xFE00707F⟩
  | .srai _ _ _ => ⟨"SRAI", 0x40005013, 0xFE00707F⟩
  | .add _ _ _ => ⟨"ADD", 0x00000033, 0xFE00707F⟩
  | .sub _ _ _ => ⟨"SUB", 0x40000033, 0xFE00707F⟩
  | .sll _ _ _ => ⟨"SLL", 0x00001033, 0xFE00707F⟩
  | .slt _ _ _ => ⟨"SLT", 0x00002033, 0xFE00707F⟩
  | .sltu _ _ _ => ⟨"SLTU", 0x00003033, 0xFE00707F⟩
  | .xor _ _ _ => ⟨"XOR", 0x00004033, 0xFE00707F⟩
  | .srl _ _ _ => ⟨"SRL", 0x00005033, 0xFE00707F⟩
  | .sra _ _ _ => ⟨"SRA", 0x40005033, 0xFE00707F⟩
  | .or _ _ _ => ⟨"OR", 0x00006033, 0xFE00707F⟩
  | .and _ _ _ => ⟨"AND", 0x00007033, 0xFE00707F⟩
  | .fence _ _ => ⟨"FENCE", 0x0000000F, 0x0000707F⟩
  | .fenceI => ⟨"FENCE.I", 0x0000100F, 0x0000707F⟩
  | .ecall => ⟨"ECALL", 0x00000073, 0xFFFFFFFF⟩
  | .ebreak => ⟨"EBREAK", 0x00100073, 0xFFFFFFFF⟩
  | .csrrw _ _ _ => ⟨"CSRRW", 0x00001073, 0x0000707F⟩
  | .csrrs _ _ _ => ⟨"CSRRS", 0x00002073, 0x0000707F⟩
  | .csrrc _ _ _ => ⟨"CSRRC", 0x00003073, 0x0000707F⟩
  | .csrrwi _ _ _ => ⟨"CSRRWI", 0x00005073, 0x0000707F⟩
  | .csrrsi _ _ _ => ⟨"CSRRSI", 0x00006073, 0x0000707F⟩
  | .csrrci _ _ _ => ⟨"CSRRCI", 0x00007073, 0x0000707F⟩

end Sys2Proof
end

