-- ==== Sys2Proof/Config.lean ====
section
/-! DEFINITION. The free values of the machine: constants without a body, so that nothing can be
proved of the value they take. The free answer of the execution environment stands in
Sys2Proof/Machine/Environment.lean, since its type mentions the state. -/

namespace Sys2Proof

/-- What an access is for, the second argument of ACCESSIBLE (rule R61). -/
inductive AccessKind where
  /-- An instruction fetch (rule R53). -/
  | fetch
  /-- A load (rule R51). -/
  | read
  /-- A store (rule R52). -/
  | write
deriving DecidableEq, Repr

/-- By how much `cycle64` advances in draw `n`: an unspecified non-negative amount (rules R30, R285;
log 6). -/
opaque Config.cycleAdvance (n : Nat) : DWord

/-- By how many ticks `time64` advances in draw `n` (rule R31; log 6). -/
opaque Config.timeAdvance (n : Nat) : DWord

/-- Which of the values a fetch may see at address `a` it takes in draw `n`; read modulo the number of
such values (rule R68; log 7). -/
opaque Config.fetchPick (n : Nat) (a : Word) : Nat

/-- The byte that a device returns in draw `n` at an address `a` of IO_REGION (rule R60, U7 of
93_implementation_defined.md; log 8). -/
opaque Config.deviceByte (k : AccessKind) (n : Nat) (a : Word) : Byte

/-- CYCLE_RATE, cycles per second (rule R6, U1): OPEN, read by no rule. -/
opaque Config.cycleRate : Nat

/-- TIME_TICK, the period of a tick (rule R6, U3): OPEN, read by no rule. -/
opaque Config.timeTick : Nat

end Sys2Proof
end

