-- ==== Sys2Proof/Machine/Launch.lean ====
section
/-! DEFINITION. The values the launch state takes where the spec leaves them open (rules R41, R270):
the model's choices, named here once. -/

namespace Sys2Proof.Machine

/-- RESET_PC, OPEN but for being a multiple of 4 (rule R270). DESIGN CHOICE 0, unsafe (log 2). -/
def launchPc : Word := 0x00000000

/-- x1 to x31 at launch, unspecified (rule R41). DESIGN CHOICE 0, unsafe (log 1). -/
def launchReg : Word := 0

/-- cycle64, time64 and instret64 at launch, unspecified (rule R41). DESIGN CHOICE 0, unsafe (log 3). -/
def launchCounter : DWord := 0

/-- What a byte of memory that no cell lists reads as; MEM_INIT is OPEN (rules R6, R41).
DESIGN CHOICE 0, unsafe (log 4). -/
def unlisted : Byte := 0

end Sys2Proof.Machine
end

