-- ==== Sys2Proof/Machine/State.lean ====
section
/-! DEFINITION. The state of the machine: one hart, the memory it shares, and the trap record it hands
over. Plain data throughout. -/

namespace Sys2Proof.Machine

/-- Memory as (address, byte) cells in one canonical form, `Memory.wf`; an address with no cell reads
as `unlisted` (rule R36). -/
abbrev Memory := List Host.Cell

/-- The fetch view `stale(h)`: the pairs (address, byte) such that the byte at the address has held
that value since the last FENCE.I and was overwritten; in one canonical form, `Stale.wf`
(rule R39). -/
abbrev Stale := List Host.Cell

/-- What the execution environment allows at an address: ACCESSIBLE for the three kinds, and
IO_REGION (rules R37, R61). -/
structure Attr where
  fetch : Bool
  read : Bool
  write : Bool
  io : Bool
deriving DecidableEq, Repr

/-- A run of addresses, `base` to `base + size - 1`, with one attribute. -/
structure Region where
  base : Nat
  size : Nat
  attr : Attr
deriving DecidableEq, Repr

/-- The exceptions of rule R230, named as it names them. -/
inductive Exception where
  /-- A jump or taken branch to a target that is no multiple of 4; info: the target (rule R158). -/
  | instructionAddressMisaligned
  /-- A write to a read-only CSR, an unimplemented CSR, or a word that matches no row; info: the word
  (rules R34, R97, R209). -/
  | illegalInstruction
  /-- ECALL; no info (rule R206). -/
  | environmentCall
  /-- EBREAK; info: its pc (rule R207). -/
  | breakpoint
  /-- A fetch that touches a byte not accessible for fetch; info: the pc (rule R62). -/
  | instructionAccessFault
  /-- A load that touches a byte not accessible for reading; info: the effective address (rule R62). -/
  | loadAccessFault
  /-- A store that touches a byte not accessible for writing; info: the effective address (rule R62). -/
  | storeAccessFault
deriving DecidableEq, Repr

/-- The trap record `(thread, exception, epc, info)` (rule R242). -/
structure TrapRecord where
  thread : Nat
  exception : Exception
  epc : Word
  info : Option Word
deriving DecidableEq, Repr

/-- The machine's state (rules R15, R38, R41). -/
structure State where
  /-- x1 to x31; cell `i` holds x(i+1) (rule R20). -/
  regs : Vector Word 31
  /-- The program counter (rule R24). -/
  pc : Word
  /-- Clock cycles, the counter behind cycle and cycleh (rule R30). -/
  cycle64 : DWord
  /-- Real time in ticks, the counter behind time and timeh (rule R31). -/
  time64 : DWord
  /-- Retired instructions, the counter behind instret and instreth (rule R32). -/
  instret64 : DWord
  /-- The 2^32 bytes of memory (rule R36). -/
  mem : Memory
  /-- The fetch view since the last FENCE.I (rule R39). -/
  stale : Stale
  /-- ACCESSIBLE and IO_REGION, parameters fixed for the run: the first region that covers an address
  decides, an address no region covers is accessible ordinary memory (rules R37, R61; log 5). -/
  map : List Region
  /-- `none` while the hart runs; the trap record once it is handed over (rules R240, R242, R255). -/
  trap : Option TrapRecord
  /-- The model's own field: the index of the free values the next step takes (log 21). -/
  draws : Nat
deriving DecidableEq, Repr

/-- How a step can stop with a fault. -/
inductive Fault where
  /-- Raised by `step` when the hart has been handed over and the environment answers `halt`: the hart
  never steps again (rules R243, R244). Safe: it is the spec's own end of a run. -/
  | handedOver
  /-- Raised by `step` when the pc, or the pc the environment resumes at, is no multiple of 4, which
  rule R26 says no run reaches. Safe: the machine stops. -/
  | misalignedPc
deriving DecidableEq, Repr

/-- Why a step gives an instruction no meaning. -/
inductive Refusal where
  /-- Raised by `exec` for an instruction whose meaning is not written; no arm uses it. Safe. -/
  | notModelled (mnemonic : String)
  /-- Raised by `step` for a fetched word of the C space, "unmodelled extension" (rule R98 (a)).
  Safe: nothing is claimed of what the chip does. -/
  | compressedSpace
  /-- Raised by `step` for a fetched word of the M space, "unmodelled extension" (rule R98 (b)).
  Safe: nothing is claimed of what the chip does. -/
  | multiplySpace
deriving DecidableEq, Repr

/-- The launch state (rules R41, R270), with the model's values where these leave them open. -/
def State.reset : State where
  regs := Vector.replicate 31 launchReg
  pc := launchPc
  cycle64 := launchCounter
  time64 := launchCounter
  instret64 := launchCounter
  mem := []
  stale := []
  map := []
  trap := none
  draws := 0

end Sys2Proof.Machine
end

