-- ==== Sys2Proof/Machine/Ops.lean ====
section
/-! DEFINITION. The named operations on memory and registers, the advance of the counters, the
completion of an instruction, and the taking of an exception. -/

namespace Sys2Proof.Machine

/-! ### Memory -/

/-- The byte at an address. -/
def Memory.read : Memory → Nat → Byte
  | [], _ => unlisted
  | (k, b) :: m, a => if k = a then b else Memory.read m a

/-- Write one byte and keep the canonical form: writing `unlisted` removes the cell. -/
def Memory.write : Memory → Nat → Byte → Memory
  | [], a, v => if v = unlisted then [] else [(a, v)]
  | (k, b) :: m, a, v =>
    if k < a then (k, b) :: Memory.write m a v
    else
      let rest := if k = a then m else (k, b) :: m
      if v = unlisted then rest else (a, v) :: rest

/-- The canonical form of a memory: addresses strictly rising, within the 2^32 of the address space,
and no cell equal to what an unlisted address reads as. -/
abbrev Memory.wf (m : Memory) : Prop :=
  m.Pairwise (fun c d => c.1 < d.1) ∧ ∀ c ∈ m, c.1 < 2 ^ 32 ∧ c.2 ≠ unlisted

/-! ### The fetch view (rules R39, R68) -/

/-- The order of the pairs of a fetch view: by address, then by value. -/
def staleKey (c : Host.Cell) : Nat := 256 * c.1 + c.2.toNat

/-- Add one pair to the set. -/
def Stale.insert : Stale → Host.Cell → Stale
  | [], c => [c]
  | d :: t, c =>
    if staleKey d < staleKey c then d :: Stale.insert t c
    else if d = c then d :: t
    else c :: d :: t

/-- The values the byte at `a` has held since the last FENCE.I and holds no more: `stale(h)[a]`. -/
def Stale.values (t : Stale) (a : Nat) : List Byte :=
  t.filterMap fun c => if c.1 = a then some c.2 else none

/-- The canonical form of a fetch view: pairs strictly rising, addresses within the address space. -/
abbrev Stale.wf (t : Stale) : Prop :=
  t.Pairwise (fun c d => staleKey c < staleKey d) ∧ ∀ c ∈ t, c.1 < 2 ^ 32

/-! ### ACCESSIBLE and IO_REGION (rules R37, R61) -/

/-- What holds at an address no region covers: ordinary memory, accessible (rule R6; log 5). -/
def Attr.plain : Attr := { fetch := true, read := true, write := true, io := false }

/-- ACCESSIBLE for one kind of access. -/
def Attr.allows (t : Attr) : AccessKind → Bool
  | .fetch => t.fetch
  | .read => t.read
  | .write => t.write

def Region.covers (r : Region) (a : Word) : Bool := r.base ≤ a.toNat && a.toNat < r.base + r.size

/-- The attribute of the first region that covers the address. -/
def attrAt : List Region → Word → Attr
  | [], _ => Attr.plain
  | r :: rs, a => if r.covers a then r.attr else attrAt rs a

/-- ACCESSIBLE(a, k). -/
def State.accessible (s : State) (k : AccessKind) (a : Word) : Bool := (attrAt s.map a).allows k

/-- IO_REGION(a). -/
def State.isIo (s : State) (a : Word) : Bool := (attrAt s.map a).io

/-- Every byte of an `n`-byte access at `a` is accessible, addresses modulo 2^32 (rules R51, R72). -/
def State.accessibleAll (s : State) (k : AccessKind) (a : Word) (n : Nat) : Bool :=
  (List.range n).all fun i => s.accessible k (a + BitVec.ofNat 32 i)

/-! ### Reading (rules R50, R51, R60, R64) -/

/-- The byte the hart observes at `a`: the memory byte, or, in IO_REGION, whatever the device returns
(log 8). -/
def State.observe (s : State) (k : AccessKind) (a : Word) : Byte :=
  if s.isIo a then Config.deviceByte k s.draws a else s.mem.read a.toNat

/-- `MemRead(a, 1)`; `none` where it raises LoadAccessFault. -/
def State.memRead8 (s : State) (a : Word) : Option (BitVec 8) :=
  if s.accessibleAll .read a 1 then some (s.observe .read a) else none

/-- `MemRead(a, 2)`, the byte at `a` lowest. -/
def State.memRead16 (s : State) (a : Word) : Option (BitVec 16) :=
  if s.accessibleAll .read a 2 then some (leHalf (s.observe .read a) (s.observe .read (a + 1)))
  else none

/-- `MemRead(a, 4)`, the byte at `a` lowest. -/
def State.memRead32 (s : State) (a : Word) : Option (BitVec 32) :=
  if s.accessibleAll .read a 4 then
    some (leWord (s.observe .read a) (s.observe .read (a + 1)) (s.observe .read (a + 2))
      (s.observe .read (a + 3)))
  else none

/-! ### Writing (rules R52, R68) -/

/-- Store one byte: a device output leaves memory as it is (log 8); a memory byte whose value changes
leaves its old value in the fetch view. -/
def State.storeByte (s : State) (a : Word) (v : Byte) : State :=
  if s.isIo a then s
  else
    let old := s.mem.read a.toNat
    if old = v then s
    else { s with mem := s.mem.write a.toNat v, stale := s.stale.insert (a.toNat, old) }

/-- Store bytes at `a`, `a + 1`, …, modulo 2^32. -/
def State.storeBytes (s : State) (a : Word) : List Byte → State
  | [] => s
  | b :: bs => (s.storeByte a b).storeBytes (a + 1) bs

/-- The low `n` bytes of a value, lowest first. -/
def bytesOf (v : Word) (n : Nat) : List Byte := (List.range n).map (byteOf v)

/-- `MemWrite(a, n, v)`; `none` where it raises StoreAccessFault, and then nothing is written. -/
def State.memWrite (s : State) (a : Word) (n : Nat) (v : Word) : Option State :=
  if s.accessibleAll .write a n then some (s.storeBytes a (bytesOf v n)) else none

/-! ### Fetching (rules R53, R68) -/

/-- The values the fetch of the byte at `a` may take: the one a load would see, and every stale one. -/
def State.fetchChoices (s : State) (a : Word) : List Byte :=
  s.observe .fetch a :: s.stale.values a.toNat

/-- The fetched value of the byte at `a`: drawn from `fetchChoices` (log 7). -/
def State.fetchByte (s : State) (a : Word) : Byte :=
  match s.stale.values a.toNat with
  | [] => s.observe .fetch a
  | v :: vs =>
    let choices := s.observe .fetch a :: v :: vs
    choices.getD (Config.fetchPick s.draws a % choices.length) (s.observe .fetch a)

/-- `Fetch(a)`; `none` where it raises InstructionAccessFault. -/
def State.fetch (s : State) (a : Word) : Option Word :=
  if s.accessibleAll .fetch a 4 then
    some (leWord (s.fetchByte a) (s.fetchByte (a + 1)) (s.fetchByte (a + 2)) (s.fetchByte (a + 3)))
  else none

/-! ### Registers (rules R10, R20, R21) -/

/-- `x[r]`; x0 reads as 0. -/
def State.reg (s : State) (r : Reg) : Word :=
  if r = 0#5 then 0 else s.regs[r.toNat - 1]'(by have := r.isLt; omega)

/-- `x[r] <- v`; a write to x0 is discarded. -/
def State.setReg (s : State) (r : Reg) (v : Word) : State :=
  if r = 0#5 then s
  else { s with regs := s.regs.set (r.toNat - 1) v (by have := r.isLt; omega) }

/-! ### Completing an instruction, and taking an exception -/

/-- Time passes for one step: the two clocks advance by free amounts (rules R30, R31, R285; log 6). -/
def State.elapse (s : State) : State :=
  { s with
    cycle64 := s.cycle64 + Config.cycleAdvance s.draws
    time64 := s.time64 + Config.timeAdvance s.draws
    draws := s.draws + 1 }

/-- The instruction completes and retires, the next one standing at `npc`
(rule R12 steps 5 and 6, rules R25, R32). -/
def State.retire (s : State) (npc : Word) : State :=
  { s.elapse with pc := npc, instret64 := s.instret64 + 1 }

/-- Taking an exception: the hart is handed over with its trap record; no register, no memory byte,
not the pc, not `stale` and not `instret64` changes (rules R240 to R242; log 9, log 19). -/
def State.raise (s : State) (e : Exception) (info : Option Word) : State :=
  { s.elapse with trap := some { thread := 0, exception := e, epc := s.pc, info := info } }

/-- The conventional number of an exception, the default of CAUSE_CODE; PRESUMED, read by no rule
(rule R231; log 26). -/
def Exception.causeCode : Exception → Nat
  | .instructionAddressMisaligned => 0
  | .instructionAccessFault => 1
  | .illegalInstruction => 2
  | .breakpoint => 3
  | .loadAccessFault => 5
  | .storeAccessFault => 7
  | .environmentCall => 8

/-! ### Shared endings of the meanings -/

/-- What one instruction or step answers. -/
abbrev Answer := Host.Outcome State Fault Refusal

/-- Write a result to `rd` and go on at the next instruction (rules R25, R142). -/
def State.finish (s : State) (rd : Reg) (v : Word) : Answer :=
  .next ((s.setReg rd v).retire (s.pc + 4))

/-- A target is a multiple of 4 (rule R158). -/
def aligned (t : Word) : Bool := t.extractLsb' 0 2 == 0

/-- Jump to `t` and leave the link in `rd`, or raise on a misaligned target with the link not written
(rules R150, R151, R158). -/
def State.jump (s : State) (rd : Reg) (t : Word) : Answer :=
  if aligned t then .next ((s.setReg rd (s.pc + 4)).retire t)
  else .next (s.raise .instructionAddressMisaligned (some t))

/-- Branch to `t` if the condition holds; a misaligned target matters only then (rules R152, R158). -/
def State.branch (s : State) (taken : Bool) (t : Word) : Answer :=
  if taken then
    if aligned t then .next (s.retire t)
    else .next (s.raise .instructionAddressMisaligned (some t))
  else .next (s.retire (s.pc + 4))

/-- End a load at `ea`: write the value, or raise (rules R62, R179). -/
def State.finishLoad (s : State) (rd : Reg) (ea : Word) : Option Word → Answer
  | some v => s.finish rd v
  | none => .next (s.raise .loadAccessFault (some ea))

/-- A store of the low `n` bytes of `v` at `ea` (rules R52, R62, R179). -/
def State.store (s : State) (ea : Word) (n : Nat) (v : Word) : Answer :=
  match s.memWrite ea n v with
  | some s' => .next (s'.retire (s.pc + 4))
  | none => .next (s.raise .storeAccessFault (some ea))

/-- Raise IllegalInstruction with the word of the instruction (rule R230; log 23). -/
def State.illegal (s : State) (w : Word) : State := s.raise .illegalInstruction (some w)

end Sys2Proof.Machine
end

