-- ==== Sys2Proof/Machine/Operands.lean ====
section
/-! DEFINITION. The operand forms: immediates extended to 32 bits, shift amounts, effective addresses
and targets. -/

namespace Sys2Proof.Machine

/-- The I-immediate, and the S-immediate: a 12-bit field sign-extended (rules R88, R89). -/
def imm12 (f : BitVec 12) : Word := f.signExtend 32

/-- The B-immediate: a 13-bit value sign-extended (rule R90). -/
def immB (off : BitVec 13) : Word := off.signExtend 32

/-- The U-immediate: a 20-bit field over twelve zeros (rule R91). -/
def immU (f : BitVec 20) : Word := place 32 12 f

/-- The J-immediate: a 21-bit value sign-extended (rule R92). -/
def immJ (off : BitVec 21) : Word := off.signExtend 32

/-- The 5-bit zimm, zero-extended (rule R93 (c)). -/
def zimmOf (z : BitVec 5) : Word := z.setWidth 32

/-- The amount of a register shift: the low 5 bits of x[rs2] (rule R138). -/
def shiftAmount (v : Word) : BitVec 5 := v.extractLsb' 0 5

/-- The effective address of a load or store: base plus sign-extended displacement, modulo 2^32
(rule R178). -/
def State.effAddr (s : State) (rs1 : Reg) (off : BitVec 12) : Word := s.reg rs1 + imm12 off

/-- The target of a conditional branch (rule R152). -/
def State.branchTarget (s : State) (off : BitVec 13) : Word := s.pc + immB off

/-- The target of JAL (rule R150). -/
def State.jalTarget (s : State) (off : BitVec 21) : Word := s.pc + immJ off

/-- The target of JALR: the sum with bit 0 cleared (rule R151). -/
def State.jalrTarget (s : State) (rs1 : Reg) (off : BitVec 12) : Word :=
  (s.reg rs1 + imm12 off) &&& 0xFFFFFFFE

end Sys2Proof.Machine
end

