-- ==== Sys2Proof/Machine/Flags.lean ====
section
/-! DEFINITION. The hardware has no flags (rule R28). What other machines leave in flags are here the
comparisons of two words (rule R9), written to a register as 0 or 1 or tested by a branch. -/

namespace Sys2Proof.Machine

/-- `a <s b`: both read as two's-complement integers (rule R9). -/
def ltSigned (a b : Word) : Bool := a.toInt < b.toInt

/-- `a <u b`: both read as unsigned integers (rule R9). -/
def ltUnsigned (a b : Word) : Bool := a.toNat < b.toNat

/-- The 32-bit value 1 or 0 of a comparison (rule R143). -/
def boolWord (c : Bool) : Word := if c then 1 else 0

/-- `a << n` for an amount of 0 to 31: zeros enter at the low end (rule R9). -/
def shiftLeft (a : Word) (n : BitVec 5) : Word := a <<< n.toNat

/-- `a >>u n`: zeros enter at the high end (rule R9). -/
def shiftRightLogical (a : Word) (n : BitVec 5) : Word := a >>> n.toNat

/-- `a >>s n`: copies of bit 31 enter at the high end (rule R9). -/
def shiftRightArith (a : Word) (n : BitVec 5) : Word := a.sshiftRight n.toNat

end Sys2Proof.Machine
end

