-- ==== Sys2Proof/Machine/Control.lean ====
section
/-! DEFINITION. The 8 control transfer instructions (41_control_transfer.md). No delay slot (rule R159);
a misaligned target raises at the jump or taken branch (rule R158). -/

namespace Sys2Proof.Machine

/-- JAL (rule R150). -/
def execJal (rd : Reg) (off : BitVec 21) (s : State) : Answer :=
  s.jump rd (s.jalTarget off)

/-- JALR: the target is computed from the rs1 value before the link is written (rule R151). -/
def execJalr (rd rs1 : Reg) (off : BitVec 12) (s : State) : Answer :=
  s.jump rd (s.jalrTarget rs1 off)

/-- BEQ (rule R152). -/
def execBeq (rs1 rs2 : Reg) (off : BitVec 13) (s : State) : Answer :=
  s.branch (s.reg rs1 == s.reg rs2) (s.branchTarget off)

/-- BNE (rule R153). -/
def execBne (rs1 rs2 : Reg) (off : BitVec 13) (s : State) : Answer :=
  s.branch (s.reg rs1 != s.reg rs2) (s.branchTarget off)

/-- BLT (rule R154). -/
def execBlt (rs1 rs2 : Reg) (off : BitVec 13) (s : State) : Answer :=
  s.branch (ltSigned (s.reg rs1) (s.reg rs2)) (s.branchTarget off)

/-- BLTU (rule R155). -/
def execBltu (rs1 rs2 : Reg) (off : BitVec 13) (s : State) : Answer :=
  s.branch (ltUnsigned (s.reg rs1) (s.reg rs2)) (s.branchTarget off)

/-- BGE (rule R156). -/
def execBge (rs1 rs2 : Reg) (off : BitVec 13) (s : State) : Answer :=
  s.branch (!ltSigned (s.reg rs1) (s.reg rs2)) (s.branchTarget off)

/-- BGEU (rule R157). -/
def execBgeu (rs1 rs2 : Reg) (off : BitVec 13) (s : State) : Answer :=
  s.branch (!ltUnsigned (s.reg rs1) (s.reg rs2)) (s.branchTarget off)

end Sys2Proof.Machine
end

