-- ==== Sys2Proof/Machine/Fence.lean ====
section
/-! DEFINITION. FENCE and FENCE.I (43_fence.md). -/

namespace Sys2Proof.Machine

/-- FENCE: on the executing hart's own state only the pc advances; what the sets order is seen by
other harts, devices and coprocessors only (rules R66, R190; log 12). -/
def execFence (_pred _succ : Classes) (s : State) : Answer :=
  .next (s.retire (s.pc + 4))

/-- FENCE.I: the fetch view is emptied, so that every later fetch sees every earlier store
(rule R191). -/
def execFenceI (s : State) : Answer :=
  .next (State.retire { s with stale := [] } (s.pc + 4))

end Sys2Proof.Machine
end

