-- ==== Sys2Proof/Machine/Integer.lean ====
section
/-! DEFINITION. The 21 integer computational instructions (40_integer_computational.md). Each reads its
sources, writes a 32-bit result to `rd` and goes on at pc + 4; none raises (rule R142). -/

namespace Sys2Proof.Machine

/-! ### Register-immediate -/

/-- ADDI (rule R120). -/
def execAddi (rd rs1 : Reg) (imm : BitVec 12) (s : State) : Answer :=
  s.finish rd (s.reg rs1 + imm12 imm)

/-- SLTI (rule R121). -/
def execSlti (rd rs1 : Reg) (imm : BitVec 12) (s : State) : Answer :=
  s.finish rd (boolWord (ltSigned (s.reg rs1) (imm12 imm)))

/-- SLTIU: the immediate is sign-extended, then compared unsigned (rule R122). -/
def execSltiu (rd rs1 : Reg) (imm : BitVec 12) (s : State) : Answer :=
  s.finish rd (boolWord (ltUnsigned (s.reg rs1) (imm12 imm)))

/-- ANDI (rule R123). -/
def execAndi (rd rs1 : Reg) (imm : BitVec 12) (s : State) : Answer :=
  s.finish rd (s.reg rs1 &&& imm12 imm)

/-- ORI (rule R124). -/
def execOri (rd rs1 : Reg) (imm : BitVec 12) (s : State) : Answer :=
  s.finish rd (s.reg rs1 ||| imm12 imm)

/-- XORI (rule R125). -/
def execXori (rd rs1 : Reg) (imm : BitVec 12) (s : State) : Answer :=
  s.finish rd (s.reg rs1 ^^^ imm12 imm)

/-- SLLI (rule R126). -/
def execSlli (rd rs1 : Reg) (shamt : BitVec 5) (s : State) : Answer :=
  s.finish rd (shiftLeft (s.reg rs1) shamt)

/-- SRLI (rule R127). -/
def execSrli (rd rs1 : Reg) (shamt : BitVec 5) (s : State) : Answer :=
  s.finish rd (shiftRightLogical (s.reg rs1) shamt)

/-- SRAI (rule R128). -/
def execSrai (rd rs1 : Reg) (shamt : BitVec 5) (s : State) : Answer :=
  s.finish rd (shiftRightArith (s.reg rs1) shamt)

/-- LUI (rule R129). -/
def execLui (rd : Reg) (imm20 : BitVec 20) (s : State) : Answer :=
  s.finish rd (immU imm20)

/-- AUIPC: the pc is the address of the AUIPC itself (rule R130). -/
def execAuipc (rd : Reg) (imm20 : BitVec 20) (s : State) : Answer :=
  s.finish rd (s.pc + immU imm20)

/-! ### Register-register -/

/-- ADD (rule R131). -/
def execAdd (rd rs1 rs2 : Reg) (s : State) : Answer :=
  s.finish rd (s.reg rs1 + s.reg rs2)

/-- SUB (rule R132). -/
def execSub (rd rs1 rs2 : Reg) (s : State) : Answer :=
  s.finish rd (s.reg rs1 - s.reg rs2)

/-- SLT (rule R133). -/
def execSlt (rd rs1 rs2 : Reg) (s : State) : Answer :=
  s.finish rd (boolWord (ltSigned (s.reg rs1) (s.reg rs2)))

/-- SLTU (rule R134). -/
def execSltu (rd rs1 rs2 : Reg) (s : State) : Answer :=
  s.finish rd (boolWord (ltUnsigned (s.reg rs1) (s.reg rs2)))

/-- AND (rule R135). -/
def execAnd (rd rs1 rs2 : Reg) (s : State) : Answer :=
  s.finish rd (s.reg rs1 &&& s.reg rs2)

/-- OR (rule R136). -/
def execOr (rd rs1 rs2 : Reg) (s : State) : Answer :=
  s.finish rd (s.reg rs1 ||| s.reg rs2)

/-- XOR (rule R137). -/
def execXor (rd rs1 rs2 : Reg) (s : State) : Answer :=
  s.finish rd (s.reg rs1 ^^^ s.reg rs2)

/-- SLL: the amount is the low 5 bits of x[rs2] (rule R138). -/
def execSll (rd rs1 rs2 : Reg) (s : State) : Answer :=
  s.finish rd (shiftLeft (s.reg rs1) (shiftAmount (s.reg rs2)))

/-- SRL (rule R139). -/
def execSrl (rd rs1 rs2 : Reg) (s : State) : Answer :=
  s.finish rd (shiftRightLogical (s.reg rs1) (shiftAmount (s.reg rs2)))

/-- SRA (rule R140). -/
def execSra (rd rs1 rs2 : Reg) (s : State) : Answer :=
  s.finish rd (shiftRightArith (s.reg rs1) (shiftAmount (s.reg rs2)))

end Sys2Proof.Machine
end

