-- ==== Sys2Proof/Machine/LoadStore.lean ====
section
/-! DEFINITION. The 5 loads and 3 stores (42_load_store.md). Any effective address is allowed for any
width; only ACCESSIBLE can make an access raise (rule R179). -/

namespace Sys2Proof.Machine

/-- LB: sign-extends the byte (rule R170). -/
def execLb (rd rs1 : Reg) (off : BitVec 12) (s : State) : Answer :=
  let ea := s.effAddr rs1 off
  s.finishLoad rd ea ((s.memRead8 ea).map fun v => v.signExtend 32)

/-- LH: sign-extends the halfword (rule R171). -/
def execLh (rd rs1 : Reg) (off : BitVec 12) (s : State) : Answer :=
  let ea := s.effAddr rs1 off
  s.finishLoad rd ea ((s.memRead16 ea).map fun v => v.signExtend 32)

/-- LW (rule R172). -/
def execLw (rd rs1 : Reg) (off : BitVec 12) (s : State) : Answer :=
  let ea := s.effAddr rs1 off
  s.finishLoad rd ea (s.memRead32 ea)

/-- LBU: zero-extends the byte (rule R173). -/
def execLbu (rd rs1 : Reg) (off : BitVec 12) (s : State) : Answer :=
  let ea := s.effAddr rs1 off
  s.finishLoad rd ea ((s.memRead8 ea).map fun v => v.setWidth 32)

/-- LHU: zero-extends the halfword (rule R174). -/
def execLhu (rd rs1 : Reg) (off : BitVec 12) (s : State) : Answer :=
  let ea := s.effAddr rs1 off
  s.finishLoad rd ea ((s.memRead16 ea).map fun v => v.setWidth 32)

/-- SB: stores x[rs2][7:0] (rule R175). -/
def execSb (rs2 rs1 : Reg) (off : BitVec 12) (s : State) : Answer :=
  s.store (s.effAddr rs1 off) 1 (s.reg rs2)

/-- SH: stores x[rs2][15:0] (rule R176). -/
def execSh (rs2 rs1 : Reg) (off : BitVec 12) (s : State) : Answer :=
  s.store (s.effAddr rs1 off) 2 (s.reg rs2)

/-- SW: stores x[rs2] (rule R177). -/
def execSw (rs2 rs1 : Reg) (off : BitVec 12) (s : State) : Answer :=
  s.store (s.effAddr rs1 off) 4 (s.reg rs2)

end Sys2Proof.Machine
end

