-- ==== Sys2Proof/Machine/Csr.lean ====
section
/-! DEFINITION. The six counter CSRs and the primitives CSRRead and CSRWrite. -/

namespace Sys2Proof.Machine

/-- The implemented CSRs, the set CSRS (rules R29 to R34). -/
inductive Csr where
  | cycle
  | time
  | instret
  | cycleh
  | timeh
  | instreth
deriving DecidableEq, Repr

/-- The CSR at an address; every other address is unimplemented (rules R30 to R34). -/
def Csr.ofAddr (a : CsrAddr) : Option Csr :=
  match a with
  | 0xC00 => some .cycle
  | 0xC01 => some .time
  | 0xC02 => some .instret
  | 0xC80 => some .cycleh
  | 0xC81 => some .timeh
  | 0xC82 => some .instreth
  | _ => none

/-- The 32-bit view a CSR gives of its counter (rules R30 to R33). -/
def Csr.value (c : Csr) (s : State) : Word :=
  match c with
  | .cycle => s.cycle64.extractLsb' 0 32
  | .time => s.time64.extractLsb' 0 32
  | .instret => s.instret64.extractLsb' 0 32
  | .cycleh => s.cycle64.extractLsb' 32 32
  | .timeh => s.time64.extractLsb' 32 32
  | .instreth => s.instret64.extractLsb' 32 32

/-- `CSRRead(a)`; `none` where it raises IllegalInstruction. It has no side effect (rule R208). -/
def csrRead (a : CsrAddr) (s : State) : Option Word := (Csr.ofAddr a).map fun c => c.value s

/-- Write a CSR; `none` where it is read-only, as every one of the six is, whatever the value
(rule R209). -/
def Csr.write (c : Csr) (_v : Word) (_s : State) : Option State :=
  match c with
  | .cycle => none
  | .time => none
  | .instret => none
  | .cycleh => none
  | .timeh => none
  | .instreth => none

/-- `CSRWrite(a, v)`; `none` where it raises IllegalInstruction (rule R209). -/
def csrWrite (a : CsrAddr) (v : Word) (s : State) : Option State :=
  match Csr.ofAddr a with
  | some c => c.write v s
  | none => none

/-- A CSR instruction with word `w`: read the CSR if `reads`, write `f old` to it if `writes`, put the
old value in `rd`. The value read is the one before the instruction; a write takes effect after the
instruction has retired; a refused access leaves everything unchanged (rules R200 to R205, R210,
R211). -/
def State.csrAccess (s : State) (w : Word) (rd : Reg) (a : CsrAddr) (reads writes : Bool)
    (f : Word → Word) : Answer :=
  match if reads then csrRead a s else some 0 with
  | none => .next (s.illegal w)
  | some old =>
    let done := (if reads then s.setReg rd old else s).retire (s.pc + 4)
    if writes then
      match csrWrite a (f old) done with
      | some s' => .next s'
      | none => .next (s.illegal w)
    else .next done

end Sys2Proof.Machine
end

