-- ==== Sys2Proof/Machine/System.lean ====
section
/-! DEFINITION. The CSR instructions, ECALL and EBREAK (44_csr_system.md). Every implemented CSR is
read-only, so a form that writes raises IllegalInstruction (rule R214). -/

namespace Sys2Proof.Machine

/-- CSRRW: reads unless rd is x0, always writes x[rs1] (rule R200). -/
def execCsrrw (rd : Reg) (csr : CsrAddr) (rs1 : Reg) (s : State) : Answer :=
  s.csrAccess (encode (.csrrw rd csr rs1)) rd csr (rd != 0#5) true fun _ => s.reg rs1

/-- CSRRS: always reads, sets bits unless the rs1 field names x0 (rule R201). -/
def execCsrrs (rd : Reg) (csr : CsrAddr) (rs1 : Reg) (s : State) : Answer :=
  s.csrAccess (encode (.csrrs rd csr rs1)) rd csr true (rs1 != 0#5) fun t => t ||| s.reg rs1

/-- CSRRC: always reads, clears bits unless the rs1 field names x0 (rule R202). -/
def execCsrrc (rd : Reg) (csr : CsrAddr) (rs1 : Reg) (s : State) : Answer :=
  s.csrAccess (encode (.csrrc rd csr rs1)) rd csr true (rs1 != 0#5) fun t => t &&& ~~~s.reg rs1

/-- CSRRWI: reads unless rd is x0, always writes zimm (rule R203). -/
def execCsrrwi (rd : Reg) (csr : CsrAddr) (zimm : BitVec 5) (s : State) : Answer :=
  s.csrAccess (encode (.csrrwi rd csr zimm)) rd csr (rd != 0#5) true fun _ => zimmOf zimm

/-- CSRRSI: always reads, sets bits unless zimm is 0 (rule R204). -/
def execCsrrsi (rd : Reg) (csr : CsrAddr) (zimm : BitVec 5) (s : State) : Answer :=
  s.csrAccess (encode (.csrrsi rd csr zimm)) rd csr true (zimm != 0#5) fun t => t ||| zimmOf zimm

/-- CSRRCI: always reads, clears bits unless zimm is 0 (rule R205). -/
def execCsrrci (rd : Reg) (csr : CsrAddr) (zimm : BitVec 5) (s : State) : Answer :=
  s.csrAccess (encode (.csrrci rd csr zimm)) rd csr true (zimm != 0#5) fun t => t &&& ~~~zimmOf zimm

/-- ECALL: takes EnvironmentCall (rule R206). -/
def execEcall (s : State) : Answer := .next (s.raise .environmentCall none)

/-- EBREAK: takes Breakpoint with its own pc (rule R207). -/
def execEbreak (s : State) : Answer := .next (s.raise .breakpoint (some s.pc))

end Sys2Proof.Machine
end

