-- ==== Sys2Proof/Machine/Environment.lean ====
section
/-! DEFINITION. The execution environment: EEI_HANDLER, what it answers to a trap record, and the
return of the hart to running (60_exceptions.md). -/

namespace Sys2Proof.Machine

/-- A new state for the handed-over hart: every piece of per-thread state of rule R38, in full, and the
bytes of the shared memory that the environment has written for it (rule R243). -/
structure Resume where
  /-- x1 to x31; cell `i` is x(i+1). -/
  regs : Vector Word 31
  /-- Where the hart goes on, for instance `epc + 4`. -/
  pc : Word
  /-- The hart's clock cycles. -/
  cycle64 : DWord
  /-- The hart's retired instructions. -/
  instret64 : DWord
  /-- The hart's fetch view: the pairs of an address and a stale value, in any order (rule R39). -/
  fetchView : List (Word × Byte)
  /-- The memory bytes written, in order. -/
  stores : List (Word × Byte)
deriving DecidableEq, Repr

/-- What EEI_HANDLER answers to a trap (rule R243). -/
inductive EeiAnswer where
  /-- The hart never steps again; the default of EEI_HANDLER. -/
  | halt
  /-- The hart goes on. -/
  | resume (r : Resume)
deriving DecidableEq, Repr, Inhabited

/-- Write bytes in order. -/
def Memory.writeEach (m : Memory) : List (Word × Byte) → Memory
  | [] => m
  | (a, v) :: rest => (m.write a.toNat v).writeEach rest

/-- The fetch view that holds exactly the given pairs. -/
def Stale.ofPairs : List (Word × Byte) → Stale
  | [] => []
  | (a, v) :: rest => (Stale.ofPairs rest).insert (a.toNat, v)

/-- The hart goes on in the state the environment gives it, time having passed: the return from a trap
(rules R243, R245). -/
def State.resumeFrom (s : State) (r : Resume) : State :=
  { s.elapse with
    regs := r.regs
    pc := r.pc
    cycle64 := r.cycle64
    instret64 := r.instret64
    mem := s.mem.writeEach r.stores
    stale := Stale.ofPairs r.fetchView
    trap := none }

/-- The step of a handed-over hart, given the environment's answer (rules R26, R243; log 10). -/
def State.answered (s : State) : EeiAnswer → Answer
  | .halt => .fault .handedOver
  | .resume r => if aligned r.pc then .next (s.resumeFrom r) else .fault .misalignedPc

end Sys2Proof.Machine

namespace Sys2Proof

/-- EEI_HANDLER, OPEN: any function of the trap record and the machine's state (rule R243; log 10). -/
opaque Config.eeiHandler (r : Machine.TrapRecord) (s : Machine.State) : Machine.EeiAnswer

end Sys2Proof
end

