-- ==== Sys2Proof/Machine/Cycle.lean ====
section
/-! DEFINITION. One step of the hart (rule R12): fetch, decode, execute; or, handed over, the
environment's answer. And the placing of an instruction where the next step fetches it. -/

namespace Sys2Proof.Machine

/-- Decode and execute a fetched word (rule R12 steps 3 and 4; rules R97, R98, R234). A word has four
bytes, so `decode` never answers `truncated`; that arm raises like any other word that matches no
row. -/
def runWord (s : State) (w : Word) : Answer :=
  match decode w with
  | .ok i => exec i s
  | .error .compressed => .refused .compressedSpace
  | .error .mulDiv => .refused .multiplySpace
  | .error .illegal => .next (s.illegal w)
  | .error .truncated => .next (s.illegal w)

/-- The step of a running hart (rule R12). Completion and retirement are part of each meaning
(`State.retire`). -/
def runHart (s : State) : Answer :=
  if aligned s.pc then
    match s.fetch s.pc with
    | some w => runWord s w
    | none => .next (s.raise .instructionAccessFault (some s.pc))
  else .fault .misalignedPc

/-- The step of the machine: a handed-over hart waits for the environment (rules R240, R243). -/
def stepMachine (s : State) : Answer :=
  match s.trap with
  | some r => s.answered (Config.eeiHandler r s)
  | none => runHart s

/-- Make the byte at `a` ordinary memory that can be fetched and holds `v`, its fetch view empty. -/
def State.placeByte (s : State) (a : Word) (v : Byte) : State :=
  { s with
    mem := s.mem.write a.toNat v
    stale := s.stale.filter fun c => c.1 ≠ a.toNat
    map :=
      if s.accessible .fetch a && !s.isIo a then s.map
      else
        { base := a.toNat, size := 1
          attr := { attrAt s.map a with fetch := true, io := false } } :: s.map }

/-- Place the word where the next step fetches: at the pc, cut down to a multiple of 4, of a running
hart (log 25). -/
def State.placeWord (s : State) (w : Word) : State :=
  let pc := s.pc &&& 0xFFFFFFFC
  let s := { s with pc := pc, trap := none }
  (((s.placeByte pc (byteOf w 0)).placeByte (pc + 1) (byteOf w 1)).placeByte (pc + 2)
    (byteOf w 2)).placeByte (pc + 3) (byteOf w 3)

end Sys2Proof.Machine
end

