-- ==== Sys2Proof/Machine/Step.lean ====
section
/-! DEFINITION. The step of the machine, and the placing of an instruction for the next step. -/

namespace Sys2Proof.Machine

/-- One step (rule R12). -/
def step (s : State) : Host.Outcome State Fault Refusal := stepMachine s

/-- The instruction `w` of `nbits` bits, numbered as in spec/opcode_table.json, stored where `step`
fetches its next instruction; the bits above `nbits` are zero (log 25). -/
def State.withFetchWord (s : State) (nbits w : Nat) : State :=
  s.placeWord (BitVec.ofNat 32 (w % 2 ^ nbits))

end Sys2Proof.Machine
end

