-- ==== Sys2Proof/Machine/Asm.lean ====
section
/-! DEFINITION. Assembly level: the pseudo-instructions as the core instructions they encode as (rules
R103, R104), and the spelling of an instruction (rules R101, R102). Neither adds a meaning (rule
R19); no other file of the machine uses this one. -/

namespace Sys2Proof.Pseudo

def nop : Instr := .addi 0 0 0
def mv (rd rs1 : Reg) : Instr := .addi rd rs1 0
def seqz (rd rs : Reg) : Instr := .sltiu rd rs 1
def not (rd rs : Reg) : Instr := .xori rd rs (-1)
def snez (rd rs : Reg) : Instr := .sltu rd 0 rs
def j (off : BitVec 21) : Instr := .jal 0 off
def bgt (rs rt : Reg) (off : BitVec 13) : Instr := .blt rt rs off
def bgtu (rs rt : Reg) (off : BitVec 13) : Instr := .bltu rt rs off
def ble (rs rt : Reg) (off : BitVec 13) : Instr := .bge rt rs off
def bleu (rs rt : Reg) (off : BitVec 13) : Instr := .bgeu rt rs off
def csrr (rd : Reg) (csr : CsrAddr) : Instr := .csrrs rd csr 0
def csrw (csr : CsrAddr) (rs1 : Reg) : Instr := .csrrw 0 csr rs1
def csrwi (csr : CsrAddr) (zimm : BitVec 5) : Instr := .csrrwi 0 csr zimm
def csrs (csr : CsrAddr) (rs1 : Reg) : Instr := .csrrs 0 csr rs1
def csrc (csr : CsrAddr) (rs1 : Reg) : Instr := .csrrc 0 csr rs1
def csrsi (csr : CsrAddr) (zimm : BitVec 5) : Instr := .csrrsi 0 csr zimm
def csrci (csr : CsrAddr) (zimm : BitVec 5) : Instr := .csrrci 0 csr zimm
def rdcycle (rd : Reg) : Instr := .csrrs rd 0xC00 0
def rdtime (rd : Reg) : Instr := .csrrs rd 0xC01 0
def rdinstret (rd : Reg) : Instr := .csrrs rd 0xC02 0
def rdcycleh (rd : Reg) : Instr := .csrrs rd 0xC80 0
def rdtimeh (rd : Reg) : Instr := .csrrs rd 0xC81 0
def rdinstreth (rd : Reg) : Instr := .csrrs rd 0xC82 0

end Sys2Proof.Pseudo

namespace Sys2Proof.Machine

/-- A register as `x0` to `x31` (rule R101). -/
def regText (r : Reg) : String := "x" ++ toString r.toNat

/-- A number in hexadecimal. -/
def hexText (n : Nat) : String := "0x" ++ String.ofList (Nat.toDigits 16 n)

/-- A CSR by its name, or by its address where it has none (rule R101). -/
def csrText (a : CsrAddr) : String :=
  match Csr.ofAddr a with
  | some .cycle => "cycle"
  | some .time => "time"
  | some .instret => "instret"
  | some .cycleh => "cycleh"
  | some .timeh => "timeh"
  | some .instreth => "instreth"
  | none => hexText a.toNat

/-- A FENCE set as a subset of the letters `iorw`; the empty set as 0 (rule R102). -/
def classesText (c : Classes) : String :=
  let t := (if c.i then "i" else "") ++ (if c.o then "o" else "") ++ (if c.r then "r" else "") ++
    (if c.w then "w" else "")
  if t.isEmpty then "0" else t

/-- `MNEMONIC a,b,c` (rule R101). -/
def operandsText (mnemonic : String) (operands : List String) : String :=
  mnemonic ++ " " ++ String.intercalate "," operands

/-- `offset(rs1)` (rule R102). -/
def baseText (rs1 : Reg) (off : BitVec 12) : String :=
  toString off.toInt ++ "(" ++ regText rs1 ++ ")"

/-- The operands of an instruction, in the order the spec writes them (rules R101, R102). -/
def operandsOf : Instr → List String
  | .lui rd imm20 => [regText rd, hexText imm20.toNat]
  | .auipc rd imm20 => [regText rd, hexText imm20.toNat]
  | .jal rd off => [regText rd, toString off.toInt]
  | .jalr rd rs1 off => [regText rd, baseText rs1 off]
  | .beq rs1 rs2 off => [regText rs1, regText rs2, toString off.toInt]
  | .bne rs1 rs2 off => [regText rs1, regText rs2, toString off.toInt]
  | .blt rs1 rs2 off => [regText rs1, regText rs2, toString off.toInt]
  | .bge rs1 rs2 off => [regText rs1, regText rs2, toString off.toInt]
  | .bltu rs1 rs2 off => [regText rs1, regText rs2, toString off.toInt]
  | .bgeu rs1 rs2 off => [regText rs1, regText rs2, toString off.toInt]
  | .lb rd rs1 off => [regText rd, baseText rs1 off]
  | .lh rd rs1 off => [regText rd, baseText rs1 off]
  | .lw rd rs1 off => [regText rd, baseText rs1 off]
  | .lbu rd rs1 off => [regText rd, baseText rs1 off]
  | .lhu rd rs1 off => [regText rd, baseText rs1 off]
  | .sb rs2 rs1 off => [regText rs2, baseText rs1 off]
  | .sh rs2 rs1 off => [regText rs2, baseText rs1 off]
  | .sw rs2 rs1 off => [regText rs2, baseText rs1 off]
  | .addi rd rs1 imm => [regText rd, regText rs1, toString imm.toInt]
  | .slti rd rs1 imm => [regText rd, regText rs1, toString imm.toInt]
  | .sltiu rd rs1 imm => [regText rd, regText rs1, toString imm.toInt]
  | .xori rd rs1 imm => [regText rd, regText rs1, toString imm.toInt]
  | .ori rd rs1 imm => [regText rd, regText rs1, toString imm.toInt]
  | .andi rd rs1 imm => [regText rd, regText rs1, toString imm.toInt]
  | .slli rd rs1 shamt => [regText rd, regText rs1, toString shamt.toNat]
  | .srli rd rs1 shamt => [regText rd, regText rs1, toString shamt.toNat]
  | .srai rd rs1 shamt => [regText rd, regText rs1, toString shamt.toNat]
  | .add rd rs1 rs2 => [regText rd, regText rs1, regText rs2]
  | .sub rd rs1 rs2 => [regText rd, regText rs1, regText rs2]
  | .sll rd rs1 rs2 => [regText rd, regText rs1, regText rs2]
  | .slt rd rs1 rs2 => [regText rd, regText rs1, regText rs2]
  | .sltu rd rs1 rs2 => [regText rd, regText rs1, regText rs2]
  | .xor rd rs1 rs2 => [regText rd, regText rs1, regText rs2]
  | .srl rd rs1 rs2 => [regText rd, regText rs1, regText rs2]
  | .sra rd rs1 rs2 => [regText rd, regText rs1, regText rs2]
  | .or rd rs1 rs2 => [regText rd, regText rs1, regText rs2]
  | .and rd rs1 rs2 => [regText rd, regText rs1, regText rs2]
  | .fence pred succ => [classesText pred, classesText succ]
  | .fenceI => []
  | .ecall => []
  | .ebreak => []
  | .csrrw rd csr rs1 => [regText rd, csrText csr, regText rs1]
  | .csrrs rd csr rs1 => [regText rd, csrText csr, regText rs1]
  | .csrrc rd csr rs1 => [regText rd, csrText csr, regText rs1]
  | .csrrwi rd csr zimm => [regText rd, csrText csr, toString zimm.toNat]
  | .csrrsi rd csr zimm => [regText rd, csrText csr, toString zimm.toNat]
  | .csrrci rd csr zimm => [regText rd, csrText csr, toString zimm.toNat]

/-- The assembly spelling of an instruction. -/
def spelling (i : Instr) : String :=
  match operandsOf i with
  | [] => i.row.mnemonic
  | ops => operandsText i.row.mnemonic ops

end Sys2Proof.Machine
end

