-- ==== Sys2Proof/Safety.lean ====
section
/-! DEFINITION. What a sound state and an end of a run are, and the words in which statements say what a
step changed and what it left alone. -/

namespace Sys2Proof.Machine

/-- The invariant of the machine: memory and fetch view in canonical form, the pc a multiple of 4 (rule
R26), and a trap record that names hart 0 and the unchanged pc (rules R241, R242). -/
abbrev State.Inv (s : State) : Prop :=
  Memory.wf s.mem ∧ Stale.wf s.stale ∧ aligned s.pc = true ∧
    ∀ r ∈ s.trap, r.thread = 0 ∧ r.epc = s.pc

/-- The hart runs: no trap has been handed over (rule R255). -/
abbrev State.Running (s : State) : Prop := s.trap = none

/-- A run that stands here has ended normally, if the environment does not go on: EnvironmentCall
(rule R244). -/
def State.normalEnd (s : State) : Bool :=
  match s.trap with
  | some r => r.exception == .environmentCall
  | none => false

/-- A run that stands here has ended in a fault, if the environment does not go on: any exception other
than EnvironmentCall (rule R244). -/
def State.faultEnd (s : State) : Bool :=
  match s.trap with
  | some r => r.exception != .environmentCall
  | none => false

/-! ### What changed, and what did not -/

/-- Every register reads as before. -/
def SameRegs (s t : State) : Prop := ∀ r : Reg, t.reg r = s.reg r

/-- `rd` reads `v`, x0 reads 0, every other register reads as before. -/
def WroteReg (s t : State) (rd : Reg) (v : Word) : Prop :=
  ∀ r : Reg, t.reg r = if r = 0 then 0 else if r = rd then v else s.reg r

/-- The byte at an address, as every statement reads it. -/
def State.byteAt (s : State) (a : Word) : Byte := s.mem.read a.toNat

/-- Every byte of memory reads as before. -/
def SameMemory (s t : State) : Prop := ∀ a : Word, t.byteAt a = s.byteAt a

/-- The clocks have advanced by the free amounts of this step, and the parameters stand. -/
def TimePassed (s t : State) : Prop :=
  t.cycle64 = s.cycle64 + Config.cycleAdvance s.draws ∧
    t.time64 = s.time64 + Config.timeAdvance s.draws ∧ t.draws = s.draws + 1 ∧ t.map = s.map

/-- An instruction has retired, its successor at `npc`. -/
def Retired (s t : State) (npc : Word) : Prop :=
  t.pc = npc ∧ t.instret64 = s.instret64 + 1 ∧ t.trap = s.trap ∧ TimePassed s t

/-- A register instruction has completed: `v` in `rd`, the next instruction at `npc`, and nothing else
changed. -/
def WroteOnly (s t : State) (rd : Reg) (v : Word) (npc : Word) : Prop :=
  WroteReg s t rd v ∧ SameMemory s t ∧ t.stale = s.stale ∧ Retired s t npc

/-- An instruction that writes no register and no memory has completed. -/
def MovedOnly (s t : State) (npc : Word) : Prop :=
  SameRegs s t ∧ SameMemory s t ∧ t.stale = s.stale ∧ Retired s t npc

/-- An exception has been taken: the trap record stands, and nothing but the clocks has changed
(rules R241, R242; that the clocks advance: log 19). -/
def Trapped (s t : State) (e : Exception) (info : Option Word) : Prop :=
  t.trap = some { thread := 0, exception := e, epc := s.pc, info := info } ∧ t.pc = s.pc ∧
    SameRegs s t ∧ SameMemory s t ∧ t.stale = s.stale ∧ t.instret64 = s.instret64 ∧ TimePassed s t

/-- `exec i s` answers a next state that meets `post`. -/
def Completes (i : Instr) (s : State) (post : State → Prop) : Prop :=
  ∃ t, exec i s = .next t ∧ post t

/-- `exec i s` takes the exception `e`. -/
def Traps (i : Instr) (s : State) (e : Exception) (info : Option Word) : Prop :=
  ∃ t, exec i s = .next t ∧ Trapped s t e info

/-- The `n` bytes from `a` on, modulo 2^32, can be accessed so. -/
def AllAccessible (s : State) (k : AccessKind) (a : Word) (n : Nat) : Prop :=
  ∀ j < n, s.accessible k (a + BitVec.ofNat 32 j) = true

/-- The little-endian number of the `n` bytes a load observes at `a` (rule R51). -/
def observedNat (s : State) (a : Word) : Nat → Nat
  | 0 => 0
  | n + 1 => observedNat s a n + (s.observe .read (a + BitVec.ofNat 32 n)).toNat * 2 ^ (8 * n)

/-- Memory after a store of the low `n` bytes of `v` at `a`: byte `a + j` holds `v[8j+7:8j]`, and every
other byte reads as before (rule R52); a byte of IO_REGION reads as before too, the model's choice
(log 8). -/
def StoredAt (s t : State) (a : Word) (n : Nat) (v : Word) : Prop :=
  (∀ j < n, s.isIo (a + BitVec.ofNat 32 j) = false →
    (t.byteAt (a + BitVec.ofNat 32 j)).toNat = v.toNat / 2 ^ (8 * j) % 256) ∧
  (∀ b : Word, (∀ j < n, b = a + BitVec.ofNat 32 j → s.isIo b = true) → t.byteAt b = s.byteAt b)

/-- The fetch view after a store: it gains the old value of each byte the store changed, and nothing
else (rules R52, R68). -/
def StaleGrew (s t : State) : Prop :=
  ∀ (a : Word) (v : Byte), v ∈ t.stale.values a.toNat ↔
    v ∈ s.stale.values a.toNat ∨ (v = s.byteAt a ∧ t.byteAt a ≠ s.byteAt a)

/-! ### What the rules say of all instructions -/

/-- The words of one row of the decode table are exactly the words that decode to its instruction, with
the operands that the fields of the word name (rule R96). -/
def RowIs (mask value : Word) (f : Word → Instr) : Prop :=
  ∀ w : Word, decode w = .ok (f w) ↔ w &&& mask = value

/-- The offset of a conditional branch, as its word holds it (rule R90). -/
def branchOffset (w : Word) : BitVec 13 :=
  w.extractLsb' 31 1 ++ w.extractLsb' 7 1 ++ w.extractLsb' 25 6 ++ w.extractLsb' 8 4 ++ 0#1

/-- The offset of JAL, as its word holds it (rule R92). -/
def jumpOffset (w : Word) : BitVec 21 :=
  w.extractLsb' 31 1 ++ w.extractLsb' 12 8 ++ w.extractLsb' 20 1 ++ w.extractLsb' 21 10 ++ 0#1

/-- The displacement of a store, as its word holds it (rule R89). -/
def storeOffset (w : Word) : BitVec 12 := w.extractLsb' 25 7 ++ w.extractLsb' 7 5

/-- The low two bits of a target are not 00 (rule R158). -/
def Misaligned (t : Word) : Prop := t.extractLsb' 0 2 ≠ 0

/-- A branch `i` with condition `cond` and target `t`: taken to an aligned target, taken to a misaligned
one, not taken (rules R152 to R158). -/
def Branches (i : Instr) (s : State) (cond : Prop) (t : Word) : Prop :=
  (cond → ¬ Misaligned t → Completes i s fun u => MovedOnly s u t) ∧
  (cond → Misaligned t → Traps i s .instructionAddressMisaligned (some t)) ∧
  (¬ cond → Completes i s fun u => MovedOnly s u (s.pc + 4))

/-- A load `i` of `n` bytes at `ea` that puts `v` in `rd`, or raises where a byte is not accessible (rules
R62, R179). -/
def Loads (i : Instr) (s : State) (rd : Reg) (ea : Word) (n : Nat) (v : Word) : Prop :=
  (AllAccessible s .read ea n → Completes i s fun t => WroteOnly s t rd v (s.pc + 4)) ∧
  (¬ AllAccessible s .read ea n → Traps i s .loadAccessFault (some ea))

/-- A store `i` of the low `n` bytes of `v` at `ea`, or a trap with nothing written where a byte is not
accessible (rules R52, R62, R179). -/
def Stores (i : Instr) (s : State) (ea : Word) (n : Nat) (v : Word) : Prop :=
  (AllAccessible s .write ea n → Completes i s fun t =>
    SameRegs s t ∧ StoredAt s t ea n v ∧ StaleGrew s t ∧ Retired s t (s.pc + 4)) ∧
  (¬ AllAccessible s .write ea n → Traps i s .storeAccessFault (some ea))

/-- The register the rd field of an instruction names, for the instructions that have one (rules R23,
R190, R191). -/
def destinationOf : Instr → Option Reg
  | .lui rd _ => some rd
  | .auipc rd _ => some rd
  | .jal rd _ => some rd
  | .jalr rd _ _ => some rd
  | .beq _ _ _ => none
  | .bne _ _ _ => none
  | .blt _ _ _ => none
  | .bge _ _ _ => none
  | .bltu _ _ _ => none
  | .bgeu _ _ _ => none
  | .lb rd _ _ => some rd
  | .lh rd _ _ => some rd
  | .lw rd _ _ => some rd
  | .lbu rd _ _ => some rd
  | .lhu rd _ _ => some rd
  | .sb _ _ _ => none
  | .sh _ _ _ => none
  | .sw _ _ _ => none
  | .addi rd _ _ => some rd
  | .slti rd _ _ => some rd
  | .sltiu rd _ _ => some rd
  | .xori rd _ _ => some rd
  | .ori rd _ _ => some rd
  | .andi rd _ _ => some rd
  | .slli rd _ _ => some rd
  | .srli rd _ _ => some rd
  | .srai rd _ _ => some rd
  | .add rd _ _ => some rd
  | .sub rd _ _ => some rd
  | .sll rd _ _ => some rd
  | .slt rd _ _ => some rd
  | .sltu rd _ _ => some rd
  | .xor rd _ _ => some rd
  | .srl rd _ _ => some rd
  | .sra rd _ _ => some rd
  | .or rd _ _ => some rd
  | .and rd _ _ => some rd
  | .fence _ _ => none
  | .fenceI => none
  | .ecall => none
  | .ebreak => none
  | .csrrw rd _ _ => some rd
  | .csrrs rd _ _ => some rd
  | .csrrc rd _ _ => some rd
  | .csrrwi rd _ _ => some rd
  | .csrrsi rd _ _ => some rd
  | .csrrci rd _ _ => some rd

/-- Where an instruction transfers control from `s`: the target of a jump or of a branch whose condition
holds; `none` for every other instruction and for a branch not taken (rules R25, R150 to R157). -/
def transferTarget (i : Instr) (s : State) : Option Word :=
  match i with
  | .lui _ _ => none
  | .auipc _ _ => none
  | .jal _ off => some (s.pc + off.signExtend 32)
  | .jalr _ rs1 off => some ((s.reg rs1 + off.signExtend 32) &&& 0xFFFFFFFE)
  | .beq rs1 rs2 off =>
    if s.reg rs1 = s.reg rs2 then some (s.pc + off.signExtend 32) else none
  | .bne rs1 rs2 off =>
    if s.reg rs1 ≠ s.reg rs2 then some (s.pc + off.signExtend 32) else none
  | .blt rs1 rs2 off =>
    if (s.reg rs1).toInt < (s.reg rs2).toInt then some (s.pc + off.signExtend 32) else none
  | .bge rs1 rs2 off =>
    if (s.reg rs2).toInt ≤ (s.reg rs1).toInt then some (s.pc + off.signExtend 32) else none
  | .bltu rs1 rs2 off =>
    if (s.reg rs1).toNat < (s.reg rs2).toNat then some (s.pc + off.signExtend 32) else none
  | .bgeu rs1 rs2 off =>
    if (s.reg rs2).toNat ≤ (s.reg rs1).toNat then some (s.pc + off.signExtend 32) else none
  | .lb _ _ _ => none
  | .lh _ _ _ => none
  | .lw _ _ _ => none
  | .lbu _ _ _ => none
  | .lhu _ _ _ => none
  | .sb _ _ _ => none
  | .sh _ _ _ => none
  | .sw _ _ _ => none
  | .addi _ _ _ => none
  | .slti _ _ _ => none
  | .sltiu _ _ _ => none
  | .xori _ _ _ => none
  | .ori _ _ _ => none
  | .andi _ _ _ => none
  | .slli _ _ _ => none
  | .srli _ _ _ => none
  | .srai _ _ _ => none
  | .add _ _ _ => none
  | .sub _ _ _ => none
  | .sll _ _ _ => none
  | .slt _ _ _ => none
  | .sltu _ _ _ => none
  | .xor _ _ _ => none
  | .srl _ _ _ => none
  | .sra _ _ _ => none
  | .or _ _ _ => none
  | .and _ _ _ => none
  | .fence _ _ => none
  | .fenceI => none
  | .ecall => none
  | .ebreak => none
  | .csrrw _ _ _ => none
  | .csrrs _ _ _ => none
  | .csrrc _ _ _ => none
  | .csrrwi _ _ _ => none
  | .csrrsi _ _ _ => none
  | .csrrci _ _ _ => none

/-- The one kind of exception an instruction can take when it is executed (rule R234, step 3). -/
def possibleException : Instr → Option Exception
  | .lui _ _ => none
  | .auipc _ _ => none
  | .jal _ _ => some .instructionAddressMisaligned
  | .jalr _ _ _ => some .instructionAddressMisaligned
  | .beq _ _ _ => some .instructionAddressMisaligned
  | .bne _ _ _ => some .instructionAddressMisaligned
  | .blt _ _ _ => some .instructionAddressMisaligned
  | .bge _ _ _ => some .instructionAddressMisaligned
  | .bltu _ _ _ => some .instructionAddressMisaligned
  | .bgeu _ _ _ => some .instructionAddressMisaligned
  | .lb _ _ _ => some .loadAccessFault
  | .lh _ _ _ => some .loadAccessFault
  | .lw _ _ _ => some .loadAccessFault
  | .lbu _ _ _ => some .loadAccessFault
  | .lhu _ _ _ => some .loadAccessFault
  | .sb _ _ _ => some .storeAccessFault
  | .sh _ _ _ => some .storeAccessFault
  | .sw _ _ _ => some .storeAccessFault
  | .addi _ _ _ => none
  | .slti _ _ _ => none
  | .sltiu _ _ _ => none
  | .xori _ _ _ => none
  | .ori _ _ _ => none
  | .andi _ _ _ => none
  | .slli _ _ _ => none
  | .srli _ _ _ => none
  | .srai _ _ _ => none
  | .add _ _ _ => none
  | .sub _ _ _ => none
  | .sll _ _ _ => none
  | .slt _ _ _ => none
  | .sltu _ _ _ => none
  | .xor _ _ _ => none
  | .srl _ _ _ => none
  | .sra _ _ _ => none
  | .or _ _ _ => none
  | .and _ _ _ => none
  | .fence _ _ => none
  | .fenceI => none
  | .ecall => some .environmentCall
  | .ebreak => some .breakpoint
  | .csrrw _ _ _ => some .illegalInstruction
  | .csrrs _ _ _ => some .illegalInstruction
  | .csrrc _ _ _ => some .illegalInstruction
  | .csrrwi _ _ _ => some .illegalInstruction
  | .csrrsi _ _ _ => some .illegalInstruction
  | .csrrci _ _ _ => some .illegalInstruction

/-- The instruction is a store, and `(address, length)` says where it stores (rules R52, R178). -/
def storeRange (i : Instr) (s : State) : Option (Word × Nat) :=
  match i with
  | .lui _ _ => none
  | .auipc _ _ => none
  | .jal _ _ => none
  | .jalr _ _ _ => none
  | .beq _ _ _ => none
  | .bne _ _ _ => none
  | .blt _ _ _ => none
  | .bge _ _ _ => none
  | .bltu _ _ _ => none
  | .bgeu _ _ _ => none
  | .lb _ _ _ => none
  | .lh _ _ _ => none
  | .lw _ _ _ => none
  | .lbu _ _ _ => none
  | .lhu _ _ _ => none
  | .sb _ rs1 off => some (s.effAddr rs1 off, 1)
  | .sh _ rs1 off => some (s.effAddr rs1 off, 2)
  | .sw _ rs1 off => some (s.effAddr rs1 off, 4)
  | .addi _ _ _ => none
  | .slti _ _ _ => none
  | .sltiu _ _ _ => none
  | .xori _ _ _ => none
  | .ori _ _ _ => none
  | .andi _ _ _ => none
  | .slli _ _ _ => none
  | .srli _ _ _ => none
  | .srai _ _ _ => none
  | .add _ _ _ => none
  | .sub _ _ _ => none
  | .sll _ _ _ => none
  | .slt _ _ _ => none
  | .sltu _ _ _ => none
  | .xor _ _ _ => none
  | .srl _ _ _ => none
  | .sra _ _ _ => none
  | .or _ _ _ => none
  | .and _ _ _ => none
  | .fence _ _ => none
  | .fenceI => none
  | .ecall => none
  | .ebreak => none
  | .csrrw _ _ _ => none
  | .csrrs _ _ _ => none
  | .csrrc _ _ _ => none
  | .csrrwi _ _ _ => none
  | .csrrsi _ _ _ => none
  | .csrrci _ _ _ => none

/-- The instruction is one of the six CSR instructions. -/
def accessesCsr : Instr → Bool
  | .lui _ _ => false
  | .auipc _ _ => false
  | .jal _ _ => false
  | .jalr _ _ _ => false
  | .beq _ _ _ => false
  | .bne _ _ _ => false
  | .blt _ _ _ => false
  | .bge _ _ _ => false
  | .bltu _ _ _ => false
  | .bgeu _ _ _ => false
  | .lb _ _ _ => false
  | .lh _ _ _ => false
  | .lw _ _ _ => false
  | .lbu _ _ _ => false
  | .lhu _ _ _ => false
  | .sb _ _ _ => false
  | .sh _ _ _ => false
  | .sw _ _ _ => false
  | .addi _ _ _ => false
  | .slti _ _ _ => false
  | .sltiu _ _ _ => false
  | .xori _ _ _ => false
  | .ori _ _ _ => false
  | .andi _ _ _ => false
  | .slli _ _ _ => false
  | .srli _ _ _ => false
  | .srai _ _ _ => false
  | .add _ _ _ => false
  | .sub _ _ _ => false
  | .sll _ _ _ => false
  | .slt _ _ _ => false
  | .sltu _ _ _ => false
  | .xor _ _ _ => false
  | .srl _ _ _ => false
  | .sra _ _ _ => false
  | .or _ _ _ => false
  | .and _ _ _ => false
  | .fence _ _ => false
  | .fenceI => false
  | .ecall => false
  | .ebreak => false
  | .csrrw _ _ _ => true
  | .csrrs _ _ _ => true
  | .csrrc _ _ _ => true
  | .csrrwi _ _ _ => true
  | .csrrsi _ _ _ => true
  | .csrrci _ _ _ => true

end Sys2Proof.Machine
end

