-- ==== Sys2Proof/Certificates/Slice0/Obligations.lean ====
section
/-! DEFINITION. The statements for the provers. `WroteOnly`, `MovedOnly`, `Trapped` and the other words
they are written in stand in Sys2Proof/Safety.lean; each of these says the whole frame. What they say of
the clocks (`TimePassed`) is the model's own: that the advance is free and falls at the step's end is
log 6, that a step that traps lets time pass too is log 19. -/

section
open Sys2Proof Sys2Proof.Machine

/-! ### Encoding -/

/-- Every instruction that has an encoding is read back from its word, every operand at every value
(rules R82 to R93, R105). -/
def Obligations.DecodeOfEncode : Prop :=
  ∀ i : Instr, i.wellFormed = true → decode (encode i) = .ok i

/-- The other direction: no bit of a word is dropped, but for the reserved fields of FENCE and FENCE.I;
and what the decoder reads has an encoding (rules R96, R99). -/
def Obligations.EncodeOfDecode : Prop :=
  ∀ (w : Word) (i : Instr), decode w = .ok i → i.wellFormed = true ∧ i.row.covers w = true ∧
    match i with
    | .fence _ _ => encode i = w &&& 0x0FF0707F
    | .fenceI => encode i = w &&& 0x0000707F
    | _ => encode i = w

/-- Rule R105: the word of each of the six formats, by shifts and masks on non-negative integers. -/
def Obligations.AssembledWords : Prop :=
  ∀ (f7 op : BitVec 7) (rs2 rs1 rd : Reg) (f3 : BitVec 3),
    (rFormat f7 rs2 rs1 f3 rd op).toNat =
      f7.toNat <<< 25 ||| rs2.toNat <<< 20 ||| rs1.toNat <<< 15 ||| f3.toNat <<< 12 |||
        rd.toNat <<< 7 ||| op.toNat ∧
    (∀ imm : BitVec 12, let m := (imm.signExtend 32).toNat
      (iFormat imm rs1 f3 rd op).toNat =
        (m &&& 0xFFF) <<< 20 ||| rs1.toNat <<< 15 ||| f3.toNat <<< 12 ||| rd.toNat <<< 7 |||
          op.toNat ∧
      (sFormat imm rs2 rs1 f3 op).toNat =
        (m >>> 5 &&& 0x7F) <<< 25 ||| rs2.toNat <<< 20 ||| rs1.toNat <<< 15 ||| f3.toNat <<< 12 |||
          (m &&& 0x1F) <<< 7 ||| op.toNat) ∧
    (∀ off : BitVec 13, off.getLsbD 0 = false → let m := (off.signExtend 32).toNat
      (sbFormat off rs2 rs1 f3 op).toNat =
        (m >>> 12 &&& 1) <<< 31 ||| (m >>> 5 &&& 0x3F) <<< 25 ||| rs2.toNat <<< 20 |||
          rs1.toNat <<< 15 ||| f3.toNat <<< 12 ||| (m >>> 1 &&& 0xF) <<< 8 |||
          (m >>> 11 &&& 1) <<< 7 ||| op.toNat) ∧
    (∀ imm20 : BitVec 20,
      (uFormat imm20 rd op).toNat =
        (imm20.toNat &&& 0xFFFFF) <<< 12 ||| rd.toNat <<< 7 ||| op.toNat) ∧
    (∀ off : BitVec 21, off.getLsbD 0 = false → let m := (off.signExtend 32).toNat
      (ujFormat off rd op).toNat =
        (m >>> 20 &&& 1) <<< 31 ||| (m >>> 1 &&& 0x3FF) <<< 21 ||| (m >>> 11 &&& 1) <<< 20 |||
          (m >>> 12 &&& 0xFF) <<< 12 ||| rd.toNat <<< 7 ||| op.toNat)

/-- Rule R96: a word is an instruction of a row exactly when the row covers it, and at most one row
covers a word. -/
def Obligations.DecodeFollowsTheTable : Prop :=
  (∀ (w : Word) (i : Instr), i.row.covers w = true ↔ ∃ j, j.row = i.row ∧ decode w = .ok j) ∧
  (∀ (w : Word) (i j : Instr), i.row.covers w = true → j.row.covers w = true → i.row = j.row)

/-- Rule R97: a fetched word that no row covers and that lies in no refused space raises
IllegalInstruction with the word, and nothing else happens; and the groups of words the rule lists are
covered by no row. -/
def Obligations.UnmatchedWordsRaise : Prop :=
  (∀ (s : State) (w : Word), s.Running → aligned s.pc = true → s.fetch s.pc = some w →
    (∀ i : Instr, i.row.covers w = false) → w.extractLsb' 0 2 = 0b11#2 →
    ¬ (w.extractLsb' 0 7 = 0b0110011#7 ∧ w.extractLsb' 25 7 = 0b0000001#7) →
    ∃ t, step s = .next t ∧ Trapped s t .illegalInstruction (some w)) ∧
  (∀ w : Word, let op := w.extractLsb' 0 7; let f3 := w.extractLsb' 12 3; let f7 := w.extractLsb' 25 7
    (op ∉ [0b0110111#7, 0b0010111#7, 0b1101111#7, 0b1100111#7, 0b1100011#7, 0b0000011#7,
        0b0100011#7, 0b0010011#7, 0b0110011#7, 0b0001111#7, 0b1110011#7] ∨
      (op = 0b1100011#7 ∧ f3 ∈ [0b010#3, 0b011#3]) ∨
      (op = 0b0000011#7 ∧ f3 ∈ [0b011#3, 0b110#3, 0b111#3]) ∨
      (op = 0b0100011#7 ∧ 3 ≤ f3.toNat) ∨
      (op = 0b1100111#7 ∧ f3 ≠ 0b000#3) ∨
      (op = 0b0001111#7 ∧ 2 ≤ f3.toNat) ∨
      (op = 0b0010011#7 ∧ f3 = 0b001#3 ∧ f7 ≠ 0b0000000#7) ∨
      (op = 0b0010011#7 ∧ f3 = 0b101#3 ∧ f7 ∉ [0b0000000#7, 0b0100000#7]) ∨
      (op = 0b0110011#7 ∧ f7 ∉ [0b0000000#7, 0b0100000#7]) ∨
      (op = 0b0110011#7 ∧ f7 = 0b0100000#7 ∧ f3 ∉ [0b000#3, 0b101#3]) ∨
      (op = 0b1110011#7 ∧ f3 = 0b100#3) ∨
      (op = 0b1110011#7 ∧ f3 = 0b000#3 ∧ w ≠ 0x00000073 ∧ w ≠ 0x00100073)) →
    ∀ i : Instr, i.row.covers w = false)

/-- Rule R98: the words of the C space and of the M space, and no others, are refused, each by its name,
and the machine stops there. -/
def Obligations.RefusedSpaces : Prop :=
  (∀ w : Word, (decode w = .error .compressed ↔ w.extractLsb' 0 2 ≠ 0b11#2) ∧
    (decode w = .error .mulDiv ↔
      w.extractLsb' 0 7 = 0b0110011#7 ∧ w.extractLsb' 25 7 = 0b0000001#7)) ∧
  (∀ (s : State) (w : Word), s.Running → aligned s.pc = true → s.fetch s.pc = some w →
    (step s = .refused .compressedSpace ↔ w.extractLsb' 0 2 ≠ 0b11#2) ∧
    (step s = .refused .multiplySpace ↔
      w.extractLsb' 0 7 = 0b0110011#7 ∧ w.extractLsb' 25 7 = 0b0000001#7))

/-- The reserved fields of FENCE and FENCE.I are ignored by the decoder and written as zero by the
encoder (rule R99 (a)). -/
def Obligations.ReservedFenceFieldsIgnored : Prop :=
  (∀ w v : Word, w &&& 0x0000707F = 0x0000000F → w &&& 0x0FF0707F = v &&& 0x0FF0707F →
    decode w = decode v) ∧
  (∀ w : Word, w &&& 0x0000707F = 0x0000100F → decode w = .ok .fenceI) ∧
  (∀ pred succ : Classes, encode (.fence pred succ) &&& 0xF00F8F80 = 0) ∧
  encode .fenceI &&& 0xFFFF8F80 = 0

/-- Words of the spec's own examples, one or more of every family, decode to the instructions they stand
for. -/
def Obligations.SampleWordsDecode : Prop :=
  decode 0xFFF30293 = .ok (.addi 5 6 (-1)) ∧
  decode 0x123452B7 = .ok (.lui 5 0x12345) ∧
  decode 0x407302B3 = .ok (.sub 5 6 7) ∧
  decode 0x40435293 = .ok (.srai 5 6 4) ∧
  decode 0xFFDFF06F = .ok (.jal 0 (-4)) ∧
  decode 0xFFD300E7 = .ok (.jalr 1 6 (-3)) ∧
  decode 0xFE731CE3 = .ok (.bne 6 7 (-8)) ∧
  decode 0x00231283 = .ok (.lh 5 6 2) ∧
  decode 0xFE731F23 = .ok (.sh 7 6 (-2)) ∧
  decode 0x0120000F = .ok (.fence ⟨false, false, false, true⟩ ⟨false, false, true, false⟩) ∧
  decode 0xFFFF9F8F = .ok .fenceI ∧
  decode 0xC010E2F3 = .ok (.csrrsi 5 0xC01 1) ∧
  decode 0x00100073 = .ok .ebreak ∧
  decode 0x000000F3 = .error .illegal

/-- Rules R88 to R92: for every word that decodes to an instruction with an immediate, the bits of the
32-bit immediate are the bits of the word that the rule names, and its range is the rule's. -/
def Obligations.ImmediateBits : Prop :=
  ∀ (w : Word) (rd rs1 rs2 : Reg),
    (∀ imm : BitVec 12,
      decode w ∈ ([.ok (.addi rd rs1 imm), .ok (.slti rd rs1 imm), .ok (.sltiu rd rs1 imm),
        .ok (.andi rd rs1 imm), .ok (.ori rd rs1 imm), .ok (.xori rd rs1 imm),
        .ok (.jalr rd rs1 imm), .ok (.lb rd rs1 imm), .ok (.lh rd rs1 imm), .ok (.lw rd rs1 imm),
        .ok (.lbu rd rs1 imm), .ok (.lhu rd rs1 imm)] : List (Except Reject Instr)) →
      let v := imm12 imm
      (∀ k, 11 ≤ k → k < 32 → v.getLsbD k = w.getLsbD 31) ∧
        v.extractLsb' 5 6 = w.extractLsb' 25 6 ∧ v.extractLsb' 1 4 = w.extractLsb' 21 4 ∧
        v.getLsbD 0 = w.getLsbD 20 ∧ v = (w.extractLsb' 20 12).signExtend 32 ∧
        -2048 ≤ v.toInt ∧ v.toInt ≤ 2047) ∧
    (∀ imm : BitVec 12,
      decode w ∈ ([.ok (.sb rs2 rs1 imm), .ok (.sh rs2 rs1 imm), .ok (.sw rs2 rs1 imm)] :
        List (Except Reject Instr)) →
      let v := imm12 imm
      (∀ k, 11 ≤ k → k < 32 → v.getLsbD k = w.getLsbD 31) ∧
        v.extractLsb' 5 6 = w.extractLsb' 25 6 ∧ v.extractLsb' 1 4 = w.extractLsb' 8 4 ∧
        v.getLsbD 0 = w.getLsbD 7 ∧ v = (storeOffset w).signExtend 32 ∧
        -2048 ≤ v.toInt ∧ v.toInt ≤ 2047) ∧
    (∀ off : BitVec 13,
      decode w ∈ ([.ok (.beq rs1 rs2 off), .ok (.bne rs1 rs2 off), .ok (.blt rs1 rs2 off),
        .ok (.bge rs1 rs2 off), .ok (.bltu rs1 rs2 off), .ok (.bgeu rs1 rs2 off)] :
        List (Except Reject Instr)) →
      let v := immB off
      (∀ k, 12 ≤ k → k < 32 → v.getLsbD k = w.getLsbD 31) ∧ v.getLsbD 11 = w.getLsbD 7 ∧
        v.extractLsb' 5 6 = w.extractLsb' 25 6 ∧ v.extractLsb' 1 4 = w.extractLsb' 8 4 ∧
        v.getLsbD 0 = false ∧ v = (branchOffset w).signExtend 32 ∧
        -4096 ≤ v.toInt ∧ v.toInt ≤ 4094) ∧
    (∀ imm20 : BitVec 20,
      decode w ∈ ([.ok (.lui rd imm20), .ok (.auipc rd imm20)] : List (Except Reject Instr)) →
      let v := immU imm20
      v.extractLsb' 12 20 = w.extractLsb' 12 20 ∧ v.extractLsb' 0 12 = 0 ∧
        v = w.extractLsb' 12 20 ++ 0#12) ∧
    (∀ off : BitVec 21, decode w = .ok (.jal rd off) →
      let v := immJ off
      (∀ k, 20 ≤ k → k < 32 → v.getLsbD k = w.getLsbD 31) ∧
        v.extractLsb' 12 8 = w.extractLsb' 12 8 ∧ v.getLsbD 11 = w.getLsbD 20 ∧
        v.extractLsb' 5 6 = w.extractLsb' 25 6 ∧ v.extractLsb' 1 4 = w.extractLsb' 21 4 ∧
        v.getLsbD 0 = false ∧ v = (jumpOffset w).signExtend 32 ∧
        -1048576 ≤ v.toInt ∧ v.toInt ≤ 1048574)

/-! ### The step -/

/-- A step of a running hart is the instruction it fetches and decodes; `exec` does the rest, the
advance of the pc and of the counters included (rule R12). -/
def Obligations.StepRunsDecodedInstruction : Prop :=
  ∀ (s : State) (w : Word) (i : Instr), s.Running → aligned s.pc = true → s.fetch s.pc = some w →
    decode w = .ok i → step s = exec i s

/-- A running hart whose pc is a multiple of 4 runs the instruction whose bytes stand at the pc in
memory that it may fetch from and has not overwritten since the last FENCE.I (rules R12, R53, R68,
R105). -/
def Obligations.StepRunsTheBytesAtPc : Prop :=
  ∀ (s : State) (i : Instr), s.Running → s.pc.toNat % 4 = 0 → i.wellFormed = true →
    AllAccessible s .fetch s.pc 4 →
    (∀ j < 4, let a := s.pc + BitVec.ofNat 32 j
      s.isIo a = false ∧ s.stale.values a.toNat = [] ∧ (encodeBytes i)[j]? = some (s.byteAt a)) →
    step s = exec i s

/-- `State.withFetchWord` loads one instruction: the next step runs it, and only the four bytes at the
pc, the trap record and the low bits of the pc have been touched. The model's own operation
(log 25). -/
def Obligations.PlacedInstructionRuns : Prop :=
  ∀ (s : State) (i : Instr), Memory.wf s.mem → i.wellFormed = true →
    let t := s.withFetchWord 32 (encode i).toNat
    step t = exec i t ∧ t.regs = s.regs ∧ t.pc = (s.pc &&& 0xFFFFFFFC) ∧ t.trap = none ∧
      t.cycle64 = s.cycle64 ∧ t.time64 = s.time64 ∧ t.instret64 = s.instret64 ∧ t.draws = s.draws ∧
      ∀ a : Word, 4 ≤ (a - t.pc).toNat → t.byteAt a = s.byteAt a ∧
        t.stale.values a.toNat = s.stale.values a.toNat ∧ t.isIo a = s.isIo a ∧
        ∀ k, t.accessible k a = s.accessible k a

/-- Rule R53: a fetch that may not touch one of its four bytes raises InstructionAccessFault at the
step; any other fetch answers the little-endian word of four fetched bytes. -/
def Obligations.FetchOperation : Prop :=
  ∀ s : State,
    (s.Running → aligned s.pc = true → ¬ AllAccessible s .fetch s.pc 4 →
      ∃ t, step s = .next t ∧ Trapped s t .instructionAccessFault (some s.pc)) ∧
    (∀ a : Word, ¬ AllAccessible s .fetch a 4 → s.fetch a = none) ∧
    (∀ a : Word, AllAccessible s .fetch a 4 → ∃ w, s.fetch a = some w ∧ ∀ j < 4,
      w.extractLsb' (8 * j) 8 = s.fetchByte (a + BitVec.ofNat 32 j))

/-- Rule R68: a fetched byte is what a load would see or a stale value; stale is empty at launch, gains
the old value of every byte a store changes, and is emptied by FENCE.I. -/
def Obligations.StaleBytes : Prop :=
  State.reset.stale = [] ∧
  (∀ (s : State) (a : Word), s.fetchByte a ∈ s.observe .fetch a :: s.stale.values a.toNat) ∧
  (∀ (s : State) (a : Word) (k : AccessKind), s.isIo a = false → s.observe k a = s.byteAt a) ∧
  (∀ (i : Instr) (s t : State), Memory.wf s.mem → exec i s = .next t →
    if i = .fenceI then t.stale = [] else StaleGrew s t)

/-- A running hart never faults: it goes on, takes an exception, or stops at a word of a refused space
(rules R16, R98, R240). -/
def Obligations.RunningHartNeverFaults : Prop :=
  ∀ s : State, s.Inv → s.Running →
    (∃ t, step s = .next t) ∨
    (∃ w, s.fetch s.pc = some w ∧
      ((decode w = .error .compressed ∧ step s = .refused .compressedSpace) ∨
        (decode w = .error .mulDiv ∧ step s = .refused .multiplySpace)))

/-! ### Invariants -/

/-- Every step keeps the invariant: canonical memory and fetch view, the pc a multiple of 4, a trap record
that names hart 0 and the unchanged pc (rules R26, R242). -/
def Obligations.StepKeepsInv : Prop :=
  ∀ s t : State, s.Inv → step s = .next t → t.Inv

/-- The launch state meets the invariant, its hart runs, x0 reads 0 and the fetch view is empty (rules
R41, R270). The values that these rules leave open are the model's (log 1 to log 5) and are not
stated. -/
def Obligations.ResetMeetsInv : Prop :=
  State.reset.Inv ∧ State.reset.Running ∧ State.reset.reg 0 = 0 ∧ State.reset.stale = []

/-- ACCESSIBLE and IO_REGION are fixed for the whole run (rule R61). -/
def Obligations.StepKeepsTheMap : Prop :=
  ∀ s t : State, step s = .next t → t.map = s.map

/-! ### All instructions -/

/-- Every instruction in every state answers a next state: it retires, or it takes the one exception its
rule names (rules R12, R32, R234). -/
def Obligations.EveryInstructionRetiresOrTraps : Prop :=
  ∀ (i : Instr) (s : State), ∃ t, exec i s = .next t ∧
    ((t.trap = s.trap ∧ t.instret64 = s.instret64 + 1 ∧ TimePassed s t) ∨
      ∃ e info, Trapped s t e info ∧ possibleException i = some e)

/-- When the step of a running hart ends in a trap, nothing but the record and the clocks has changed
(rule R241), and the record names hart 0 and the instruction's own pc (rule R242). That the clocks still
advance is the model's choice (log 19). -/
def Obligations.TrapsArePrecise : Prop :=
  ∀ (s t : State) (r : TrapRecord), s.Running → step s = .next t → t.trap = some r →
    r.thread = 0 ∧ r.epc = s.pc ∧ Trapped s t r.exception r.info

/-- Rule R25: where the pc goes after every instruction, and that a trap leaves it. -/
def Obligations.PcAdvance : Prop :=
  ∀ (i : Instr) (s t : State), s.Running → exec i s = .next t →
    (t.trap = none → t.pc = (transferTarget i s).getD (s.pc + 4)) ∧ (t.trap ≠ none → t.pc = s.pc)

/-- Rule R158: a jump or a taken branch to a target that is no multiple of 4 raises, the target recorded
and nothing written; nothing else raises so; and from an aligned pc the target's bit 0 is 0. -/
def Obligations.MisalignedTargetsRaise : Prop :=
  ∀ (i : Instr) (s : State),
    (∀ u, transferTarget i s = some u → Misaligned u →
      Traps i s .instructionAddressMisaligned (some u)) ∧
    (∀ t r, s.Running → exec i s = .next t → t.trap = some r →
      r.exception = .instructionAddressMisaligned →
      ∃ u, transferTarget i s = some u ∧ Misaligned u ∧ r.info = some u) ∧
    (∀ u, i.wellFormed = true → aligned s.pc = true → transferTarget i s = some u →
      u.getLsbD 0 = false)

/-- A register that reads otherwise after an instruction is the one its rd field names, and not x0
(rules R21 to R23). -/
def Obligations.OnlyTheDestinationChanges : Prop :=
  ∀ (i : Instr) (s t : State), exec i s = .next t → ∀ r : Reg, t.reg r ≠ s.reg r →
    r ≠ 0 ∧ destinationOf i = some r

/-- A byte of memory that reads otherwise after an instruction lies in the range the store stores to and
is accessible for writing (rules R36, R52, R178). That it belongs to no device is the model's choice: a
device output changes no memory byte (log 8). -/
def Obligations.OnlyStoresChangeMemory : Prop :=
  ∀ (i : Instr) (s t : State), Memory.wf s.mem → exec i s = .next t → ∀ a : Word,
    t.byteAt a ≠ s.byteAt a →
    ∃ ea n, storeRange i s = some (ea, n) ∧ (a - ea).toNat < n ∧ s.isIo a = false ∧
      s.accessible .write a = true

/-- What an instruction other than a CSR instruction does depends on neither clock (rules R30, R285). -/
def Obligations.ResultsIgnoreTheClocks : Prop :=
  ∀ (i : Instr) (s : State) (c d : DWord), accessesCsr i = false → ∃ t, exec i s = .next t ∧
    exec i { s with cycle64 := c, time64 := d } =
      .next { t with
        cycle64 := c + Config.cycleAdvance s.draws
        time64 := d + Config.timeAdvance s.draws }

/-- ECALL, and no other instruction, ends a run normally; every other exception is a fault end (rule
R244). -/
def Obligations.OnlyEcallEndsNormally : Prop :=
  ∀ (i : Instr) (s t : State), s.Running → exec i s = .next t →
    (t.normalEnd = true ↔ i = .ecall) ∧ (t.faultEnd = true ↔ t.trap ≠ none ∧ i ≠ .ecall)

/-! ### Integer computational instructions -/

/-- ADDI, ANDI, ORI, XORI (rules R120, R123, R124, R125). -/
def Obligations.ImmediateArithmetic : Prop :=
  RowIs 0x0000707F 0x00000013
    (fun w => .addi (w.extractLsb' 7 5) (w.extractLsb' 15 5) (w.extractLsb' 20 12)) ∧
  RowIs 0x0000707F 0x00007013
    (fun w => .andi (w.extractLsb' 7 5) (w.extractLsb' 15 5) (w.extractLsb' 20 12)) ∧
  RowIs 0x0000707F 0x00006013
    (fun w => .ori (w.extractLsb' 7 5) (w.extractLsb' 15 5) (w.extractLsb' 20 12)) ∧
  RowIs 0x0000707F 0x00004013
    (fun w => .xori (w.extractLsb' 7 5) (w.extractLsb' 15 5) (w.extractLsb' 20 12)) ∧
  ∀ (s : State) (rd rs1 : Reg) (imm : BitVec 12),
    Completes (.addi rd rs1 imm) s (fun t =>
      WroteOnly s t rd (s.reg rs1 + imm.signExtend 32) (s.pc + 4)) ∧
    Completes (.andi rd rs1 imm) s (fun t =>
      WroteOnly s t rd (s.reg rs1 &&& imm.signExtend 32) (s.pc + 4)) ∧
    Completes (.ori rd rs1 imm) s (fun t =>
      WroteOnly s t rd (s.reg rs1 ||| imm.signExtend 32) (s.pc + 4)) ∧
    Completes (.xori rd rs1 imm) s (fun t =>
      WroteOnly s t rd (s.reg rs1 ^^^ imm.signExtend 32) (s.pc + 4))

/-- SLTI and SLTIU: 1 or 0, the sign-extended immediate compared as signed and as unsigned (rules R121,
R122). -/
def Obligations.ImmediateComparisons : Prop :=
  RowIs 0x0000707F 0x00002013
    (fun w => .slti (w.extractLsb' 7 5) (w.extractLsb' 15 5) (w.extractLsb' 20 12)) ∧
  RowIs 0x0000707F 0x00003013
    (fun w => .sltiu (w.extractLsb' 7 5) (w.extractLsb' 15 5) (w.extractLsb' 20 12)) ∧
  ∀ (s : State) (rd rs1 : Reg) (imm : BitVec 12),
    Completes (.slti rd rs1 imm) s (fun t => WroteOnly s t rd
      (if (s.reg rs1).toInt < (imm.signExtend 32).toInt then 1 else 0) (s.pc + 4)) ∧
    Completes (.sltiu rd rs1 imm) s (fun t => WroteOnly s t rd
      (if (s.reg rs1).toNat < (imm.signExtend 32).toNat then 1 else 0) (s.pc + 4))

/-- SLLI, SRLI, SRAI as arithmetic: a product, a quotient of the unsigned value, and a quotient of the
signed value rounded toward minus infinity (rules R126, R127, R128). -/
def Obligations.ImmediateShifts : Prop :=
  RowIs 0xFE00707F 0x00001013
    (fun w => .slli (w.extractLsb' 7 5) (w.extractLsb' 15 5) (w.extractLsb' 20 5)) ∧
  RowIs 0xFE00707F 0x00005013
    (fun w => .srli (w.extractLsb' 7 5) (w.extractLsb' 15 5) (w.extractLsb' 20 5)) ∧
  RowIs 0xFE00707F 0x40005013
    (fun w => .srai (w.extractLsb' 7 5) (w.extractLsb' 15 5) (w.extractLsb' 20 5)) ∧
  ∀ (s : State) (rd rs1 : Reg) (shamt : BitVec 5),
    Completes (.slli rd rs1 shamt) s (fun t => WroteOnly s t rd
      (BitVec.ofNat 32 ((s.reg rs1).toNat * 2 ^ shamt.toNat)) (s.pc + 4)) ∧
    Completes (.srli rd rs1 shamt) s (fun t => WroteOnly s t rd
      (BitVec.ofNat 32 ((s.reg rs1).toNat / 2 ^ shamt.toNat)) (s.pc + 4)) ∧
    Completes (.srai rd rs1 shamt) s (fun t => WroteOnly s t rd
      (BitVec.ofInt 32 (Int.fdiv (s.reg rs1).toInt (2 ^ shamt.toNat))) (s.pc + 4))

/-- LUI and AUIPC: the field over twelve zeros, alone and added to the pc of the instruction (rules R129,
R130). -/
def Obligations.UpperImmediates : Prop :=
  RowIs 0x0000007F 0x00000037 (fun w => .lui (w.extractLsb' 7 5) (w.extractLsb' 12 20)) ∧
  RowIs 0x0000007F 0x00000017 (fun w => .auipc (w.extractLsb' 7 5) (w.extractLsb' 12 20)) ∧
  ∀ (s : State) (rd : Reg) (imm20 : BitVec 20),
    Completes (.lui rd imm20) s (fun t => WroteOnly s t rd (imm20 ++ 0#12) (s.pc + 4)) ∧
    Completes (.auipc rd imm20) s (fun t =>
      WroteOnly s t rd (s.pc + (imm20 ++ 0#12)) (s.pc + 4))

/-- ADD, SUB, AND, OR, XOR (rules R131, R132, R135, R136, R137). -/
def Obligations.RegisterArithmetic : Prop :=
  RowIs 0xFE00707F 0x00000033
    (fun w => .add (w.extractLsb' 7 5) (w.extractLsb' 15 5) (w.extractLsb' 20 5)) ∧
  RowIs 0xFE00707F 0x40000033
    (fun w => .sub (w.extractLsb' 7 5) (w.extractLsb' 15 5) (w.extractLsb' 20 5)) ∧
  RowIs 0xFE00707F 0x00007033
    (fun w => .and (w.extractLsb' 7 5) (w.extractLsb' 15 5) (w.extractLsb' 20 5)) ∧
  RowIs 0xFE00707F 0x00006033
    (fun w => .or (w.extractLsb' 7 5) (w.extractLsb' 15 5) (w.extractLsb' 20 5)) ∧
  RowIs 0xFE00707F 0x00004033
    (fun w => .xor (w.extractLsb' 7 5) (w.extractLsb' 15 5) (w.extractLsb' 20 5)) ∧
  ∀ (s : State) (rd rs1 rs2 : Reg),
    Completes (.add rd rs1 rs2) s (fun t =>
      WroteOnly s t rd (s.reg rs1 + s.reg rs2) (s.pc + 4)) ∧
    Completes (.sub rd rs1 rs2) s (fun t =>
      WroteOnly s t rd (s.reg rs1 - s.reg rs2) (s.pc + 4)) ∧
    Completes (.and rd rs1 rs2) s (fun t =>
      WroteOnly s t rd (s.reg rs1 &&& s.reg rs2) (s.pc + 4)) ∧
    Completes (.or rd rs1 rs2) s (fun t =>
      WroteOnly s t rd (s.reg rs1 ||| s.reg rs2) (s.pc + 4)) ∧
    Completes (.xor rd rs1 rs2) s (fun t =>
      WroteOnly s t rd (s.reg rs1 ^^^ s.reg rs2) (s.pc + 4))

/-- SLT and SLTU: 1 or 0, signed and unsigned (rules R133, R134). -/
def Obligations.RegisterComparisons : Prop :=
  RowIs 0xFE00707F 0x00002033
    (fun w => .slt (w.extractLsb' 7 5) (w.extractLsb' 15 5) (w.extractLsb' 20 5)) ∧
  RowIs 0xFE00707F 0x00003033
    (fun w => .sltu (w.extractLsb' 7 5) (w.extractLsb' 15 5) (w.extractLsb' 20 5)) ∧
  ∀ (s : State) (rd rs1 rs2 : Reg),
    Completes (.slt rd rs1 rs2) s (fun t => WroteOnly s t rd
      (if (s.reg rs1).toInt < (s.reg rs2).toInt then 1 else 0) (s.pc + 4)) ∧
    Completes (.sltu rd rs1 rs2) s (fun t => WroteOnly s t rd
      (if (s.reg rs1).toNat < (s.reg rs2).toNat then 1 else 0) (s.pc + 4))

/-- SLL, SRL, SRA as arithmetic, the amount taken modulo 32 (rules R138, R139, R140). -/
def Obligations.RegisterShifts : Prop :=
  RowIs 0xFE00707F 0x00001033
    (fun w => .sll (w.extractLsb' 7 5) (w.extractLsb' 15 5) (w.extractLsb' 20 5)) ∧
  RowIs 0xFE00707F 0x00005033
    (fun w => .srl (w.extractLsb' 7 5) (w.extractLsb' 15 5) (w.extractLsb' 20 5)) ∧
  RowIs 0xFE00707F 0x40005033
    (fun w => .sra (w.extractLsb' 7 5) (w.extractLsb' 15 5) (w.extractLsb' 20 5)) ∧
  ∀ (s : State) (rd rs1 rs2 : Reg), let n := (s.reg rs2).toNat % 32
    Completes (.sll rd rs1 rs2) s (fun t => WroteOnly s t rd
      (BitVec.ofNat 32 ((s.reg rs1).toNat * 2 ^ n)) (s.pc + 4)) ∧
    Completes (.srl rd rs1 rs2) s (fun t => WroteOnly s t rd
      (BitVec.ofNat 32 ((s.reg rs1).toNat / 2 ^ n)) (s.pc + 4)) ∧
    Completes (.sra rd rs1 rs2) s (fun t => WroteOnly s t rd
      (BitVec.ofInt 32 (Int.fdiv (s.reg rs1).toInt (2 ^ n))) (s.pc + 4))

/-- NOP is the word 0x00000013 of ADDI, and it changes nothing but the pc and the counters (rule
R141). -/
def Obligations.NopOnlyMovesOn : Prop :=
  encode Pseudo.nop = 0x00000013 ∧ decode 0x00000013 = .ok Pseudo.nop ∧
  ∀ s : State, Completes Pseudo.nop s fun t => MovedOnly s t (s.pc + 4)

/-- What the source says MV, SEQZ, NOT and SNEZ do (rules R103, R122, R125, R134). -/
def Obligations.PseudoInstructionResults : Prop :=
  ∀ (s : State) (rd rs : Reg),
    Completes (Pseudo.mv rd rs) s (fun t => WroteOnly s t rd (s.reg rs) (s.pc + 4)) ∧
    Completes (Pseudo.seqz rd rs) s (fun t =>
      WroteOnly s t rd (if s.reg rs = 0 then 1 else 0) (s.pc + 4)) ∧
    Completes (Pseudo.not rd rs) s (fun t => WroteOnly s t rd (~~~s.reg rs) (s.pc + 4)) ∧
    Completes (Pseudo.snez rd rs) s (fun t =>
      WroteOnly s t rd (if s.reg rs = 0 then 0 else 1) (s.pc + 4))

/-! ### Control transfer -/

/-- JAL (rule R150). -/
def Obligations.JalJumpsAndLinks : Prop :=
  RowIs 0x0000007F 0x0000006F (fun w => .jal (w.extractLsb' 7 5) (jumpOffset w)) ∧
  ∀ (s : State) (rd : Reg) (off : BitVec 21), let t := s.pc + off.signExtend 32
    (¬ Misaligned t → Completes (.jal rd off) s fun u => WroteOnly s u rd (s.pc + 4) t) ∧
    (Misaligned t → Traps (.jal rd off) s .instructionAddressMisaligned (some t)) ∧
    (aligned s.pc = true → off.getLsbD 0 = false → (Misaligned t ↔ off.getLsbD 1 = true))

/-- JALR: bit 0 of the sum is cleared, bit 1 decides whether it raises, and the target is computed from
the old value of rs1 (rule R151). -/
def Obligations.JalrJumpsAndLinks : Prop :=
  RowIs 0x0000707F 0x00000067
    (fun w => .jalr (w.extractLsb' 7 5) (w.extractLsb' 15 5) (w.extractLsb' 20 12)) ∧
  ∀ (s : State) (rd rs1 : Reg) (off : BitVec 12),
    let sum := s.reg rs1 + off.signExtend 32
    let t := sum &&& 0xFFFFFFFE
    (sum.getLsbD 1 = false → Completes (.jalr rd rs1 off) s fun u => WroteOnly s u rd (s.pc + 4) t) ∧
    (sum.getLsbD 1 = true → Traps (.jalr rd rs1 off) s .instructionAddressMisaligned (some t)) ∧
    (Misaligned t ↔ sum.getLsbD 1 = true)

/-- The six conditional branches (rules R152 to R157). -/
def Obligations.ConditionalBranches : Prop :=
  RowIs 0x0000707F 0x00000063
    (fun w => .beq (w.extractLsb' 15 5) (w.extractLsb' 20 5) (branchOffset w)) ∧
  RowIs 0x0000707F 0x00001063
    (fun w => .bne (w.extractLsb' 15 5) (w.extractLsb' 20 5) (branchOffset w)) ∧
  RowIs 0x0000707F 0x00004063
    (fun w => .blt (w.extractLsb' 15 5) (w.extractLsb' 20 5) (branchOffset w)) ∧
  RowIs 0x0000707F 0x00006063
    (fun w => .bltu (w.extractLsb' 15 5) (w.extractLsb' 20 5) (branchOffset w)) ∧
  RowIs 0x0000707F 0x00005063
    (fun w => .bge (w.extractLsb' 15 5) (w.extractLsb' 20 5) (branchOffset w)) ∧
  RowIs 0x0000707F 0x00007063
    (fun w => .bgeu (w.extractLsb' 15 5) (w.extractLsb' 20 5) (branchOffset w)) ∧
  ∀ (s : State) (rs1 rs2 : Reg) (off : BitVec 13), let t := s.pc + off.signExtend 32
    Branches (.beq rs1 rs2 off) s (s.reg rs1 = s.reg rs2) t ∧
    Branches (.bne rs1 rs2 off) s (s.reg rs1 ≠ s.reg rs2) t ∧
    Branches (.blt rs1 rs2 off) s ((s.reg rs1).toInt < (s.reg rs2).toInt) t ∧
    Branches (.bltu rs1 rs2 off) s ((s.reg rs1).toNat < (s.reg rs2).toNat) t ∧
    Branches (.bge rs1 rs2 off) s ((s.reg rs2).toInt ≤ (s.reg rs1).toInt) t ∧
    Branches (.bgeu rs1 rs2 off) s ((s.reg rs2).toNat ≤ (s.reg rs1).toNat) t

/-! ### Loads, stores and memory -/

/-- The five loads at any effective address, sign- or zero-extended, and their trap (rules R170 to
R174). -/
def Obligations.LoadsReadAndExtend : Prop :=
  RowIs 0x0000707F 0x00000003
    (fun w => .lb (w.extractLsb' 7 5) (w.extractLsb' 15 5) (w.extractLsb' 20 12)) ∧
  RowIs 0x0000707F 0x00001003
    (fun w => .lh (w.extractLsb' 7 5) (w.extractLsb' 15 5) (w.extractLsb' 20 12)) ∧
  RowIs 0x0000707F 0x00002003
    (fun w => .lw (w.extractLsb' 7 5) (w.extractLsb' 15 5) (w.extractLsb' 20 12)) ∧
  RowIs 0x0000707F 0x00004003
    (fun w => .lbu (w.extractLsb' 7 5) (w.extractLsb' 15 5) (w.extractLsb' 20 12)) ∧
  RowIs 0x0000707F 0x00005003
    (fun w => .lhu (w.extractLsb' 7 5) (w.extractLsb' 15 5) (w.extractLsb' 20 12)) ∧
  ∀ (s : State) (rd rs1 : Reg) (off : BitVec 12), let ea := s.reg rs1 + off.signExtend 32
    Loads (.lb rd rs1 off) s rd ea 1 ((BitVec.ofNat 8 (observedNat s ea 1)).signExtend 32) ∧
    Loads (.lh rd rs1 off) s rd ea 2 ((BitVec.ofNat 16 (observedNat s ea 2)).signExtend 32) ∧
    Loads (.lw rd rs1 off) s rd ea 4 (BitVec.ofNat 32 (observedNat s ea 4)) ∧
    Loads (.lbu rd rs1 off) s rd ea 1 (BitVec.ofNat 32 (observedNat s ea 1)) ∧
    Loads (.lhu rd rs1 off) s rd ea 2 (BitVec.ofNat 32 (observedNat s ea 2))

/-- The three stores at any effective address, and their trap (rules R52, R175 to R177). A byte of
IO_REGION is exempt in `StoredAt`: memory there stays as it was, which is the model's choice (log 8). -/
def Obligations.StoresWriteLowBytes : Prop :=
  RowIs 0x0000707F 0x00000023
    (fun w => .sb (w.extractLsb' 20 5) (w.extractLsb' 15 5) (storeOffset w)) ∧
  RowIs 0x0000707F 0x00001023
    (fun w => .sh (w.extractLsb' 20 5) (w.extractLsb' 15 5) (storeOffset w)) ∧
  RowIs 0x0000707F 0x00002023
    (fun w => .sw (w.extractLsb' 20 5) (w.extractLsb' 15 5) (storeOffset w)) ∧
  ∀ (s : State) (rs1 rs2 : Reg) (off : BitVec 12),
    s.effAddr rs1 off = s.reg rs1 + off.signExtend 32 ∧
    (Memory.wf s.mem →
      Stores (.sb rs2 rs1 off) s (s.effAddr rs1 off) 1 (s.reg rs2) ∧
      Stores (.sh rs2 rs1 off) s (s.effAddr rs1 off) 2 (s.reg rs2) ∧
      Stores (.sw rs2 rs1 off) s (s.effAddr rs1 off) 4 (s.reg rs2))

/-- Rule R54: after a four-byte write, reads of every width and alignment inside it see its bytes. -/
def Obligations.MixedWidthAccesses : Prop :=
  ∀ (s t : State) (A : Word), Memory.wf s.mem → AllAccessible s .read A 4 →
    (∀ j < 4, s.isIo (A + BitVec.ofNat 32 j) = false) →
    s.memWrite A 4 0x11223344 = some t →
    t.memRead8 A = some 0x44 ∧ t.memRead8 (A + 1) = some 0x33 ∧ t.memRead8 (A + 2) = some 0x22 ∧
      t.memRead8 (A + 3) = some 0x11 ∧ t.memRead16 A = some 0x3344 ∧
      t.memRead16 (A + 2) = some 0x1122 ∧ t.memRead16 (A + 1) = some 0x2233

/-- A load sees the store before it: SW then LW, SH then LHU, SB then LBU at one address of ordinary
memory (rules R64, R282). -/
def Obligations.LoadSeesEarlierStore : Prop :=
  ∀ (s t : State) (rs2 rs1 rd base : Reg) (off disp : BitVec 12), Memory.wf s.mem → s.Running →
    t.Running → t.effAddr base disp = s.effAddr rs1 off →
    (∀ j < 4, s.isIo (s.effAddr rs1 off + BitVec.ofNat 32 j) = false) →
    AllAccessible s .read (s.effAddr rs1 off) 4 →
    (exec (.sw rs2 rs1 off) s = .next t → Completes (.lw rd base disp) t fun u =>
      WroteOnly t u rd (s.reg rs2) (t.pc + 4)) ∧
    (exec (.sh rs2 rs1 off) s = .next t → Completes (.lhu rd base disp) t fun u =>
      WroteOnly t u rd (BitVec.ofNat 32 ((s.reg rs2).toNat % 2 ^ 16)) (t.pc + 4)) ∧
    (exec (.sb rs2 rs1 off) s = .next t → Completes (.lbu rd base disp) t fun u =>
      WroteOnly t u rd (BitVec.ofNat 32 ((s.reg rs2).toNat % 2 ^ 8)) (t.pc + 4))

/-- Memories in canonical form that read alike are equal data. The model's own form of rule R36
(log 4). -/
def Obligations.CanonicalMemoriesAgree : Prop :=
  ∀ m n : Memory, Memory.wf m → Memory.wf n → (∀ a < 2 ^ 32, m.read a = n.read a) → m = n

/-! ### Fences -/

/-- FENCE: its operands, and that on the hart's own state it only moves on (rules R94, R190). -/
def Obligations.FenceOnlyMovesOn : Prop :=
  RowIs 0x0000707F 0x0000000F (fun w => .fence
    ⟨w.getLsbD 27, w.getLsbD 26, w.getLsbD 25, w.getLsbD 24⟩
    ⟨w.getLsbD 23, w.getLsbD 22, w.getLsbD 21, w.getLsbD 20⟩) ∧
  ∀ (s : State) (pred succ : Classes),
    Completes (.fence pred succ) s fun t => MovedOnly s t (s.pc + 4)

/-- FENCE.I empties the fetch view, so that every fetch that follows sees what a load sees (rule
R191). -/
def Obligations.FenceISynchronises : Prop :=
  RowIs 0x0000707F 0x0000100F (fun _ => .fenceI) ∧
  ∀ s : State, Completes .fenceI s fun t =>
    SameRegs s t ∧ SameMemory s t ∧ t.stale = [] ∧ Retired s t (s.pc + 4) ∧
      ∀ a : Word, t.fetchByte a = t.observe .fetch a

/-! ### CSR instructions and counters -/

/-- The CSR instructions that do not write read each of the six CSRs into rd (rules R201, R202, R204,
R205, R208). -/
def Obligations.CsrReads : Prop :=
  ∀ (s : State) (rd : Reg) (csr : CsrAddr) (v : Word),
    (csr, v) ∈ ([(0xC00, s.cycle64.extractLsb' 0 32), (0xC01, s.time64.extractLsb' 0 32),
      (0xC02, s.instret64.extractLsb' 0 32), (0xC80, s.cycle64.extractLsb' 32 32),
      (0xC81, s.time64.extractLsb' 32 32), (0xC82, s.instret64.extractLsb' 32 32)] :
      List (CsrAddr × Word)) →
    Completes (.csrrs rd csr 0) s (fun t => WroteOnly s t rd v (s.pc + 4)) ∧
    Completes (.csrrc rd csr 0) s (fun t => WroteOnly s t rd v (s.pc + 4)) ∧
    Completes (.csrrsi rd csr 0) s (fun t => WroteOnly s t rd v (s.pc + 4)) ∧
    Completes (.csrrci rd csr 0) s (fun t => WroteOnly s t rd v (s.pc + 4))

/-- A CSR instruction that would write, CSRRW and CSRRWI always and the others unless their rs1 or zimm
field is 0, raises IllegalInstruction, whatever the value and the CSR (rules R200 to R205, R209). For
CSRRW and CSRRWI, which always write, that exception is the whole effect the spec gives them, in every
state (rule R214). That the info is the encoding of the instruction is the model's inference from rule
R230 (log 23); the clause on `decode` says that this encoding is the fetched word. -/
def Obligations.CsrWritesRaise : Prop :=
  RowIs 0x0000707F 0x00001073
    (fun w => .csrrw (w.extractLsb' 7 5) (w.extractLsb' 20 12) (w.extractLsb' 15 5)) ∧
  RowIs 0x0000707F 0x00002073
    (fun w => .csrrs (w.extractLsb' 7 5) (w.extractLsb' 20 12) (w.extractLsb' 15 5)) ∧
  RowIs 0x0000707F 0x00003073
    (fun w => .csrrc (w.extractLsb' 7 5) (w.extractLsb' 20 12) (w.extractLsb' 15 5)) ∧
  RowIs 0x0000707F 0x00005073
    (fun w => .csrrwi (w.extractLsb' 7 5) (w.extractLsb' 20 12) (w.extractLsb' 15 5)) ∧
  RowIs 0x0000707F 0x00006073
    (fun w => .csrrsi (w.extractLsb' 7 5) (w.extractLsb' 20 12) (w.extractLsb' 15 5)) ∧
  RowIs 0x0000707F 0x00007073
    (fun w => .csrrci (w.extractLsb' 7 5) (w.extractLsb' 20 12) (w.extractLsb' 15 5)) ∧
  (∀ (w : Word) (i : Instr), decode w = .ok i → accessesCsr i = true → encode i = w) ∧
  ∀ (s : State) (rd : Reg) (csr : CsrAddr) (f : BitVec 5),
    Traps (.csrrw rd csr f) s .illegalInstruction (some (encode (.csrrw rd csr f))) ∧
    Traps (.csrrwi rd csr f) s .illegalInstruction (some (encode (.csrrwi rd csr f))) ∧
    (f ≠ 0 →
      Traps (.csrrs rd csr f) s .illegalInstruction (some (encode (.csrrs rd csr f))) ∧
      Traps (.csrrc rd csr f) s .illegalInstruction (some (encode (.csrrc rd csr f))) ∧
      Traps (.csrrsi rd csr f) s .illegalInstruction (some (encode (.csrrsi rd csr f))) ∧
      Traps (.csrrci rd csr f) s .illegalInstruction (some (encode (.csrrci rd csr f))))

/-- Rule R34: every CSR address but the six is unimplemented, and every CSR instruction that names one
raises IllegalInstruction, whether it would read or write. That the info is the encoding of the
instruction is the model's inference from rule R230 (log 23). -/
def Obligations.UnimplementedCsrsRaise : Prop :=
  ∀ (s : State) (rd : Reg) (csr : CsrAddr) (f : BitVec 5),
    csr ∉ ([0xC00, 0xC01, 0xC02, 0xC80, 0xC81, 0xC82] : List CsrAddr) →
    csrRead csr s = none ∧ (∀ v, csrWrite csr v s = none) ∧
    ∀ i ∈ ([.csrrw rd csr f, .csrrs rd csr f, .csrrc rd csr f, .csrrwi rd csr f, .csrrsi rd csr f,
      .csrrci rd csr f] : List Instr), Traps i s .illegalInstruction (some (encode i))

/-- Rule R212: the six counter pseudo-instructions. -/
def Obligations.CounterReads : Prop :=
  ∀ (s : State) (rd : Reg),
    Completes (Pseudo.rdcycle rd) s (fun t =>
      WroteOnly s t rd (BitVec.ofNat 32 s.cycle64.toNat) (s.pc + 4)) ∧
    Completes (Pseudo.rdcycleh rd) s (fun t =>
      WroteOnly s t rd (BitVec.ofNat 32 (s.cycle64.toNat / 2 ^ 32)) (s.pc + 4)) ∧
    Completes (Pseudo.rdtime rd) s (fun t =>
      WroteOnly s t rd (BitVec.ofNat 32 s.time64.toNat) (s.pc + 4)) ∧
    Completes (Pseudo.rdtimeh rd) s (fun t =>
      WroteOnly s t rd (BitVec.ofNat 32 (s.time64.toNat / 2 ^ 32)) (s.pc + 4)) ∧
    Completes (Pseudo.rdinstret rd) s (fun t =>
      WroteOnly s t rd (BitVec.ofNat 32 s.instret64.toNat) (s.pc + 4)) ∧
    Completes (Pseudo.rdinstreth rd) s (fun t =>
      WroteOnly s t rd (BitVec.ofNat 32 (s.instret64.toNat / 2 ^ 32)) (s.pc + 4))

/-- Two RDINSTRET one after the other, no trap between them, read values that differ by exactly 1 modulo
2^32 (rule R32). -/
def Obligations.ConsecutiveInstretReads : Prop :=
  ∀ (s t u : State) (a b : Reg), a ≠ 0 → b ≠ 0 → exec (Pseudo.rdinstret a) s = .next t →
    exec (Pseudo.rdinstret b) t = .next u → u.reg b - t.reg a = 1

/-! ### Environment -/

/-- ECALL (rule R206): takes EnvironmentCall with no info. -/
def Obligations.EcallTakesEnvironmentCall : Prop :=
  RowIs 0xFFFFFFFF 0x00000073 (fun _ => .ecall) ∧
  ∀ s : State, Traps .ecall s .environmentCall none

/-- EBREAK (rule R207): takes Breakpoint with its own pc. -/
def Obligations.EbreakTakesBreakpoint : Prop :=
  RowIs 0xFFFFFFFF 0x00100073 (fun _ => .ebreak) ∧
  ∀ s : State, Traps .ebreak s .breakpoint (some s.pc)

/-- What a handed-over hart does (rule R243): the environment answers; `halt` is the end; `resume` gives
the hart the new state told: registers, pc, counters, fetch view, memory bytes. The model's choices: a
pc that is no multiple of 4, which rule R26 excludes, stops by name (log 10), real time still passes
(log 6) and the map stands (log 5). -/
def Obligations.EnvironmentAnswers : Prop :=
  (∀ (s : State) (r : TrapRecord), s.trap = some r →
    step s = s.answered (Config.eeiHandler r s)) ∧
  (∀ s : State, s.answered .halt = .fault .handedOver) ∧
  (∀ (s : State) (q : Resume), aligned q.pc = false →
    s.answered (.resume q) = .fault .misalignedPc) ∧
  (∀ (s : State) (q : Resume), Memory.wf s.mem → aligned q.pc = true →
    ∃ t, s.answered (.resume q) = .next t ∧ t.regs = q.regs ∧ t.pc = q.pc ∧
      t.cycle64 = q.cycle64 ∧ t.instret64 = q.instret64 ∧ t.trap = none ∧
      (∀ (a : Word) (v : Byte), v ∈ t.stale.values a.toNat ↔ (a, v) ∈ q.fetchView) ∧
      (∀ a : Word, t.byteAt a =
        ((q.stores.reverse.find? fun p => p.1 = a).map Prod.snd).getD (s.byteAt a)) ∧
      t.time64 = s.time64 + Config.timeAdvance s.draws ∧ t.map = s.map ∧ t.draws = s.draws + 1)

/-- The environment can give the hart any new state whose pc is a multiple of 4, the fetch view and the
whole of memory included: some answer leads there (rules R38, R243; the form of an answer is the
model's, log 10). -/
def Obligations.EnvironmentCanGiveAnyState : Prop :=
  ∀ s u : State, Memory.wf s.mem → Memory.wf u.mem → Stale.wf u.stale → aligned u.pc = true →
    ∃ (q : Resume) (t : State), s.answered (.resume q) = .next t ∧ t.regs = u.regs ∧ t.pc = u.pc ∧
      t.cycle64 = u.cycle64 ∧ t.instret64 = u.instret64 ∧ t.mem = u.mem ∧ t.stale = u.stale ∧
      t.trap = none

end
end

