-- ==== Sys2Proof/Laws/Encoding.lean ====
section
/-! SUPPORT. The encoding: bits of a placed field, the fields of each format read back, the row a format
lies in, and bytes against words. -/

namespace Sys2Proof

/-! ### Placed fields and bytes -/

/-- A bit of a placed field. -/
theorem getLsbD_place {k : Nat} (n lo : Nat) (v : BitVec k) (i : Nat) :
    (place n lo v).getLsbD i = (decide (i < n) && decide (lo ≤ i) && v.getLsbD (i - lo)) := by
  simp only [place, BitVec.getLsbD_shiftLeft, BitVec.getLsbD_setWidth]
  by_cases h : i < n
  · have h1 : i - lo < n := by omega
    by_cases h' : lo ≤ i
    · have : ¬ i < lo := by omega
      simp [h, h1, h', this]
    · have : i < lo := by omega
      simp [h, h1, h', this]
  · simp [h]

@[simp] theorem getElem_place {k : Nat} (n lo : Nat) (v : BitVec k) (i : Nat) (h : i < n) :
    (place n lo v)[i] = (decide (lo ≤ i) && v.getLsbD (i - lo)) := by
  rw [← BitVec.getLsbD_eq_getElem, getLsbD_place]; simp [h]

/-- A byte of a word put together from bytes. -/
theorem byteOf_leWord (b0 b1 b2 b3 : Byte) :
    byteOf (leWord b0 b1 b2 b3) 0 = b0 ∧ byteOf (leWord b0 b1 b2 b3) 1 = b1 ∧
      byteOf (leWord b0 b1 b2 b3) 2 = b2 ∧ byteOf (leWord b0 b1 b2 b3) 3 = b3 := by
  refine ⟨?_, ?_, ?_, ?_⟩ <;>
    (apply BitVec.eq_of_getLsbD_eq; intro i hi; interval_cases i <;> simp [byteOf, leWord])

/-- A word is put together from its bytes. -/
theorem leWord_byteOf (w : Word) :
    leWord (byteOf w 0) (byteOf w 1) (byteOf w 2) (byteOf w 3) = w := by
  apply BitVec.eq_of_getLsbD_eq; intro i hi
  interval_cases i <;> simp [byteOf, leWord]

/-- A halfword as a number (rule R51). -/
theorem leHalf_toNat (b0 b1 : Byte) : (leHalf b0 b1).toNat = b0.toNat + b1.toNat * 2 ^ 8 := by
  have h0 := b0.isLt
  have h1 := b1.isLt
  have : (leHalf b0 b1).toNat = b1.toNat <<< 8 ||| b0.toNat := by
    simp only [leHalf, place, BitVec.toNat_or, BitVec.toNat_shiftLeft, BitVec.toNat_setWidth,
      Nat.shiftLeft_eq]
    congr 1 <;> omega
  rw [this, ← Nat.shiftLeft_add_eq_or_of_lt (by omega), Nat.shiftLeft_eq]; omega

/-- A word as a number (rule R51). -/
theorem leWord_toNat (b0 b1 b2 b3 : Byte) :
    (leWord b0 b1 b2 b3).toNat =
      b0.toNat + b1.toNat * 2 ^ 8 + b2.toNat * 2 ^ 16 + b3.toNat * 2 ^ 24 := by
  have h0 := b0.isLt
  have h1 := b1.isLt
  have h2 := b2.isLt
  have h3 := b3.isLt
  have : (leWord b0 b1 b2 b3).toNat =
      ((b3.toNat <<< 8 ||| b2.toNat) <<< 8 ||| b1.toNat) <<< 8 ||| b0.toNat := by
    simp only [leWord, place, BitVec.toNat_or, BitVec.toNat_shiftLeft, BitVec.toNat_setWidth,
      Nat.shiftLeft_or_distrib, ← Nat.shiftLeft_add]
    simp only [Nat.shiftLeft_eq]
    congr 1 <;> [congr 1 <;> [congr 1; skip]; skip] <;> omega
  rw [this, ← Nat.shiftLeft_add_eq_or_of_lt (by omega), ← Nat.shiftLeft_add_eq_or_of_lt (by omega),
    ← Nat.shiftLeft_add_eq_or_of_lt (by omega)]
  simp only [Nat.shiftLeft_eq]; omega

/-- Byte `i` of a word as a number (rule R52). -/
theorem byteOf_toNat (v : Word) (i : Nat) : (byteOf v i).toNat = v.toNat / 2 ^ (8 * i) % 256 := by
  simp [byteOf, BitVec.extractLsb'_toNat, Nat.shiftRight_eq_div_pow]

/-! ### The fields of each format -/

@[simp] theorem opcodeOf_rFormat (f7 : BitVec 7) (rs2 rs1 : Reg) (f3 : BitVec 3) (rd : Reg) (op : BitVec 7) :
    opcodeOf (rFormat f7 rs2 rs1 f3 rd op) = op := by
  apply BitVec.eq_of_getLsbD_eq; intro i hi
  interval_cases i <;> simp [opcodeOf, rFormat]
@[simp] theorem rdOf_rFormat (f7 : BitVec 7) (rs2 rs1 : Reg) (f3 : BitVec 3) (rd : Reg) (op : BitVec 7) :
    rdOf (rFormat f7 rs2 rs1 f3 rd op) = rd := by
  apply BitVec.eq_of_getLsbD_eq; intro i hi
  interval_cases i <;> simp [rdOf, rFormat]
@[simp] theorem funct3Of_rFormat (f7 : BitVec 7) (rs2 rs1 : Reg) (f3 : BitVec 3) (rd : Reg) (op : BitVec 7) :
    funct3Of (rFormat f7 rs2 rs1 f3 rd op) = f3 := by
  apply BitVec.eq_of_getLsbD_eq; intro i hi
  interval_cases i <;> simp [funct3Of, rFormat]
@[simp] theorem rs1Of_rFormat (f7 : BitVec 7) (rs2 rs1 : Reg) (f3 : BitVec 3) (rd : Reg) (op : BitVec 7) :
    rs1Of (rFormat f7 rs2 rs1 f3 rd op) = rs1 := by
  apply BitVec.eq_of_getLsbD_eq; intro i hi
  interval_cases i <;> simp [rs1Of, rFormat]
@[simp] theorem rs2Of_rFormat (f7 : BitVec 7) (rs2 rs1 : Reg) (f3 : BitVec 3) (rd : Reg) (op : BitVec 7) :
    rs2Of (rFormat f7 rs2 rs1 f3 rd op) = rs2 := by
  apply BitVec.eq_of_getLsbD_eq; intro i hi
  interval_cases i <;> simp [rs2Of, rFormat]
@[simp] theorem funct7Of_rFormat (f7 : BitVec 7) (rs2 rs1 : Reg) (f3 : BitVec 3) (rd : Reg) (op : BitVec 7) :
    funct7Of (rFormat f7 rs2 rs1 f3 rd op) = f7 := by
  apply BitVec.eq_of_getLsbD_eq; intro i hi
  interval_cases i <;> simp [funct7Of, rFormat]

@[simp] theorem opcodeOf_iFormat (imm : BitVec 12) (rs1 : Reg) (f3 : BitVec 3) (rd : Reg) (op : BitVec 7) :
    opcodeOf (iFormat imm rs1 f3 rd op) = op := by
  apply BitVec.eq_of_getLsbD_eq; intro i hi
  interval_cases i <;> simp [opcodeOf, iFormat]
@[simp] theorem rdOf_iFormat (imm : BitVec 12) (rs1 : Reg) (f3 : BitVec 3) (rd : Reg) (op : BitVec 7) :
    rdOf (iFormat imm rs1 f3 rd op) = rd := by
  apply BitVec.eq_of_getLsbD_eq; intro i hi
  interval_cases i <;> simp [rdOf, iFormat]
@[simp] theorem funct3Of_iFormat (imm : BitVec 12) (rs1 : Reg) (f3 : BitVec 3) (rd : Reg) (op : BitVec 7) :
    funct3Of (iFormat imm rs1 f3 rd op) = f3 := by
  apply BitVec.eq_of_getLsbD_eq; intro i hi
  interval_cases i <;> simp [funct3Of, iFormat]
@[simp] theorem rs1Of_iFormat (imm : BitVec 12) (rs1 : Reg) (f3 : BitVec 3) (rd : Reg) (op : BitVec 7) :
    rs1Of (iFormat imm rs1 f3 rd op) = rs1 := by
  apply BitVec.eq_of_getLsbD_eq; intro i hi
  interval_cases i <;> simp [rs1Of, iFormat]
@[simp] theorem immIOf_iFormat (imm : BitVec 12) (rs1 : Reg) (f3 : BitVec 3) (rd : Reg) (op : BitVec 7) :
    immIOf (iFormat imm rs1 f3 rd op) = imm := by
  apply BitVec.eq_of_getLsbD_eq; intro i hi
  interval_cases i <;> simp [immIOf, iFormat]

@[simp] theorem opcodeOf_sFormat (imm : BitVec 12) (rs2 rs1 : Reg) (f3 : BitVec 3) (op : BitVec 7) :
    opcodeOf (sFormat imm rs2 rs1 f3 op) = op := by
  apply BitVec.eq_of_getLsbD_eq; intro i hi
  interval_cases i <;> simp [opcodeOf, sFormat]
@[simp] theorem funct3Of_sFormat (imm : BitVec 12) (rs2 rs1 : Reg) (f3 : BitVec 3) (op : BitVec 7) :
    funct3Of (sFormat imm rs2 rs1 f3 op) = f3 := by
  apply BitVec.eq_of_getLsbD_eq; intro i hi
  interval_cases i <;> simp [funct3Of, sFormat]
@[simp] theorem rs1Of_sFormat (imm : BitVec 12) (rs2 rs1 : Reg) (f3 : BitVec 3) (op : BitVec 7) :
    rs1Of (sFormat imm rs2 rs1 f3 op) = rs1 := by
  apply BitVec.eq_of_getLsbD_eq; intro i hi
  interval_cases i <;> simp [rs1Of, sFormat]
@[simp] theorem rs2Of_sFormat (imm : BitVec 12) (rs2 rs1 : Reg) (f3 : BitVec 3) (op : BitVec 7) :
    rs2Of (sFormat imm rs2 rs1 f3 op) = rs2 := by
  apply BitVec.eq_of_getLsbD_eq; intro i hi
  interval_cases i <;> simp [rs2Of, sFormat]
@[simp] theorem immSOf_sFormat (imm : BitVec 12) (rs2 rs1 : Reg) (f3 : BitVec 3) (op : BitVec 7) :
    immSOf (sFormat imm rs2 rs1 f3 op) = imm := by
  apply BitVec.eq_of_getLsbD_eq; intro i hi
  interval_cases i <;> simp [immSOf, sFormat]

@[simp] theorem opcodeOf_sbFormat (off : BitVec 13) (rs2 rs1 : Reg) (f3 : BitVec 3) (op : BitVec 7) :
    opcodeOf (sbFormat off rs2 rs1 f3 op) = op := by
  apply BitVec.eq_of_getLsbD_eq; intro i hi
  interval_cases i <;> simp [opcodeOf, sbFormat]
@[simp] theorem funct3Of_sbFormat (off : BitVec 13) (rs2 rs1 : Reg) (f3 : BitVec 3) (op : BitVec 7) :
    funct3Of (sbFormat off rs2 rs1 f3 op) = f3 := by
  apply BitVec.eq_of_getLsbD_eq; intro i hi
  interval_cases i <;> simp [funct3Of, sbFormat]
@[simp] theorem rs1Of_sbFormat (off : BitVec 13) (rs2 rs1 : Reg) (f3 : BitVec 3) (op : BitVec 7) :
    rs1Of (sbFormat off rs2 rs1 f3 op) = rs1 := by
  apply BitVec.eq_of_getLsbD_eq; intro i hi
  interval_cases i <;> simp [rs1Of, sbFormat]
@[simp] theorem rs2Of_sbFormat (off : BitVec 13) (rs2 rs1 : Reg) (f3 : BitVec 3) (op : BitVec 7) :
    rs2Of (sbFormat off rs2 rs1 f3 op) = rs2 := by
  apply BitVec.eq_of_getLsbD_eq; intro i hi
  interval_cases i <;> simp [rs2Of, sbFormat]

@[simp] theorem opcodeOf_uFormat (imm20 : BitVec 20) (rd : Reg) (op : BitVec 7) :
    opcodeOf (uFormat imm20 rd op) = op := by
  apply BitVec.eq_of_getLsbD_eq; intro i hi
  interval_cases i <;> simp [opcodeOf, uFormat]
@[simp] theorem rdOf_uFormat (imm20 : BitVec 20) (rd : Reg) (op : BitVec 7) :
    rdOf (uFormat imm20 rd op) = rd := by
  apply BitVec.eq_of_getLsbD_eq; intro i hi
  interval_cases i <;> simp [rdOf, uFormat]
@[simp] theorem immUOf_uFormat (imm20 : BitVec 20) (rd : Reg) (op : BitVec 7) :
    immUOf (uFormat imm20 rd op) = imm20 := by
  apply BitVec.eq_of_getLsbD_eq; intro i hi
  interval_cases i <;> simp [immUOf, uFormat]

@[simp] theorem opcodeOf_ujFormat (off : BitVec 21) (rd : Reg) (op : BitVec 7) :
    opcodeOf (ujFormat off rd op) = op := by
  apply BitVec.eq_of_getLsbD_eq; intro i hi
  interval_cases i <;> simp [opcodeOf, ujFormat]
@[simp] theorem rdOf_ujFormat (off : BitVec 21) (rd : Reg) (op : BitVec 7) :
    rdOf (ujFormat off rd op) = rd := by
  apply BitVec.eq_of_getLsbD_eq; intro i hi
  interval_cases i <;> simp [rdOf, ujFormat]

/-- An even B-immediate is read back (rules R90, R105). -/
theorem immBOf_sbFormat {off : BitVec 13} (h : evenOffset off = true) (rs2 rs1 : Reg)
    (f3 : BitVec 3) (op : BitVec 7) : immBOf (sbFormat off rs2 rs1 f3 op) = off := by
  have h0 : off[0] = false := by simpa [evenOffset] using h
  apply BitVec.eq_of_getLsbD_eq; intro i hi
  interval_cases i <;> simp [immBOf, sbFormat, h0]

/-- An even J-immediate is read back (rules R92, R105). -/
theorem immJOf_ujFormat {off : BitVec 21} (h : evenOffset off = true) (rd : Reg)
    (op : BitVec 7) : immJOf (ujFormat off rd op) = off := by
  have h0 : off[0] = false := by simpa [evenOffset] using h
  apply BitVec.eq_of_getLsbD_eq; intro i hi
  interval_cases i <;> simp [immJOf, ujFormat, h0]

/-- The low two bits of a word are those of its opcode. -/
theorem lowBits_eq (w : Word) : w.extractLsb' 0 2 = (opcodeOf w).extractLsb' 0 2 := by
  apply BitVec.eq_of_getLsbD_eq; intro i hi
  interval_cases i <;> simp [opcodeOf]

/-! ### The rows of the decode table, by format -/

theorem rFormat_masked (f7 : BitVec 7) (rs2 rs1 : Reg) (f3 : BitVec 3) (rd : Reg) (op : BitVec 7) :
    rFormat f7 rs2 rs1 f3 rd op &&& 0xFE00707F = rFormat f7 0 0 f3 0 op := by
  apply BitVec.eq_of_getLsbD_eq; intro i hi
  interval_cases i <;> simp [rFormat]

theorem iFormat_masked (imm : BitVec 12) (rs1 : Reg) (f3 : BitVec 3) (rd : Reg) (op : BitVec 7) :
    iFormat imm rs1 f3 rd op &&& 0x0000707F = iFormat 0 0 f3 0 op := by
  apply BitVec.eq_of_getLsbD_eq; intro i hi
  interval_cases i <;> simp [iFormat]

theorem sFormat_masked (imm : BitVec 12) (rs2 rs1 : Reg) (f3 : BitVec 3) (op : BitVec 7) :
    sFormat imm rs2 rs1 f3 op &&& 0x0000707F = sFormat 0 0 0 f3 op := by
  apply BitVec.eq_of_getLsbD_eq; intro i hi
  interval_cases i <;> simp [sFormat]

theorem sbFormat_masked (off : BitVec 13) (rs2 rs1 : Reg) (f3 : BitVec 3) (op : BitVec 7) :
    sbFormat off rs2 rs1 f3 op &&& 0x0000707F = sbFormat 0 0 0 f3 op := by
  apply BitVec.eq_of_getLsbD_eq; intro i hi
  interval_cases i <;> simp [sbFormat]

theorem uFormat_masked (imm20 : BitVec 20) (rd : Reg) (op : BitVec 7) :
    uFormat imm20 rd op &&& 0x0000007F = uFormat 0 0 op := by
  apply BitVec.eq_of_getLsbD_eq; intro i hi
  interval_cases i <;> simp [uFormat]

theorem ujFormat_masked (off : BitVec 21) (rd : Reg) (op : BitVec 7) :
    ujFormat off rd op &&& 0x0000007F = ujFormat 0 0 op := by
  apply BitVec.eq_of_getLsbD_eq; intro i hi
  interval_cases i <;> simp [ujFormat]

/-- A word whose masked form is the value of a row lies in the row (rule R96). -/
theorem TableRow.covers_of_masked {r : TableRow} {w z : Word} (h : w &&& r.mask = z)
    (hz : z = r.value) : r.covers w = true := by
  simp [TableRow.covers, h, hz]

end Sys2Proof
end

