-- ==== Sys2Proof/Laws/Fields.lean ====
section
/-! SUPPORT. The fields of a word against a mask of its row, and the offsets as the statements write them
against the decoder's. -/

namespace Sys2Proof.Machine

/-- A mask on the opcode fixes the opcode. -/
theorem opcodeOf_of_masked {w v : Word} (h : w &&& 0x0000007F = v) :
    opcodeOf w = v.extractLsb' 0 7 := by
  subst h; apply BitVec.eq_of_getLsbD_eq; intro i hi
  interval_cases i <;> simp [opcodeOf]

/-- A mask on opcode and funct3 fixes both. -/
theorem funct3Of_of_masked {w v : Word} (h : w &&& 0x0000707F = v) :
    opcodeOf w = v.extractLsb' 0 7 ∧ funct3Of w = v.extractLsb' 12 3 := by
  subst h
  refine ⟨?_, ?_⟩ <;> apply BitVec.eq_of_getLsbD_eq <;> intro i hi <;> interval_cases i <;>
    simp [opcodeOf, funct3Of]

/-- A mask on opcode, funct3 and funct7 fixes all three. -/
theorem funct7Of_of_masked {w v : Word} (h : w &&& 0xFE00707F = v) :
    opcodeOf w = v.extractLsb' 0 7 ∧ funct3Of w = v.extractLsb' 12 3 ∧
      funct7Of w = v.extractLsb' 25 7 := by
  subst h
  refine ⟨?_, ?_, ?_⟩ <;> apply BitVec.eq_of_getLsbD_eq <;> intro i hi <;> interval_cases i <;>
    simp [opcodeOf, funct3Of, funct7Of]

/-- The bits of a branch offset (rule R90). -/
theorem getLsbD_branchOffset (w : Word) (i : Nat) : (branchOffset w).getLsbD i =
    if i < 1 then false else if i < 5 then w.getLsbD (8 + (i - 1))
    else if i < 11 then w.getLsbD (25 + (i - 5)) else if i < 12 then w.getLsbD 7
    else i < 13 && w.getLsbD 31 := by
  have : (branchOffset w).getLsbD i = BitVec.getLsbD (w := 1 + 1 + 6 + 4 + 1)
      (w.extractLsb' 31 1 ++ w.extractLsb' 7 1 ++ w.extractLsb' 25 6 ++ w.extractLsb' 8 4 ++
        0#1) i := rfl
  rw [this]
  simp only [BitVec.getLsbD_append, BitVec.getLsbD_extractLsb']
  grind

/-- The bits of a JAL offset (rule R92). -/
theorem getLsbD_jumpOffset (w : Word) (i : Nat) : (jumpOffset w).getLsbD i =
    if i < 1 then false else if i < 11 then w.getLsbD (21 + (i - 1))
    else if i < 12 then w.getLsbD 20 else if i < 20 then w.getLsbD (12 + (i - 12))
    else i < 21 && w.getLsbD 31 := by
  have : (jumpOffset w).getLsbD i = BitVec.getLsbD (w := 1 + 8 + 1 + 10 + 1)
      (w.extractLsb' 31 1 ++ w.extractLsb' 12 8 ++ w.extractLsb' 20 1 ++ w.extractLsb' 21 10 ++
        0#1) i := rfl
  rw [this]
  simp only [BitVec.getLsbD_append, BitVec.getLsbD_extractLsb']
  grind

/-- The bits of a store displacement (rule R89). -/
theorem getLsbD_storeOffset (w : Word) (i : Nat) : (storeOffset w).getLsbD i =
    if i < 5 then w.getLsbD (7 + i) else i < 12 && w.getLsbD (25 + (i - 5)) := by
  have : (storeOffset w).getLsbD i = BitVec.getLsbD (w := 7 + 5)
      (w.extractLsb' 25 7 ++ w.extractLsb' 7 5) i := rfl
  rw [this]
  simp only [BitVec.getLsbD_append, BitVec.getLsbD_extractLsb']
  grind

/-- The decoder reads the branch offset. -/
theorem immBOf_eq (w : Word) : immBOf w = branchOffset w := by
  apply BitVec.eq_of_getLsbD_eq; intro i hi
  rw [getLsbD_branchOffset]
  interval_cases i <;> simp [immBOf]

/-- The decoder reads the JAL offset. -/
theorem immJOf_eq (w : Word) : immJOf w = jumpOffset w := by
  apply BitVec.eq_of_getLsbD_eq; intro i hi
  rw [getLsbD_jumpOffset]
  interval_cases i <;> simp [immJOf]

/-- The decoder reads the store displacement. -/
theorem immSOf_eq (w : Word) : immSOf w = storeOffset w := by
  apply BitVec.eq_of_getLsbD_eq; intro i hi
  rw [getLsbD_storeOffset]
  interval_cases i <;> simp [immSOf]

/-- The U-immediate is its field over twelve zeros (rule R91). -/
theorem immU_eq (f : BitVec 20) : immU f = f ++ 0#12 := by
  apply BitVec.eq_of_getLsbD_eq; intro i hi
  have : (f ++ 0#12 : Word).getLsbD i = BitVec.getLsbD (w := 20 + 12) (f ++ 0#12) i := rfl
  rw [this, BitVec.getLsbD_append]
  simp only [immU, getLsbD_place]
  by_cases h : i < 12
  · have : ¬ 12 ≤ i := by omega
    simp [h, this]
  · have : 12 ≤ i := by omega
    simp [h, this, hi]

end Sys2Proof.Machine
end

