-- ==== Sys2Proof/Laws/Decoding.lean ====
section
/-! SUPPORT. What the decoder reads, said once: `decode w = .ok i` exactly when the fields of `w` are those
of `i`; and the word put together again from its fields. -/

namespace Sys2Proof.Machine

/-- The opcode, function and operand fields of the word are those of the instruction. -/
def Reads (w : Word) : Instr → Prop
  | .lui rd imm20 => opcodeOf w = 0b0110111 ∧ rdOf w = rd ∧ immUOf w = imm20
  | .auipc rd imm20 => opcodeOf w = 0b0010111 ∧ rdOf w = rd ∧ immUOf w = imm20
  | .jal rd off => opcodeOf w = 0b1101111 ∧ rdOf w = rd ∧ immJOf w = off
  | .jalr rd rs1 off => opcodeOf w = 0b1100111 ∧ funct3Of w = 0b000 ∧ rdOf w = rd ∧
      rs1Of w = rs1 ∧ immIOf w = off
  | .beq rs1 rs2 off => opcodeOf w = 0b1100011 ∧ funct3Of w = 0b000 ∧ rs1Of w = rs1 ∧
      rs2Of w = rs2 ∧ immBOf w = off
  | .bne rs1 rs2 off => opcodeOf w = 0b1100011 ∧ funct3Of w = 0b001 ∧ rs1Of w = rs1 ∧
      rs2Of w = rs2 ∧ immBOf w = off
  | .blt rs1 rs2 off => opcodeOf w = 0b1100011 ∧ funct3Of w = 0b100 ∧ rs1Of w = rs1 ∧
      rs2Of w = rs2 ∧ immBOf w = off
  | .bge rs1 rs2 off => opcodeOf w = 0b1100011 ∧ funct3Of w = 0b101 ∧ rs1Of w = rs1 ∧
      rs2Of w = rs2 ∧ immBOf w = off
  | .bltu rs1 rs2 off => opcodeOf w = 0b1100011 ∧ funct3Of w = 0b110 ∧ rs1Of w = rs1 ∧
      rs2Of w = rs2 ∧ immBOf w = off
  | .bgeu rs1 rs2 off => opcodeOf w = 0b1100011 ∧ funct3Of w = 0b111 ∧ rs1Of w = rs1 ∧
      rs2Of w = rs2 ∧ immBOf w = off
  | .lb rd rs1 off => opcodeOf w = 0b0000011 ∧ funct3Of w = 0b000 ∧ rdOf w = rd ∧
      rs1Of w = rs1 ∧ immIOf w = off
  | .lh rd rs1 off => opcodeOf w = 0b0000011 ∧ funct3Of w = 0b001 ∧ rdOf w = rd ∧
      rs1Of w = rs1 ∧ immIOf w = off
  | .lw rd rs1 off => opcodeOf w = 0b0000011 ∧ funct3Of w = 0b010 ∧ rdOf w = rd ∧
      rs1Of w = rs1 ∧ immIOf w = off
  | .lbu rd rs1 off => opcodeOf w = 0b0000011 ∧ funct3Of w = 0b100 ∧ rdOf w = rd ∧
      rs1Of w = rs1 ∧ immIOf w = off
  | .lhu rd rs1 off => opcodeOf w = 0b0000011 ∧ funct3Of w = 0b101 ∧ rdOf w = rd ∧
      rs1Of w = rs1 ∧ immIOf w = off
  | .sb rs2 rs1 off => opcodeOf w = 0b0100011 ∧ funct3Of w = 0b000 ∧ rs1Of w = rs1 ∧
      rs2Of w = rs2 ∧ immSOf w = off
  | .sh rs2 rs1 off => opcodeOf w = 0b0100011 ∧ funct3Of w = 0b001 ∧ rs1Of w = rs1 ∧
      rs2Of w = rs2 ∧ immSOf w = off
  | .sw rs2 rs1 off => opcodeOf w = 0b0100011 ∧ funct3Of w = 0b010 ∧ rs1Of w = rs1 ∧
      rs2Of w = rs2 ∧ immSOf w = off
  | .addi rd rs1 imm => opcodeOf w = 0b0010011 ∧ funct3Of w = 0b000 ∧ rdOf w = rd ∧
      rs1Of w = rs1 ∧ immIOf w = imm
  | .slti rd rs1 imm => opcodeOf w = 0b0010011 ∧ funct3Of w = 0b010 ∧ rdOf w = rd ∧
      rs1Of w = rs1 ∧ immIOf w = imm
  | .sltiu rd rs1 imm => opcodeOf w = 0b0010011 ∧ funct3Of w = 0b011 ∧ rdOf w = rd ∧
      rs1Of w = rs1 ∧ immIOf w = imm
  | .xori rd rs1 imm => opcodeOf w = 0b0010011 ∧ funct3Of w = 0b100 ∧ rdOf w = rd ∧
      rs1Of w = rs1 ∧ immIOf w = imm
  | .ori rd rs1 imm => opcodeOf w = 0b0010011 ∧ funct3Of w = 0b110 ∧ rdOf w = rd ∧
      rs1Of w = rs1 ∧ immIOf w = imm
  | .andi rd rs1 imm => opcodeOf w = 0b0010011 ∧ funct3Of w = 0b111 ∧ rdOf w = rd ∧
      rs1Of w = rs1 ∧ immIOf w = imm
  | .slli rd rs1 shamt => opcodeOf w = 0b0010011 ∧ funct3Of w = 0b001 ∧
      funct7Of w = 0b0000000 ∧ rdOf w = rd ∧
      rs1Of w = rs1 ∧ rs2Of w = shamt
  | .srli rd rs1 shamt => opcodeOf w = 0b0010011 ∧ funct3Of w = 0b101 ∧
      funct7Of w = 0b0000000 ∧ rdOf w = rd ∧
      rs1Of w = rs1 ∧ rs2Of w = shamt
  | .srai rd rs1 shamt => opcodeOf w = 0b0010011 ∧ funct3Of w = 0b101 ∧
      funct7Of w = 0b0100000 ∧ rdOf w = rd ∧
      rs1Of w = rs1 ∧ rs2Of w = shamt
  | .add rd rs1 rs2 => opcodeOf w = 0b0110011 ∧ funct3Of w = 0b000 ∧
      funct7Of w = 0b0000000 ∧ rdOf w = rd ∧
      rs1Of w = rs1 ∧ rs2Of w = rs2
  | .sub rd rs1 rs2 => opcodeOf w = 0b0110011 ∧ funct3Of w = 0b000 ∧
      funct7Of w = 0b0100000 ∧ rdOf w = rd ∧
      rs1Of w = rs1 ∧ rs2Of w = rs2
  | .sll rd rs1 rs2 => opcodeOf w = 0b0110011 ∧ funct3Of w = 0b001 ∧
      funct7Of w = 0b0000000 ∧ rdOf w = rd ∧
      rs1Of w = rs1 ∧ rs2Of w = rs2
  | .slt rd rs1 rs2 => opcodeOf w = 0b0110011 ∧ funct3Of w = 0b010 ∧
      funct7Of w = 0b0000000 ∧ rdOf w = rd ∧
      rs1Of w = rs1 ∧ rs2Of w = rs2
  | .sltu rd rs1 rs2 => opcodeOf w = 0b0110011 ∧ funct3Of w = 0b011 ∧
      funct7Of w = 0b0000000 ∧ rdOf w = rd ∧
      rs1Of w = rs1 ∧ rs2Of w = rs2
  | .xor rd rs1 rs2 => opcodeOf w = 0b0110011 ∧ funct3Of w = 0b100 ∧
      funct7Of w = 0b0000000 ∧ rdOf w = rd ∧
      rs1Of w = rs1 ∧ rs2Of w = rs2
  | .srl rd rs1 rs2 => opcodeOf w = 0b0110011 ∧ funct3Of w = 0b101 ∧
      funct7Of w = 0b0000000 ∧ rdOf w = rd ∧
      rs1Of w = rs1 ∧ rs2Of w = rs2
  | .sra rd rs1 rs2 => opcodeOf w = 0b0110011 ∧ funct3Of w = 0b101 ∧
      funct7Of w = 0b0100000 ∧ rdOf w = rd ∧
      rs1Of w = rs1 ∧ rs2Of w = rs2
  | .or rd rs1 rs2 => opcodeOf w = 0b0110011 ∧ funct3Of w = 0b110 ∧
      funct7Of w = 0b0000000 ∧ rdOf w = rd ∧
      rs1Of w = rs1 ∧ rs2Of w = rs2
  | .and rd rs1 rs2 => opcodeOf w = 0b0110011 ∧ funct3Of w = 0b111 ∧
      funct7Of w = 0b0000000 ∧ rdOf w = rd ∧
      rs1Of w = rs1 ∧ rs2Of w = rs2
  | .fence pred succ => opcodeOf w = 0b0001111 ∧ funct3Of w = 0b000 ∧ predOf w = pred ∧
      succOf w = succ
  | .fenceI => opcodeOf w = 0b0001111 ∧ funct3Of w = 0b001
  | .ecall => w = 0x00000073
  | .ebreak => w = 0x00100073
  | .csrrw rd csr rs1 => opcodeOf w = 0b1110011 ∧ funct3Of w = 0b001 ∧ rdOf w = rd ∧
      rs1Of w = rs1 ∧ immIOf w = csr
  | .csrrs rd csr rs1 => opcodeOf w = 0b1110011 ∧ funct3Of w = 0b010 ∧ rdOf w = rd ∧
      rs1Of w = rs1 ∧ immIOf w = csr
  | .csrrc rd csr rs1 => opcodeOf w = 0b1110011 ∧ funct3Of w = 0b011 ∧ rdOf w = rd ∧
      rs1Of w = rs1 ∧ immIOf w = csr
  | .csrrwi rd csr zimm => opcodeOf w = 0b1110011 ∧ funct3Of w = 0b101 ∧ rdOf w = rd ∧
      rs1Of w = zimm ∧ immIOf w = csr
  | .csrrsi rd csr zimm => opcodeOf w = 0b1110011 ∧ funct3Of w = 0b110 ∧ rdOf w = rd ∧
      rs1Of w = zimm ∧ immIOf w = csr
  | .csrrci rd csr zimm => opcodeOf w = 0b1110011 ∧ funct3Of w = 0b111 ∧ rdOf w = rd ∧
      rs1Of w = zimm ∧ immIOf w = csr

/-- Two answers of the decoder that are equal hold one instruction. -/
theorem ok_inj {i j : Instr} (h : (.ok i : Except Reject Instr) = .ok j) : i = j := by
  injection h

theorem decodeBranch_reads {w : Word} {i : Instr} (ho : opcodeOf w = 0b1100011)
    (h : decodeBranch w = .ok i) : Reads w i := by
  unfold decodeBranch at h
  split at h <;> first
    | (cases h; done)
    | (obtain rfl := ok_inj h; exact ⟨ho, ‹_›, rfl, rfl, rfl⟩)

theorem decodeLoad_reads {w : Word} {i : Instr} (ho : opcodeOf w = 0b0000011)
    (h : decodeLoad w = .ok i) : Reads w i := by
  unfold decodeLoad at h
  split at h <;> first
    | (cases h; done)
    | (obtain rfl := ok_inj h; exact ⟨ho, ‹_›, rfl, rfl, rfl⟩)

theorem decodeStore_reads {w : Word} {i : Instr} (ho : opcodeOf w = 0b0100011)
    (h : decodeStore w = .ok i) : Reads w i := by
  unfold decodeStore at h
  split at h <;> first
    | (cases h; done)
    | (obtain rfl := ok_inj h; exact ⟨ho, ‹_›, rfl, rfl, rfl⟩)

theorem decodeShiftRightImm_reads {w : Word} {i : Instr} (ho : opcodeOf w = 0b0010011)
    (hf : funct3Of w = 0b101) (h : decodeShiftRightImm w = .ok i) : Reads w i := by
  unfold decodeShiftRightImm at h
  split at h <;> first
    | (cases h; done)
    | (obtain rfl := ok_inj h; exact ⟨ho, hf, ‹_›, rfl, rfl, rfl⟩)

theorem decodeOpImm_reads {w : Word} {i : Instr} (ho : opcodeOf w = 0b0010011)
    (h : decodeOpImm w = .ok i) : Reads w i := by
  unfold decodeOpImm at h
  split at h
  case h_2 hf =>
    split at h
    · obtain rfl := ok_inj h; exact ⟨ho, hf, ‹_›, rfl, rfl, rfl⟩
    · cases h
  case h_6 hf => exact decodeShiftRightImm_reads ho hf h
  all_goals (obtain rfl := ok_inj h; exact ⟨ho, ‹_›, rfl, rfl, rfl⟩)

theorem decodeOpBase_reads {w : Word} {i : Instr} (ho : opcodeOf w = 0b0110011)
    (hf : funct7Of w = 0b0000000) (h : decodeOpBase w = .ok i) : Reads w i := by
  unfold decodeOpBase at h
  split at h <;> (obtain rfl := ok_inj h; exact ⟨ho, ‹_›, hf, rfl, rfl, rfl⟩)

theorem decodeOpAlt_reads {w : Word} {i : Instr} (ho : opcodeOf w = 0b0110011)
    (hf : funct7Of w = 0b0100000) (h : decodeOpAlt w = .ok i) : Reads w i := by
  unfold decodeOpAlt at h
  split at h <;> first
    | (cases h; done)
    | (obtain rfl := ok_inj h; exact ⟨ho, ‹_›, hf, rfl, rfl, rfl⟩)

theorem decodeOp_reads {w : Word} {i : Instr} (ho : opcodeOf w = 0b0110011)
    (h : decodeOp w = .ok i) : Reads w i := by
  unfold decodeOp at h
  split at h
  case h_1 hf => exact decodeOpBase_reads ho hf h
  case h_2 hf => exact decodeOpAlt_reads ho hf h
  all_goals cases h

theorem decodeMiscMem_reads {w : Word} {i : Instr} (ho : opcodeOf w = 0b0001111)
    (h : decodeMiscMem w = .ok i) : Reads w i := by
  unfold decodeMiscMem at h
  split at h
  · obtain rfl := ok_inj h; exact ⟨ho, ‹_›, rfl, rfl⟩
  · obtain rfl := ok_inj h; exact ⟨ho, ‹_›⟩
  · cases h

theorem decodeSystem_reads {w : Word} {i : Instr} (ho : opcodeOf w = 0b1110011)
    (h : decodeSystem w = .ok i) : Reads w i := by
  unfold decodeSystem at h
  split at h
  case h_1 =>
    split at h
    · obtain rfl := ok_inj h; assumption
    · split at h
      · obtain rfl := ok_inj h; assumption
      · cases h
  all_goals first
    | (cases h; done)
    | (obtain rfl := ok_inj h; exact ⟨ho, ‹_›, rfl, rfl, rfl⟩)

/-- What the decoder answers has the fields of the word. -/
theorem reads_of_decode {w : Word} {i : Instr} (h : decode w = .ok i) : Reads w i := by
  unfold decode at h
  split at h
  · split at h
    case h_1 ho => obtain rfl := ok_inj h; exact ⟨ho, rfl, rfl⟩
    case h_2 ho => obtain rfl := ok_inj h; exact ⟨ho, rfl, rfl⟩
    case h_3 ho => obtain rfl := ok_inj h; exact ⟨ho, rfl, rfl⟩
    case h_4 ho =>
      split at h
      · obtain rfl := ok_inj h; exact ⟨ho, ‹_›, rfl, rfl, rfl⟩
      · cases h
    case h_5 ho => exact decodeBranch_reads ho h
    case h_6 ho => exact decodeLoad_reads ho h
    case h_7 ho => exact decodeStore_reads ho h
    case h_8 ho => exact decodeOpImm_reads ho h
    case h_9 ho => exact decodeOp_reads ho h
    case h_10 ho => exact decodeMiscMem_reads ho h
    case h_11 ho => exact decodeSystem_reads ho h
    case h_12 => cases h
  · cases h

/-- A word with the fields of an instruction decodes to it. -/
theorem decode_of_reads {w : Word} {i : Instr} (h : Reads w i) : decode w = .ok i := by
  cases i
  case ecall => obtain rfl : w = _ := h; rfl
  case ebreak => obtain rfl : w = _ := h; rfl
  case lui => obtain ⟨ho, rfl, rfl⟩ := h; simp [decode, lowBits_eq, ho]
  case auipc => obtain ⟨ho, rfl, rfl⟩ := h; simp [decode, lowBits_eq, ho]
  case jal => obtain ⟨ho, rfl, rfl⟩ := h; simp [decode, lowBits_eq, ho]
  case fence => obtain ⟨ho, hf, rfl, rfl⟩ := h; simp [decode, lowBits_eq, ho, decodeMiscMem, hf]
  case fenceI => obtain ⟨ho, hf⟩ := h; simp [decode, lowBits_eq, ho, decodeMiscMem, hf]
  all_goals first
    | (obtain ⟨ho, hf, h7, rfl, rfl, rfl⟩ := h
       simp [decode, lowBits_eq, ho, decodeOpImm, decodeShiftRightImm, decodeOp, decodeOpBase,
         decodeOpAlt, hf, h7]; done)
    | (obtain ⟨ho, hf, rfl, rfl, rfl⟩ := h
       simp [decode, lowBits_eq, ho, decodeBranch, decodeLoad, decodeStore, decodeSystem, hf])

/-- The decoder, as one equivalence. -/
theorem decode_eq_ok_iff (w : Word) (i : Instr) : decode w = .ok i ↔ Reads w i :=
  ⟨reads_of_decode, decode_of_reads⟩

/-! ### The word from its fields -/

theorem rFormat_fields (w : Word) : rFormat (funct7Of w) (rs2Of w) (rs1Of w) (funct3Of w) (rdOf w)
    (opcodeOf w) = w := by
  apply BitVec.eq_of_getLsbD_eq; intro i hi
  interval_cases i <;> simp [rFormat, funct7Of, rs2Of, rs1Of, funct3Of, rdOf, opcodeOf]

theorem iFormat_fields (w : Word) : iFormat (immIOf w) (rs1Of w) (funct3Of w) (rdOf w)
    (opcodeOf w) = w := by
  apply BitVec.eq_of_getLsbD_eq; intro i hi
  interval_cases i <;> simp [iFormat, immIOf, rs1Of, funct3Of, rdOf, opcodeOf]

theorem sFormat_fields (w : Word) : sFormat (immSOf w) (rs2Of w) (rs1Of w) (funct3Of w)
    (opcodeOf w) = w := by
  apply BitVec.eq_of_getLsbD_eq; intro i hi
  interval_cases i <;> simp [sFormat, immSOf, rs2Of, rs1Of, funct3Of, opcodeOf]

theorem sbFormat_fields (w : Word) : sbFormat (immBOf w) (rs2Of w) (rs1Of w) (funct3Of w)
    (opcodeOf w) = w := by
  apply BitVec.eq_of_getLsbD_eq; intro i hi
  interval_cases i <;> simp [sbFormat, immBOf, rs2Of, rs1Of, funct3Of, opcodeOf]

theorem uFormat_fields (w : Word) : uFormat (immUOf w) (rdOf w) (opcodeOf w) = w := by
  apply BitVec.eq_of_getLsbD_eq; intro i hi
  interval_cases i <;> simp [uFormat, immUOf, rdOf, opcodeOf]

theorem ujFormat_fields (w : Word) : ujFormat (immJOf w) (rdOf w) (opcodeOf w) = w := by
  apply BitVec.eq_of_getLsbD_eq; intro i hi
  interval_cases i <;> simp [ujFormat, immJOf, rdOf, opcodeOf]

end Sys2Proof.Machine
end

