-- ==== Sys2Proof/Laws/State.lean ====
section
/-! SUPPORT. One lemma per field per update of the state. -/

namespace Sys2Proof.Machine

/-! ### `State.elapse` -/

@[simp] theorem State.elapse_regs (s : State) : s.elapse.regs = s.regs := rfl
@[simp] theorem State.elapse_pc (s : State) : s.elapse.pc = s.pc := rfl
@[simp] theorem State.elapse_cycle64 (s : State) :
    s.elapse.cycle64 = s.cycle64 + Config.cycleAdvance s.draws := rfl
@[simp] theorem State.elapse_time64 (s : State) :
    s.elapse.time64 = s.time64 + Config.timeAdvance s.draws := rfl
@[simp] theorem State.elapse_instret64 (s : State) : s.elapse.instret64 = s.instret64 := rfl
@[simp] theorem State.elapse_mem (s : State) : s.elapse.mem = s.mem := rfl
@[simp] theorem State.elapse_stale (s : State) : s.elapse.stale = s.stale := rfl
@[simp] theorem State.elapse_map (s : State) : s.elapse.map = s.map := rfl
@[simp] theorem State.elapse_trap (s : State) : s.elapse.trap = s.trap := rfl
@[simp] theorem State.elapse_draws (s : State) : s.elapse.draws = s.draws + 1 := rfl
@[simp] theorem State.elapse_reg (s : State) (r : Reg) : s.elapse.reg r = s.reg r := rfl

/-! ### `State.retire` -/

@[simp] theorem State.retire_regs (s : State) (n : Word) : (s.retire n).regs = s.regs := rfl
@[simp] theorem State.retire_pc (s : State) (n : Word) : (s.retire n).pc = n := rfl
@[simp] theorem State.retire_cycle64 (s : State) (n : Word) :
    (s.retire n).cycle64 = s.cycle64 + Config.cycleAdvance s.draws := rfl
@[simp] theorem State.retire_time64 (s : State) (n : Word) :
    (s.retire n).time64 = s.time64 + Config.timeAdvance s.draws := rfl
@[simp] theorem State.retire_instret64 (s : State) (n : Word) :
    (s.retire n).instret64 = s.instret64 + 1 := rfl
@[simp] theorem State.retire_mem (s : State) (n : Word) : (s.retire n).mem = s.mem := rfl
@[simp] theorem State.retire_stale (s : State) (n : Word) : (s.retire n).stale = s.stale := rfl
@[simp] theorem State.retire_map (s : State) (n : Word) : (s.retire n).map = s.map := rfl
@[simp] theorem State.retire_trap (s : State) (n : Word) : (s.retire n).trap = s.trap := rfl
@[simp] theorem State.retire_draws (s : State) (n : Word) :
    (s.retire n).draws = s.draws + 1 := rfl
@[simp] theorem State.retire_reg (s : State) (n : Word) (r : Reg) :
    (s.retire n).reg r = s.reg r := rfl

/-! ### `State.raise` -/

@[simp] theorem State.raise_regs (s : State) (e : Exception) (x : Option Word) :
    (s.raise e x).regs = s.regs := rfl
@[simp] theorem State.raise_pc (s : State) (e : Exception) (x : Option Word) :
    (s.raise e x).pc = s.pc := rfl
@[simp] theorem State.raise_cycle64 (s : State) (e : Exception) (x : Option Word) :
    (s.raise e x).cycle64 = s.cycle64 + Config.cycleAdvance s.draws := rfl
@[simp] theorem State.raise_time64 (s : State) (e : Exception) (x : Option Word) :
    (s.raise e x).time64 = s.time64 + Config.timeAdvance s.draws := rfl
@[simp] theorem State.raise_instret64 (s : State) (e : Exception) (x : Option Word) :
    (s.raise e x).instret64 = s.instret64 := rfl
@[simp] theorem State.raise_mem (s : State) (e : Exception) (x : Option Word) :
    (s.raise e x).mem = s.mem := rfl
@[simp] theorem State.raise_stale (s : State) (e : Exception) (x : Option Word) :
    (s.raise e x).stale = s.stale := rfl
@[simp] theorem State.raise_map (s : State) (e : Exception) (x : Option Word) :
    (s.raise e x).map = s.map := rfl
@[simp] theorem State.raise_trap (s : State) (e : Exception) (x : Option Word) :
    (s.raise e x).trap = some ⟨0, e, s.pc, x⟩ := rfl
@[simp] theorem State.raise_draws (s : State) (e : Exception) (x : Option Word) :
    (s.raise e x).draws = s.draws + 1 := rfl
@[simp] theorem State.raise_reg (s : State) (e : Exception) (x : Option Word) (r : Reg) :
    (s.raise e x).reg r = s.reg r := rfl

/-! ### `State.setReg` -/

/-- A register write touches the registers only. -/
theorem State.setReg_fields (s : State) (r : Reg) (v : Word) :
    s.setReg r v = { s with regs := (s.setReg r v).regs } := by
  unfold State.setReg; split <;> rfl

@[simp] theorem State.setReg_pc (s : State) (r : Reg) (v : Word) : (s.setReg r v).pc = s.pc := by
  rw [State.setReg_fields]
@[simp] theorem State.setReg_cycle64 (s : State) (r : Reg) (v : Word) :
    (s.setReg r v).cycle64 = s.cycle64 := by rw [State.setReg_fields]
@[simp] theorem State.setReg_time64 (s : State) (r : Reg) (v : Word) :
    (s.setReg r v).time64 = s.time64 := by rw [State.setReg_fields]
@[simp] theorem State.setReg_instret64 (s : State) (r : Reg) (v : Word) :
    (s.setReg r v).instret64 = s.instret64 := by rw [State.setReg_fields]
@[simp] theorem State.setReg_mem (s : State) (r : Reg) (v : Word) :
    (s.setReg r v).mem = s.mem := by rw [State.setReg_fields]
@[simp] theorem State.setReg_stale (s : State) (r : Reg) (v : Word) :
    (s.setReg r v).stale = s.stale := by rw [State.setReg_fields]
@[simp] theorem State.setReg_map (s : State) (r : Reg) (v : Word) :
    (s.setReg r v).map = s.map := by rw [State.setReg_fields]
@[simp] theorem State.setReg_trap (s : State) (r : Reg) (v : Word) :
    (s.setReg r v).trap = s.trap := by rw [State.setReg_fields]
@[simp] theorem State.setReg_draws (s : State) (r : Reg) (v : Word) :
    (s.setReg r v).draws = s.draws := by rw [State.setReg_fields]

@[simp] theorem State.reg_zero (s : State) : s.reg 0#5 = 0#32 := by simp [State.reg]
@[simp] theorem State.setReg_zero (s : State) (v : Word) : s.setReg 0#5 v = s := by
  simp [State.setReg]

/-- Reading a register after writing one (rules R10, R21). -/
theorem State.reg_setReg (s : State) (r q : Reg) (v : Word) :
    (s.setReg r v).reg q = if q = r ∧ q ≠ 0#5 then v else s.reg q := by
  unfold State.setReg
  by_cases h0 : r = 0#5
  · subst h0; by_cases hq : q = 0#5 <;> simp [hq]
  · by_cases hq : q = 0#5
    · subst hq; simp [State.reg]
    · by_cases hqr : q = r
      · subst hqr; simp [State.reg, h0]
      · have hr : r.toNat ≠ 0 := fun h => h0 (BitVec.eq_of_toNat_eq (by simpa using h))
        have hq' : q.toNat ≠ 0 := fun h => hq (BitVec.eq_of_toNat_eq (by simpa using h))
        have : ¬ r.toNat - 1 = q.toNat - 1 := fun h =>
          hqr (BitVec.eq_of_toNat_eq (by omega))
        simp [State.reg, h0, hq, hqr, this]

/-! ### `State.storeByte` -/

/-- Storing a byte touches memory and the fetch view only. -/
theorem State.storeByte_fields (s : State) (a : Word) (v : Byte) :
    s.storeByte a v =
      { s with mem := (s.storeByte a v).mem, stale := (s.storeByte a v).stale } := by
  unfold State.storeByte; split
  · rfl
  · dsimp only; split <;> rfl

@[simp] theorem State.storeByte_regs (s : State) (a : Word) (v : Byte) :
    (s.storeByte a v).regs = s.regs := by rw [State.storeByte_fields]
@[simp] theorem State.storeByte_pc (s : State) (a : Word) (v : Byte) :
    (s.storeByte a v).pc = s.pc := by rw [State.storeByte_fields]
@[simp] theorem State.storeByte_cycle64 (s : State) (a : Word) (v : Byte) :
    (s.storeByte a v).cycle64 = s.cycle64 := by rw [State.storeByte_fields]
@[simp] theorem State.storeByte_time64 (s : State) (a : Word) (v : Byte) :
    (s.storeByte a v).time64 = s.time64 := by rw [State.storeByte_fields]
@[simp] theorem State.storeByte_instret64 (s : State) (a : Word) (v : Byte) :
    (s.storeByte a v).instret64 = s.instret64 := by rw [State.storeByte_fields]
@[simp] theorem State.storeByte_map (s : State) (a : Word) (v : Byte) :
    (s.storeByte a v).map = s.map := by rw [State.storeByte_fields]
@[simp] theorem State.storeByte_trap (s : State) (a : Word) (v : Byte) :
    (s.storeByte a v).trap = s.trap := by rw [State.storeByte_fields]
@[simp] theorem State.storeByte_draws (s : State) (a : Word) (v : Byte) :
    (s.storeByte a v).draws = s.draws := by rw [State.storeByte_fields]
@[simp] theorem State.storeByte_reg (s : State) (a : Word) (v : Byte) (r : Reg) :
    (s.storeByte a v).reg r = s.reg r := by rw [State.storeByte_fields]; rfl

/-! ### `State.storeBytes` -/

/-- Storing bytes touches memory and the fetch view only. -/
theorem State.storeBytes_fields (bs : List Byte) : ∀ (s : State) (a : Word),
    s.storeBytes a bs =
      { s with mem := (s.storeBytes a bs).mem, stale := (s.storeBytes a bs).stale } := by
  induction bs with
  | nil => intro s a; rfl
  | cons b bs ih =>
    intro s a
    simp only [State.storeBytes]
    rw [ih]
    simp

@[simp] theorem State.storeBytes_regs (s : State) (a : Word) (bs : List Byte) :
    (s.storeBytes a bs).regs = s.regs := by rw [State.storeBytes_fields]
@[simp] theorem State.storeBytes_pc (s : State) (a : Word) (bs : List Byte) :
    (s.storeBytes a bs).pc = s.pc := by rw [State.storeBytes_fields]
@[simp] theorem State.storeBytes_cycle64 (s : State) (a : Word) (bs : List Byte) :
    (s.storeBytes a bs).cycle64 = s.cycle64 := by rw [State.storeBytes_fields]
@[simp] theorem State.storeBytes_time64 (s : State) (a : Word) (bs : List Byte) :
    (s.storeBytes a bs).time64 = s.time64 := by rw [State.storeBytes_fields]
@[simp] theorem State.storeBytes_instret64 (s : State) (a : Word) (bs : List Byte) :
    (s.storeBytes a bs).instret64 = s.instret64 := by rw [State.storeBytes_fields]
@[simp] theorem State.storeBytes_map (s : State) (a : Word) (bs : List Byte) :
    (s.storeBytes a bs).map = s.map := by rw [State.storeBytes_fields]
@[simp] theorem State.storeBytes_trap (s : State) (a : Word) (bs : List Byte) :
    (s.storeBytes a bs).trap = s.trap := by rw [State.storeBytes_fields]
@[simp] theorem State.storeBytes_draws (s : State) (a : Word) (bs : List Byte) :
    (s.storeBytes a bs).draws = s.draws := by rw [State.storeBytes_fields]
@[simp] theorem State.storeBytes_reg (s : State) (a : Word) (bs : List Byte) (r : Reg) :
    (s.storeBytes a bs).reg r = s.reg r := by rw [State.storeBytes_fields]; rfl

/-! ### `State.resumeFrom` -/

@[simp] theorem State.resumeFrom_regs (s : State) (r : Resume) :
    (s.resumeFrom r).regs = r.regs := rfl
@[simp] theorem State.resumeFrom_pc (s : State) (r : Resume) : (s.resumeFrom r).pc = r.pc := rfl
@[simp] theorem State.resumeFrom_cycle64 (s : State) (r : Resume) :
    (s.resumeFrom r).cycle64 = r.cycle64 := rfl
@[simp] theorem State.resumeFrom_instret64 (s : State) (r : Resume) :
    (s.resumeFrom r).instret64 = r.instret64 := rfl
@[simp] theorem State.resumeFrom_time64 (s : State) (r : Resume) :
    (s.resumeFrom r).time64 = s.time64 + Config.timeAdvance s.draws := rfl
@[simp] theorem State.resumeFrom_mem (s : State) (r : Resume) :
    (s.resumeFrom r).mem = s.mem.writeEach r.stores := rfl
@[simp] theorem State.resumeFrom_stale (s : State) (r : Resume) :
    (s.resumeFrom r).stale = Stale.ofPairs r.fetchView := rfl
@[simp] theorem State.resumeFrom_map (s : State) (r : Resume) : (s.resumeFrom r).map = s.map := rfl
@[simp] theorem State.resumeFrom_trap (s : State) (r : Resume) : (s.resumeFrom r).trap = none := rfl
@[simp] theorem State.resumeFrom_draws (s : State) (r : Resume) :
    (s.resumeFrom r).draws = s.draws + 1 := rfl

end Sys2Proof.Machine
end

