-- ==== Sys2Proof/Laws/Memory.lean ====
section
/-! SUPPORT. Memory and the fetch view: reading after writing, and the canonical forms kept. -/

namespace Sys2Proof.Machine

/-- An address below every cell reads as an unlisted one. -/
theorem Memory.read_of_lt {m : Memory} {a : Nat} (h : ∀ c ∈ m, a < c.1) :
    Memory.read m a = unlisted := by
  induction m with
  | nil => rfl
  | cons c m ih =>
    have hc := h c (by simp)
    have : ¬ c.1 = a := by omega
    simp [Memory.read, this, ih fun d hd => h d (by simp [hd])]

/-- Reading after writing (rule R64). -/
theorem Memory.read_write {m : Memory} (h : m.Pairwise fun c d => c.1 < d.1) (a b : Nat)
    (v : Byte) : Memory.read (Memory.write m a v) b = if b = a then v else Memory.read m b := by
  induction m with
  | nil =>
    by_cases hv : v = unlisted <;> by_cases hb : b = a <;>
      simp_all [Memory.write, Memory.read, eq_comm]
  | cons c m ih =>
    obtain ⟨hc, hm⟩ := List.pairwise_cons.mp h
    obtain ⟨k, x⟩ := c
    by_cases hk : k < a
    · simp only [Memory.write, if_pos hk, Memory.read, ih hm]
      by_cases hb : k = b
      · have : ¬ b = a := by omega
        simp [hb, this]
      · simp [hb]
    · simp only [Memory.write, if_neg hk]
      have hrest : ∀ b, b ≠ a →
          Memory.read (if k = a then m else (k, x) :: m) b = Memory.read ((k, x) :: m) b := by
        intro b hb
        by_cases hka : k = a
        · have : ¬ k = b := by omega
          simp [hka, Memory.read]; intro hab; omega
        · simp [hka]
      have hlow : Memory.read (if k = a then m else (k, x) :: m) a = unlisted := by
        apply Memory.read_of_lt
        intro d hd
        by_cases hka : k = a
        · rw [if_pos hka] at hd; have := hc d hd; simp only at this; omega
        · rw [if_neg hka] at hd
          rcases List.mem_cons.mp hd with rfl | hd
          · simp only; omega
          · have := hc d hd; simp only at this; omega
      by_cases hb : b = a
      · subst hb
        by_cases hv : v = unlisted
        · simp [hv, hlow]
        · simp [hv, Memory.read]
      · by_cases hv : v = unlisted
        · simp [hv, hb, hrest b hb]
        · have : ¬ a = b := fun h => hb h.symm
          simp only [hv, if_false, hb, Memory.read, this]
          exact hrest b hb

/-- Every cell of a written memory is an old cell or the new one. -/
theorem Memory.mem_write {m : Memory} {a : Nat} {v : Byte} {c : Host.Cell}
    (h : c ∈ Memory.write m a v) : c ∈ m ∨ (c = (a, v) ∧ v ≠ unlisted) := by
  induction m with
  | nil =>
    by_cases hv : v = unlisted <;> simp_all [Memory.write]
  | cons d m ih =>
    obtain ⟨k, x⟩ := d
    simp only [Memory.write] at h
    split at h
    · rcases List.mem_cons.mp h with rfl | h
      · simp
      · rcases ih h with h | h
        · simp [h]
        · exact .inr h
    · split at h
      · split at h <;> simp_all
      · rcases List.mem_cons.mp h with rfl | h
        · simp_all
        · split at h <;> simp_all

/-- Every memory operation keeps the canonical form. -/
theorem Memory.write_wf {m : Memory} (h : Memory.wf m) {a : Nat} (ha : a < 2 ^ 32) (v : Byte) :
    Memory.wf (Memory.write m a v) := by
  refine ⟨?_, fun c hc => ?_⟩
  · obtain ⟨h, -⟩ := h
    induction m with
    | nil => by_cases hv : v = unlisted <;> simp [Memory.write, hv]
    | cons d m ih =>
      obtain ⟨hd, hm⟩ := List.pairwise_cons.mp h
      obtain ⟨k, x⟩ := d
      simp only [Memory.write]
      split
      · refine List.pairwise_cons.mpr ⟨fun c hc => ?_, ih hm⟩
        rcases Memory.mem_write hc with hc | ⟨rfl, -⟩
        · exact hd c hc
        · assumption
      · rename_i hka
        by_cases hk : k = a
        · simp only [hk, if_true]
          split
          · exact hm
          · exact List.pairwise_cons.mpr ⟨fun c hc => by
              have := hd c hc; simp only at this ⊢; omega, hm⟩
        · simp only [hk, if_false]
          split
          · exact h
          · refine List.pairwise_cons.mpr ⟨fun c hc => ?_, h⟩
            rcases List.mem_cons.mp hc with rfl | hc
            · simp only; omega
            · have := hd c hc; simp only at this ⊢; omega
  · rcases Memory.mem_write hc with hc | ⟨rfl, hv⟩
    · exact h.2 c hc
    · exact ⟨ha, hv⟩

/-- Writing bytes in order keeps the canonical form. -/
theorem Memory.writeEach_wf {m : Memory} (h : Memory.wf m) (l : List (Word × Byte)) :
    Memory.wf (m.writeEach l) := by
  induction l generalizing m with
  | nil => exact h
  | cons p l ih => exact ih (Memory.write_wf h p.1.isLt p.2)

/-- A byte after bytes were written in order: the last write to its address counts. -/
theorem Memory.read_writeEach {m : Memory} (h : Memory.wf m) (l : List (Word × Byte)) (a : Word) :
    (m.writeEach l).read a.toNat =
      ((l.reverse.find? fun p => p.1 = a).map Prod.snd).getD (m.read a.toNat) := by
  induction l generalizing m with
  | nil => rfl
  | cons p l ih =>
    obtain ⟨b, v⟩ := p
    rw [Memory.writeEach, ih (Memory.write_wf h b.isLt v), Memory.read_write h.1]
    simp only [List.reverse_cons, List.find?_append]
    cases l.reverse.find? fun p => decide (p.1 = a) with
    | some x => simp
    | none =>
      by_cases hq : b = a
      · simp [hq]
      · have : ¬ a.toNat = b.toNat := fun e => hq (BitVec.eq_of_toNat_eq e.symm)
        simp [hq, this]

/-- The empty memory is in canonical form. -/
theorem Memory.wf_nil : Memory.wf [] := by simp [Memory.wf]

/-! ### The fetch view -/

/-- The order of the fetch view tells pairs apart. -/
theorem staleKey_inj {c d : Host.Cell} (h : staleKey c = staleKey d) : c = d := by
  obtain ⟨a, x⟩ := c
  obtain ⟨b, y⟩ := d
  simp only [staleKey] at h
  have hx := x.isLt
  have hy := y.isLt
  have hab : a = b := by omega
  have hxy : x = y := BitVec.eq_of_toNat_eq (by omega)
  rw [hab, hxy]

/-- Adding a pair adds that pair and no other. -/
theorem Stale.mem_insert (t : Stale) (c d : Host.Cell) :
    d ∈ Stale.insert t c ↔ d = c ∨ d ∈ t := by
  induction t with
  | nil => simp [Stale.insert]
  | cons e t ih =>
    simp only [Stale.insert]
    split
    · simp [ih, or_left_comm]
    · split
      · rename_i h; subst h; simp
      · simp

/-- Adding a pair keeps the canonical form of the fetch view. -/
theorem Stale.insert_wf {t : Stale} (h : Stale.wf t) {c : Host.Cell} (hc : c.1 < 2 ^ 32) :
    Stale.wf (Stale.insert t c) := by
  refine ⟨?_, fun d hd => ?_⟩
  · obtain ⟨h, -⟩ := h
    induction t with
    | nil => simp [Stale.insert]
    | cons e t ih =>
      obtain ⟨he, ht⟩ := List.pairwise_cons.mp h
      simp only [Stale.insert]
      split
      · refine List.pairwise_cons.mpr ⟨fun d hd => ?_, ih ht⟩
        rcases (Stale.mem_insert t c d).mp hd with rfl | hd
        · assumption
        · exact he d hd
      · split
        · exact h
        · rename_i hlt hne
          have hce : staleKey c < staleKey e := by
            have : staleKey e ≠ staleKey c := fun h => hne (staleKey_inj h)
            omega
          refine List.pairwise_cons.mpr ⟨fun d hd => ?_, h⟩
          rcases List.mem_cons.mp hd with rfl | hd
          · exact hce
          · exact hce.trans (he d hd)
  · rcases (Stale.mem_insert t c d).mp hd with rfl | hd
    · exact hc
    · exact h.2 d hd

/-- The stale values of an address are the second halves of its pairs. -/
theorem Stale.mem_values (t : Stale) (a : Nat) (v : Byte) :
    v ∈ Stale.values t a ↔ (a, v) ∈ t := by
  simp only [Stale.values, List.mem_filterMap]
  constructor
  · rintro ⟨⟨b, w⟩, hm, h⟩
    simp only at h
    split at h
    · rename_i hb; simp only [Option.some.injEq] at h; subst hb h; exact hm
    · simp at h
  · intro h; exact ⟨(a, v), h, by simp⟩

/-- The stale values of an address after a pair is added. -/
theorem Stale.mem_values_insert (t : Stale) (c : Host.Cell) (a : Nat) (v : Byte) :
    v ∈ Stale.values (Stale.insert t c) a ↔ c = (a, v) ∨ v ∈ Stale.values t a := by
  simp only [Stale.mem_values, Stale.mem_insert, eq_comm]

/-- A fetch view built from pairs is in canonical form. -/
theorem Stale.ofPairs_wf (l : List (Word × Byte)) : Stale.wf (Stale.ofPairs l) := by
  induction l with
  | nil => simp [Stale.ofPairs, Stale.wf]
  | cons p l ih => exact Stale.insert_wf ih p.1.isLt

/-- A fetch view built from pairs holds exactly these. -/
theorem Stale.mem_values_ofPairs (l : List (Word × Byte)) (a : Word) (v : Byte) :
    v ∈ Stale.values (Stale.ofPairs l) a.toNat ↔ (a, v) ∈ l := by
  induction l with
  | nil => simp [Stale.ofPairs, Stale.values]
  | cons p l ih =>
    obtain ⟨b, w⟩ := p
    rw [Stale.ofPairs, Stale.mem_values_insert, ih, List.mem_cons, Prod.mk.injEq, Prod.mk.injEq]
    exact or_congr_left ⟨fun ⟨h, g⟩ => ⟨BitVec.eq_of_toNat_eq h.symm, g.symm⟩,
      fun ⟨h, g⟩ => ⟨by rw [h], g.symm⟩⟩

/-- Two fetch views in canonical form that hold the same pairs are equal data. -/
theorem Stale.eq_of_mem_iff {t u : Stale} (ht : Stale.wf t) (hu : Stale.wf u)
    (h : ∀ c, c ∈ t ↔ c ∈ u) : t = u := by
  obtain ⟨ht, -⟩ := ht
  obtain ⟨hu, -⟩ := hu
  induction t generalizing u with
  | nil => cases u with
    | nil => rfl
    | cons d u => exact absurd ((h d).mpr (by simp)) (by simp)
  | cons c t ih => cases u with
    | nil => exact absurd ((h c).mp (by simp)) (by simp)
    | cons d u =>
      obtain ⟨hc, ht'⟩ := List.pairwise_cons.mp ht
      obtain ⟨hd, hu'⟩ := List.pairwise_cons.mp hu
      have hcd : c = d := by
        rcases List.mem_cons.mp ((h c).mp (by simp)) with e | hcu
        · exact e
        · rcases List.mem_cons.mp ((h d).mpr (by simp)) with e | hdt
          · exact e.symm
          · have := hd c hcu; have := hc d hdt; omega
      subst hcd
      refine congrArg (c :: ·) (ih (fun e => ⟨fun he => ?_, fun he => ?_⟩) ht' hu')
      · rcases List.mem_cons.mp ((h e).mp (List.mem_cons_of_mem _ he)) with rfl | he'
        · exact absurd (hc e he) (Nat.lt_irrefl _)
        · exact he'
      · rcases List.mem_cons.mp ((h e).mpr (List.mem_cons_of_mem _ he)) with rfl | he'
        · exact absurd (hd e he) (Nat.lt_irrefl _)
        · exact he'

end Sys2Proof.Machine
end

