-- ==== Sys2Proof/Laws/Ops.lean ====
section
/-! SUPPORT. What each shared operation can do, said once: accesses, stores, fetches, the endings of the
meanings, and the environment's answer. -/

namespace Sys2Proof.Machine

/-! ### Accesses (rules R51 to R53, R61) -/

/-- A list of bytes is accessible when each byte is. -/
theorem State.accessibleAll_iff (s : State) (k : AccessKind) (a : Word) (n : Nat) :
    s.accessibleAll k a n = true ↔ AllAccessible s k a n := by
  simp [State.accessibleAll, AllAccessible]

/-- An access that is not allowed has a forbidden byte. -/
theorem State.accessibleAll_false_iff (s : State) (k : AccessKind) (a : Word) (n : Nat) :
    s.accessibleAll k a n = false ↔ ¬ AllAccessible s k a n := by
  rw [← State.accessibleAll_iff]; simp

/-- The parameters decide ACCESSIBLE. -/
theorem State.accessible_congr {s t : State} (h : t.map = s.map) (k : AccessKind) (a : Word) :
    t.accessible k a = s.accessible k a := by simp [State.accessible, h]

/-- The parameters decide IO_REGION. -/
theorem State.isIo_congr {s t : State} (h : t.map = s.map) (a : Word) : t.isIo a = s.isIo a := by
  simp [State.isIo, h]

/-- An allowed one-byte read answers the byte observed (rule R51). -/
theorem State.memRead8_of {s : State} {a : Word} (h : AllAccessible s .read a 1) :
    s.memRead8 a = some (s.observe .read a) := by
  simp [State.memRead8, (State.accessibleAll_iff ..).mpr h]

/-- An allowed two-byte read answers the little-endian halfword observed (rule R51). -/
theorem State.memRead16_of {s : State} {a : Word} (h : AllAccessible s .read a 2) :
    s.memRead16 a = some (leHalf (s.observe .read a) (s.observe .read (a + 1))) := by
  simp [State.memRead16, (State.accessibleAll_iff ..).mpr h]

/-- An allowed four-byte read answers the little-endian word observed (rule R51). -/
theorem State.memRead32_of {s : State} {a : Word} (h : AllAccessible s .read a 4) :
    s.memRead32 a = some (leWord (s.observe .read a) (s.observe .read (a + 1))
      (s.observe .read (a + 2)) (s.observe .read (a + 3))) := by
  simp [State.memRead32, (State.accessibleAll_iff ..).mpr h]

theorem State.memRead8_none {s : State} {a : Word} (h : ¬ AllAccessible s .read a 1) :
    s.memRead8 a = none := by
  simp [State.memRead8, (State.accessibleAll_false_iff ..).mpr h]

theorem State.memRead16_none {s : State} {a : Word} (h : ¬ AllAccessible s .read a 2) :
    s.memRead16 a = none := by
  simp [State.memRead16, (State.accessibleAll_false_iff ..).mpr h]

theorem State.memRead32_none {s : State} {a : Word} (h : ¬ AllAccessible s .read a 4) :
    s.memRead32 a = none := by
  simp [State.memRead32, (State.accessibleAll_false_iff ..).mpr h]

/-- The number of one observed byte. -/
theorem observedNat_one (s : State) (a : Word) :
    observedNat s a 1 = (s.observe .read a).toNat := by simp [observedNat]

/-- The number of an observed halfword. -/
theorem observedNat_two (s : State) (a : Word) :
    observedNat s a 2 = (leHalf (s.observe .read a) (s.observe .read (a + 1))).toNat := by
  simp [observedNat, leHalf_toNat]

/-- The number of an observed word. -/
theorem observedNat_four (s : State) (a : Word) :
    observedNat s a 4 = (leWord (s.observe .read a) (s.observe .read (a + 1))
      (s.observe .read (a + 2)) (s.observe .read (a + 3))).toNat := by
  simp [observedNat, leWord_toNat]

/-! ### Stores (rules R52, R68) -/

/-- A byte after one byte is stored. -/
theorem State.byteAt_storeByte {s : State} (h : Memory.wf s.mem) (a b : Word) (v : Byte) :
    (s.storeByte a v).byteAt b = if b = a ∧ s.isIo a = false then v else s.byteAt b := by
  unfold State.storeByte State.byteAt
  by_cases hio : s.isIo a = true
  · simp [hio]
  · by_cases hv : s.mem.read a.toNat = v
    · by_cases hb : b = a
      · subst hb; simp [hio, hv]
      · simp [hio, hv, hb]
    · by_cases hb : b = a
      · subst hb; simp [hio, hv, Memory.read_write h.1]
      · have : ¬ b.toNat = a.toNat := fun e => hb (BitVec.eq_of_toNat_eq e)
        simp [hio, hv, Memory.read_write h.1, hb, this]

/-- Storing a byte keeps the canonical form of memory. -/
theorem State.storeByte_mem_wf {s : State} (h : Memory.wf s.mem) (a : Word) (v : Byte) :
    Memory.wf (s.storeByte a v).mem := by
  unfold State.storeByte
  split
  · exact h
  · dsimp only
    split
    · exact h
    · exact Memory.write_wf h a.isLt v

/-- Storing a byte keeps the canonical form of the fetch view. -/
theorem State.storeByte_stale_wf {s : State} (h : Stale.wf s.stale) (a : Word) (v : Byte) :
    Stale.wf (s.storeByte a v).stale := by
  unfold State.storeByte
  split
  · exact h
  · dsimp only
    split
    · exact h
    · exact Stale.insert_wf h a.isLt

/-- Storing bytes keeps the canonical form of memory. -/
theorem State.storeBytes_mem_wf (bs : List Byte) : ∀ {s : State} (a : Word),
    Memory.wf s.mem → Memory.wf (s.storeBytes a bs).mem := by
  induction bs with
  | nil => intro s a h; exact h
  | cons b bs ih => intro s a h; exact ih _ (State.storeByte_mem_wf h a b)

/-- Storing bytes keeps the canonical form of the fetch view. -/
theorem State.storeBytes_stale_wf (bs : List Byte) : ∀ {s : State} (a : Word),
    Stale.wf s.stale → Stale.wf (s.storeBytes a bs).stale := by
  induction bs with
  | nil => intro s a h; exact h
  | cons b bs ih => intro s a h; exact ih _ (State.storeByte_stale_wf h a b)

/-- A fetch view after one byte is stored. -/
theorem State.values_storeByte (s : State) (a b : Word) (v x : Byte) :
    x ∈ (s.storeByte a v).stale.values b.toNat ↔ x ∈ s.stale.values b.toNat ∨
      (b = a ∧ s.isIo a = false ∧ s.byteAt a ≠ v ∧ x = s.byteAt a) := by
  unfold State.storeByte State.byteAt
  by_cases hio : s.isIo a = true
  · simp [hio]
  · by_cases hv : s.mem.read a.toNat = v
    · simp [hio, hv]
    · have : a.toNat = b.toNat ↔ b = a :=
        ⟨fun e => (BitVec.eq_of_toNat_eq e).symm, fun e => e ▸ rfl⟩
      simp only [hio, hv, Bool.false_eq_true, if_false]
      rw [Stale.mem_values_insert, Prod.mk.injEq, this]
      constructor
      · rintro (⟨hb, hx⟩ | h)
        · exact .inr ⟨hb, by simp, by simpa using hv, hx.symm⟩
        · exact .inl h
      · rintro (h | ⟨hb, -, -, hx⟩)
        · exact .inr h
        · exact .inl ⟨hb, hx.symm⟩

/-- How far an address lies from the next one. -/
theorem sub_add_one_toNat {a b : Word} (h : b ≠ a) :
    (b - (a + 1)).toNat = (b - a).toNat - 1 ∧ 0 < (b - a).toNat := by
  have : (b - a).toNat ≠ 0 := fun e => h (by
    have : b - a = 0 := BitVec.eq_of_toNat_eq (by simpa using e)
    bv_omega)
  constructor
  · bv_omega
  · omega

/-- A byte after bytes are stored: a device's byte and a byte outside the range read as before. -/
theorem State.byteAt_storeBytes (bs : List Byte) : ∀ {s : State} (a b : Word),
    Memory.wf s.mem → bs.length ≤ 2 ^ 32 →
    (s.storeBytes a bs).byteAt b =
      if s.isIo b then s.byteAt b else (bs[(b - a).toNat]?).getD (s.byteAt b) := by
  induction bs with
  | nil => intro s a b _ _; simp [State.storeBytes]
  | cons v bs ih =>
    intro s a b h hl
    simp only [List.length_cons] at hl
    rw [State.storeBytes, ih _ _ (State.storeByte_mem_wf h a v) (by omega),
      State.isIo_congr (State.storeByte_map ..), State.byteAt_storeByte h]
    by_cases hb : b = a
    · subst hb
      have h1 : (b - (b + 1)).toNat = 2 ^ 32 - 1 := by bv_omega
      have h2 : bs[2 ^ 32 - 1]? = none := by simp; omega
      cases hio : s.isIo b <;> simp only [h1, h2] <;> simp
    · obtain ⟨h1, h2⟩ := sub_add_one_toNat hb
      obtain ⟨k, hk⟩ : ∃ k, (b - a).toNat = k + 1 := ⟨(b - a).toNat - 1, by omega⟩
      rw [h1, hk]
      simp [hb]

/-- A fetch view after bytes are stored: it gains the old value of each byte that changed, and nothing
else. -/
theorem State.staleGrew_storeBytes (bs : List Byte) : ∀ {s : State} (a : Word),
    Memory.wf s.mem → bs.length ≤ 2 ^ 32 → StaleGrew s (s.storeBytes a bs) := by
  induction bs with
  | nil => intro s a _ _ b x; simp [State.storeBytes]
  | cons v bs ih =>
    intro s a h hl b x
    simp only [List.length_cons] at hl
    have hw := State.storeByte_mem_wf h a v
    rw [State.storeBytes, ih (a + 1) hw (by omega) b x, State.values_storeByte,
      State.byteAt_storeByte h, State.byteAt_storeBytes bs _ _ hw (by omega),
      State.isIo_congr (State.storeByte_map ..), State.byteAt_storeByte h]
    by_cases hb : b = a
    · subst hb
      have h1 : (b - (b + 1)).toNat = 2 ^ 32 - 1 := by bv_omega
      have h2 : bs[2 ^ 32 - 1]? = none := by simp; omega
      cases hio : s.isIo b <;> simp only [h1, h2] <;> simp
      grind
    · simp [hb]

/-- Memory and the fetch view after a store (rules R52, R68). -/
theorem State.storedAt_storeBytes {s : State} (h : Memory.wf s.mem) (a : Word) (n : Nat)
    (hn : n ≤ 4) (v : Word) : StoredAt s (s.storeBytes a (bytesOf v n)) a n v := by
  have hl : (bytesOf v n).length ≤ 2 ^ 32 := by simp [bytesOf]; omega
  constructor
  · intro j hj hio
    have : (a + BitVec.ofNat 32 j - a).toNat = j := by
      have : a + BitVec.ofNat 32 j - a = BitVec.ofNat 32 j := by bv_omega
      rw [this]; simp; omega
    rw [State.byteAt_storeBytes _ _ _ h hl, hio, this]
    simp [bytesOf, hj, byteOf_toNat]
  · intro b hb
    rw [State.byteAt_storeBytes _ _ _ h hl]
    cases hio : s.isIo b
    · have : ¬ (b - a).toNat < n := fun hlt => by
        have := hb _ hlt (by rw [BitVec.ofNat_toNat]; simp)
        simp [hio] at this
      have : (bytesOf v n)[(b - a).toNat]? = none := by simp only [bytesOf]; simpa using this
      rw [this]; simp
    · simp

/-- A byte of ordinary memory observed after it was stored (rule R64). -/
theorem State.observe_storeBytes {s : State} (h : Memory.wf s.mem) {a : Word} {n j : Nat}
    (hn : n ≤ 4) (hj : j < n) (hio : s.isIo (a + BitVec.ofNat 32 j) = false) (k : AccessKind)
    (v : Word) :
    (s.storeBytes a (bytesOf v n)).observe k (a + BitVec.ofNat 32 j) = byteOf v j := by
  have hb := State.byteAt_storeBytes (bytesOf v n) a (a + BitVec.ofNat 32 j) h
    (by simp [bytesOf]; omega)
  have hsub : (a + BitVec.ofNat 32 j - a).toNat = j := by
    have : a + BitVec.ofNat 32 j - a = BitVec.ofNat 32 j := by bv_omega
    rw [this]; simp; omega
  rw [hio, hsub] at hb
  rw [State.observe, State.isIo_congr (State.storeBytes_map ..), hio]
  refine Eq.trans hb ?_
  simp [bytesOf, hj]

/-- An allowed store writes its bytes (rule R52). -/
theorem State.memWrite_of {s : State} {a : Word} {n : Nat} (h : AllAccessible s .write a n)
    (v : Word) : s.memWrite a n v = some (s.storeBytes a (bytesOf v n)) := by
  simp [State.memWrite, (State.accessibleAll_iff ..).mpr h]

/-- A store that is not allowed writes nothing (rules R52, R62). -/
theorem State.memWrite_none {s : State} {a : Word} {n : Nat} (h : ¬ AllAccessible s .write a n)
    (v : Word) : s.memWrite a n v = none := by
  simp [State.memWrite, (State.accessibleAll_false_iff ..).mpr h]

/-! ### Fetches (rules R53, R68) -/

/-- A byte not overwritten since the last FENCE.I is fetched as a load would see it. -/
theorem State.fetchByte_fresh {s : State} {a : Word} (h : s.stale.values a.toNat = []) :
    s.fetchByte a = s.observe .fetch a := by
  simp [State.fetchByte, h]

/-- A fetched byte is the current one or a stale one. -/
theorem State.fetchByte_mem (s : State) (a : Word) : s.fetchByte a ∈ s.fetchChoices a := by
  unfold State.fetchByte State.fetchChoices
  split
  · simp
  · rename_i v vs hv
    rw [hv]
    dsimp only
    rw [List.getD_eq_getElem _ _ (Nat.mod_lt _ (by simp))]
    exact List.getElem_mem _

/-- An allowed fetch answers the word of its four fetched bytes. -/
theorem State.fetch_of {s : State} {a : Word} (h : AllAccessible s .fetch a 4) :
    s.fetch a = some (leWord (s.fetchByte a) (s.fetchByte (a + 1)) (s.fetchByte (a + 2))
      (s.fetchByte (a + 3))) := by
  simp [State.fetch, (State.accessibleAll_iff ..).mpr h]

/-- A fetch that is not allowed answers no word. -/
theorem State.fetch_none {s : State} {a : Word} (h : ¬ AllAccessible s .fetch a 4) :
    s.fetch a = none := by
  simp [State.fetch, (State.accessibleAll_false_iff ..).mpr h]

/-! ### The endings of the meanings -/

/-- A target is aligned when it is a multiple of 4. -/
theorem aligned_iff (t : Word) : aligned t = true ↔ t.toNat % 4 = 0 := by
  have : t.extractLsb' 0 2 = 0 ↔ (t.extractLsb' 0 2).toNat = 0 :=
    ⟨fun h => by simp [h], fun h => BitVec.eq_of_toNat_eq (by simpa using h)⟩
  simp only [aligned, beq_iff_eq, this, BitVec.extractLsb'_toNat]
  simp

/-- The register after a write (rules R10, R21). -/
theorem State.wroteReg_setReg (s : State) (rd : Reg) (v : Word) : WroteReg s (s.setReg rd v) rd v := by
  intro r
  rw [State.reg_setReg]
  by_cases h0 : r = 0#5
  · subst h0; simp
  · by_cases h : r = rd
    · subst h; simp [h0]
    · simp [h0, h]

/-- Taking an exception changes the trap record and the clocks only (rules R241, R242). -/
theorem State.trapped_raise (s : State) (e : Exception) (x : Option Word) :
    Trapped s (s.raise e x) e x :=
  ⟨rfl, rfl, fun _ => rfl, fun _ => rfl, rfl, rfl, rfl, rfl, rfl, rfl⟩

/-- Retiring changes the pc, the count and the clocks only. -/
theorem State.movedOnly_retire (s : State) (npc : Word) : MovedOnly s (s.retire npc) npc :=
  ⟨fun _ => rfl, fun _ => rfl, rfl, rfl, rfl, rfl, rfl, rfl, rfl, rfl⟩

/-- A register write and retirement. -/
theorem State.wroteOnly_retire (s : State) (rd : Reg) (v npc : Word) :
    WroteOnly s ((s.setReg rd v).retire npc) rd v npc := by
  refine ⟨fun r => s.wroteReg_setReg rd v r, fun a => ?_, ?_, ?_, ?_, ?_, ?_, ?_, ?_, ?_⟩ <;>
    simp [State.byteAt]

/-- `State.finish` writes its register and goes on. -/
theorem State.finish_spec (s : State) (rd : Reg) (v : Word) :
    ∃ t, s.finish rd v = .next t ∧ WroteOnly s t rd v (s.pc + 4) :=
  ⟨_, rfl, s.wroteOnly_retire rd v _⟩

/-- A jump to an aligned target links and goes there. -/
theorem State.jump_spec {s : State} {t : Word} (h : aligned t = true) (rd : Reg) :
    ∃ u, s.jump rd t = .next u ∧ WroteOnly s u rd (s.pc + 4) t :=
  ⟨_, by simp [State.jump, h], s.wroteOnly_retire rd _ _⟩

/-- A jump to a misaligned target raises, no link written (rule R158). -/
theorem State.jump_trap {s : State} {t : Word} (h : aligned t = false) (rd : Reg) :
    ∃ u, s.jump rd t = .next u ∧ Trapped s u .instructionAddressMisaligned (some t) :=
  ⟨_, by simp [State.jump, h], s.trapped_raise _ _⟩

/-- A branch taken to an aligned target goes there. -/
theorem State.branch_taken {s : State} {t : Word} (h : aligned t = true) :
    ∃ u, s.branch true t = .next u ∧ MovedOnly s u t :=
  ⟨_, by simp [State.branch, h], s.movedOnly_retire _⟩

/-- A branch taken to a misaligned target raises (rule R158). -/
theorem State.branch_trap {s : State} {t : Word} (h : aligned t = false) :
    ∃ u, s.branch true t = .next u ∧ Trapped s u .instructionAddressMisaligned (some t) :=
  ⟨_, by simp [State.branch, h], s.trapped_raise _ _⟩

/-- A branch not taken goes on, whatever its target. -/
theorem State.branch_notTaken (s : State) (t : Word) :
    ∃ u, s.branch false t = .next u ∧ MovedOnly s u (s.pc + 4) :=
  ⟨_, by simp [State.branch], s.movedOnly_retire _⟩

/-- An allowed store completes (rules R52, R68). -/
theorem State.store_spec {s : State} (h : Memory.wf s.mem) {ea : Word} {n : Nat} (hn : n ≤ 4)
    (ha : AllAccessible s .write ea n) (v : Word) :
    ∃ t, s.store ea n v = .next t ∧ SameRegs s t ∧ StoredAt s t ea n v ∧ StaleGrew s t ∧
      Retired s t (s.pc + 4) := by
  have he : s.store ea n v = .next ((s.storeBytes ea (bytesOf v n)).retire (s.pc + 4)) := by
    simp only [State.store, State.memWrite_of ha]
  refine ⟨_, he, fun r => by simp,
    State.storedAt_storeBytes h ea n hn v,
    State.staleGrew_storeBytes _ ea h (by simp [bytesOf]; omega), ?_, ?_, ?_, ?_, ?_, ?_, ?_⟩ <;>
    simp

/-- A store that is not allowed raises with nothing written (rules R52, R62). -/
theorem State.store_trap {s : State} {ea : Word} {n : Nat} (ha : ¬ AllAccessible s .write ea n)
    (v : Word) :
    ∃ t, s.store ea n v = .next t ∧ Trapped s t .storeAccessFault (some ea) :=
  ⟨_, by simp only [State.store, State.memWrite_none ha], s.trapped_raise _ _⟩

/-- Every write to an implemented or unimplemented CSR is refused (rules R34, R209, R214). -/
theorem csrWrite_none (a : CsrAddr) (v : Word) (s : State) : csrWrite a v s = none := by
  unfold csrWrite
  split
  · rename_i c _; cases c <;> rfl
  · rfl

/-- A CSR instruction that writes raises, nothing changed (rules R211, R214). -/
theorem State.csrAccess_write (s : State) (w : Word) (rd : Reg) (a : CsrAddr) (reads : Bool)
    (f : Word → Word) : s.csrAccess w rd a reads true f = .next (s.illegal w) := by
  unfold State.csrAccess
  split
  · rfl
  · simp [csrWrite_none]

/-- A CSR instruction that only reads an implemented CSR writes its register and goes on. -/
theorem State.csrAccess_read {s : State} {a : CsrAddr} {c : Csr} (h : Csr.ofAddr a = some c)
    (w : Word) (rd : Reg) (f : Word → Word) :
    ∃ t, s.csrAccess w rd a true false f = .next t ∧ WroteOnly s t rd (c.value s) (s.pc + 4) :=
  ⟨_, by simp [State.csrAccess, csrRead, h], s.wroteOnly_retire rd _ _⟩

/-- A CSR instruction that names no implemented CSR raises. -/
theorem State.csrAccess_unimplemented {s : State} {a : CsrAddr} (h : Csr.ofAddr a = none)
    (w : Word) (rd : Reg) (f : Word → Word) :
    s.csrAccess w rd a true false f = .next (s.illegal w) := by
  simp [State.csrAccess, csrRead, h]

/-! ### The environment's answer (rule R243) -/

/-- What the environment lets a hart go on with is in canonical form. -/
theorem State.resumeFrom_wf {s : State} (h : Memory.wf s.mem) (r : Resume) :
    Memory.wf (s.resumeFrom r).mem ∧ Stale.wf (s.resumeFrom r).stale :=
  ⟨Memory.writeEach_wf h _, Stale.ofPairs_wf _⟩

/-- A handed-over hart that goes on was resumed, at an aligned pc. -/
theorem State.answered_next {s t : State} {q : EeiAnswer} (h : s.answered q = .next t) :
    ∃ r, q = .resume r ∧ aligned r.pc = true ∧ t = s.resumeFrom r := by
  cases q with
  | halt => cases h
  | resume r =>
    simp only [State.answered] at h
    split at h
    · rename_i ha; cases h; exact ⟨r, rfl, ha, rfl⟩
    · cases h

end Sys2Proof.Machine
end

