-- ==== Sys2Proof/Laws/Exec.lean ====
section
/-! SUPPORT. Each instruction's meaning as the shared operation it comes down to: the equations by which
a proof opens `exec`; and everything an instruction can do, said once. -/

namespace Sys2Proof.Machine

theorem exec_lui (rd : Reg) (imm20 : BitVec 20) (s : State) :
    exec (.lui rd imm20) s =
      s.finish rd (immU imm20) := rfl
theorem exec_auipc (rd : Reg) (imm20 : BitVec 20) (s : State) :
    exec (.auipc rd imm20) s =
      s.finish rd (s.pc + immU imm20) := rfl
theorem exec_jal (rd : Reg) (off : BitVec 21) (s : State) :
    exec (.jal rd off) s =
      s.jump rd (s.jalTarget off) := rfl
theorem exec_jalr (rd rs1 : Reg) (off : BitVec 12) (s : State) :
    exec (.jalr rd rs1 off) s =
      s.jump rd (s.jalrTarget rs1 off) := rfl
theorem exec_beq (rs1 rs2 : Reg) (off : BitVec 13) (s : State) :
    exec (.beq rs1 rs2 off) s =
      s.branch (s.reg rs1 == s.reg rs2) (s.branchTarget off) := rfl
theorem exec_bne (rs1 rs2 : Reg) (off : BitVec 13) (s : State) :
    exec (.bne rs1 rs2 off) s =
      s.branch (s.reg rs1 != s.reg rs2) (s.branchTarget off) := rfl
theorem exec_blt (rs1 rs2 : Reg) (off : BitVec 13) (s : State) :
    exec (.blt rs1 rs2 off) s =
      s.branch (ltSigned (s.reg rs1) (s.reg rs2)) (s.branchTarget off) := rfl
theorem exec_bge (rs1 rs2 : Reg) (off : BitVec 13) (s : State) :
    exec (.bge rs1 rs2 off) s =
      s.branch (!ltSigned (s.reg rs1) (s.reg rs2)) (s.branchTarget off) := rfl
theorem exec_bltu (rs1 rs2 : Reg) (off : BitVec 13) (s : State) :
    exec (.bltu rs1 rs2 off) s =
      s.branch (ltUnsigned (s.reg rs1) (s.reg rs2)) (s.branchTarget off) := rfl
theorem exec_bgeu (rs1 rs2 : Reg) (off : BitVec 13) (s : State) :
    exec (.bgeu rs1 rs2 off) s =
      s.branch (!ltUnsigned (s.reg rs1) (s.reg rs2)) (s.branchTarget off) := rfl
theorem exec_lb (rd rs1 : Reg) (off : BitVec 12) (s : State) :
    exec (.lb rd rs1 off) s =
      s.finishLoad rd (s.effAddr rs1 off) ((s.memRead8 (s.effAddr rs1 off)).map fun v => v.signExtend 32) := rfl
theorem exec_lh (rd rs1 : Reg) (off : BitVec 12) (s : State) :
    exec (.lh rd rs1 off) s =
      s.finishLoad rd (s.effAddr rs1 off) ((s.memRead16 (s.effAddr rs1 off)).map fun v => v.signExtend 32) := rfl
theorem exec_lw (rd rs1 : Reg) (off : BitVec 12) (s : State) :
    exec (.lw rd rs1 off) s =
      s.finishLoad rd (s.effAddr rs1 off) (s.memRead32 (s.effAddr rs1 off)) := rfl
theorem exec_lbu (rd rs1 : Reg) (off : BitVec 12) (s : State) :
    exec (.lbu rd rs1 off) s =
      s.finishLoad rd (s.effAddr rs1 off) ((s.memRead8 (s.effAddr rs1 off)).map fun v => v.setWidth 32) := rfl
theorem exec_lhu (rd rs1 : Reg) (off : BitVec 12) (s : State) :
    exec (.lhu rd rs1 off) s =
      s.finishLoad rd (s.effAddr rs1 off) ((s.memRead16 (s.effAddr rs1 off)).map fun v => v.setWidth 32) := rfl
theorem exec_sb (rs2 rs1 : Reg) (off : BitVec 12) (s : State) :
    exec (.sb rs2 rs1 off) s =
      s.store (s.effAddr rs1 off) 1 (s.reg rs2) := rfl
theorem exec_sh (rs2 rs1 : Reg) (off : BitVec 12) (s : State) :
    exec (.sh rs2 rs1 off) s =
      s.store (s.effAddr rs1 off) 2 (s.reg rs2) := rfl
theorem exec_sw (rs2 rs1 : Reg) (off : BitVec 12) (s : State) :
    exec (.sw rs2 rs1 off) s =
      s.store (s.effAddr rs1 off) 4 (s.reg rs2) := rfl
theorem exec_addi (rd rs1 : Reg) (imm : BitVec 12) (s : State) :
    exec (.addi rd rs1 imm) s =
      s.finish rd (s.reg rs1 + imm12 imm) := rfl
theorem exec_slti (rd rs1 : Reg) (imm : BitVec 12) (s : State) :
    exec (.slti rd rs1 imm) s =
      s.finish rd (boolWord (ltSigned (s.reg rs1) (imm12 imm))) := rfl
theorem exec_sltiu (rd rs1 : Reg) (imm : BitVec 12) (s : State) :
    exec (.sltiu rd rs1 imm) s =
      s.finish rd (boolWord (ltUnsigned (s.reg rs1) (imm12 imm))) := rfl
theorem exec_xori (rd rs1 : Reg) (imm : BitVec 12) (s : State) :
    exec (.xori rd rs1 imm) s =
      s.finish rd (s.reg rs1 ^^^ imm12 imm) := rfl
theorem exec_ori (rd rs1 : Reg) (imm : BitVec 12) (s : State) :
    exec (.ori rd rs1 imm) s =
      s.finish rd (s.reg rs1 ||| imm12 imm) := rfl
theorem exec_andi (rd rs1 : Reg) (imm : BitVec 12) (s : State) :
    exec (.andi rd rs1 imm) s =
      s.finish rd (s.reg rs1 &&& imm12 imm) := rfl
theorem exec_slli (rd rs1 : Reg) (shamt : BitVec 5) (s : State) :
    exec (.slli rd rs1 shamt) s =
      s.finish rd (shiftLeft (s.reg rs1) shamt) := rfl
theorem exec_srli (rd rs1 : Reg) (shamt : BitVec 5) (s : State) :
    exec (.srli rd rs1 shamt) s =
      s.finish rd (shiftRightLogical (s.reg rs1) shamt) := rfl
theorem exec_srai (rd rs1 : Reg) (shamt : BitVec 5) (s : State) :
    exec (.srai rd rs1 shamt) s =
      s.finish rd (shiftRightArith (s.reg rs1) shamt) := rfl
theorem exec_add (rd rs1 rs2 : Reg) (s : State) :
    exec (.add rd rs1 rs2) s =
      s.finish rd (s.reg rs1 + s.reg rs2) := rfl
theorem exec_sub (rd rs1 rs2 : Reg) (s : State) :
    exec (.sub rd rs1 rs2) s =
      s.finish rd (s.reg rs1 - s.reg rs2) := rfl
theorem exec_sll (rd rs1 rs2 : Reg) (s : State) :
    exec (.sll rd rs1 rs2) s =
      s.finish rd (shiftLeft (s.reg rs1) (shiftAmount (s.reg rs2))) := rfl
theorem exec_slt (rd rs1 rs2 : Reg) (s : State) :
    exec (.slt rd rs1 rs2) s =
      s.finish rd (boolWord (ltSigned (s.reg rs1) (s.reg rs2))) := rfl
theorem exec_sltu (rd rs1 rs2 : Reg) (s : State) :
    exec (.sltu rd rs1 rs2) s =
      s.finish rd (boolWord (ltUnsigned (s.reg rs1) (s.reg rs2))) := rfl
theorem exec_xor (rd rs1 rs2 : Reg) (s : State) :
    exec (.xor rd rs1 rs2) s =
      s.finish rd (s.reg rs1 ^^^ s.reg rs2) := rfl
theorem exec_srl (rd rs1 rs2 : Reg) (s : State) :
    exec (.srl rd rs1 rs2) s =
      s.finish rd (shiftRightLogical (s.reg rs1) (shiftAmount (s.reg rs2))) := rfl
theorem exec_sra (rd rs1 rs2 : Reg) (s : State) :
    exec (.sra rd rs1 rs2) s =
      s.finish rd (shiftRightArith (s.reg rs1) (shiftAmount (s.reg rs2))) := rfl
theorem exec_or (rd rs1 rs2 : Reg) (s : State) :
    exec (.or rd rs1 rs2) s =
      s.finish rd (s.reg rs1 ||| s.reg rs2) := rfl
theorem exec_and (rd rs1 rs2 : Reg) (s : State) :
    exec (.and rd rs1 rs2) s =
      s.finish rd (s.reg rs1 &&& s.reg rs2) := rfl
theorem exec_fence (pred succ : Classes) (s : State) :
    exec (.fence pred succ) s =
      .next (s.retire (s.pc + 4)) := rfl
theorem exec_fenceI (s : State) :
    exec .fenceI s =
      .next (State.retire { s with stale := [] } (s.pc + 4)) := rfl
theorem exec_ecall (s : State) :
    exec .ecall s =
      .next (s.raise .environmentCall none) := rfl
theorem exec_ebreak (s : State) :
    exec .ebreak s =
      .next (s.raise .breakpoint (some s.pc)) := rfl
theorem exec_csrrw (rd : Reg) (csr : CsrAddr) (rs1 : Reg) (s : State) :
    exec (.csrrw rd csr rs1) s =
      s.csrAccess (encode (.csrrw rd csr rs1)) rd csr (rd != 0#5) true fun _ => s.reg rs1 := rfl
theorem exec_csrrs (rd : Reg) (csr : CsrAddr) (rs1 : Reg) (s : State) :
    exec (.csrrs rd csr rs1) s =
      s.csrAccess (encode (.csrrs rd csr rs1)) rd csr true (rs1 != 0#5) fun t => t ||| s.reg rs1 := rfl
theorem exec_csrrc (rd : Reg) (csr : CsrAddr) (rs1 : Reg) (s : State) :
    exec (.csrrc rd csr rs1) s =
      s.csrAccess (encode (.csrrc rd csr rs1)) rd csr true (rs1 != 0#5) fun t => t &&& ~~~s.reg rs1 := rfl
theorem exec_csrrwi (rd : Reg) (csr : CsrAddr) (zimm : BitVec 5) (s : State) :
    exec (.csrrwi rd csr zimm) s =
      s.csrAccess (encode (.csrrwi rd csr zimm)) rd csr (rd != 0#5) true fun _ => zimmOf zimm := rfl
theorem exec_csrrsi (rd : Reg) (csr : CsrAddr) (zimm : BitVec 5) (s : State) :
    exec (.csrrsi rd csr zimm) s =
      s.csrAccess (encode (.csrrsi rd csr zimm)) rd csr true (zimm != 0#5) fun t => t ||| zimmOf zimm := rfl
theorem exec_csrrci (rd : Reg) (csr : CsrAddr) (zimm : BitVec 5) (s : State) :
    exec (.csrrci rd csr zimm) s =
      s.csrAccess (encode (.csrrci rd csr zimm)) rd csr true (zimm != 0#5) fun t => t &&& ~~~zimmOf zimm := rfl

/-! ### Everything an instruction can do -/

/-- The states an instruction can lead to. -/
inductive Effect (i : Instr) (s : State) : State → Prop where
  /-- It writes the register its rd field names and goes on, or jumps to an aligned target. -/
  | wrote (rd : Reg) (v : Word) (hd : destinationOf i = some rd)
      (ha : ∀ u, transferTarget i s = some u → aligned u = true) :
      Effect i s ((s.setReg rd v).retire ((transferTarget i s).getD (s.pc + 4)))
  /-- It writes nothing and goes on, or branches to an aligned target. -/
  | moved (ha : ∀ u, transferTarget i s = some u → aligned u = true) :
      Effect i s (s.retire ((transferTarget i s).getD (s.pc + 4)))
  /-- It stores and goes on. -/
  | stored (ea : Word) (n : Nat) (v : Word) (hr : storeRange i s = some (ea, n)) (hn : n ≤ 4)
      (ha : AllAccessible s .write ea n) (ht : transferTarget i s = none) :
      Effect i s ((s.storeBytes ea (bytesOf v n)).retire (s.pc + 4))
  /-- FENCE.I empties the fetch view and goes on. -/
  | synchronised (hi : i = .fenceI) :
      Effect i s (State.retire { s with stale := [] } (s.pc + 4))
  /-- It takes its exception; a misaligned target is the one it would have transferred to. -/
  | trapped (e : Exception) (x : Option Word) (hp : possibleException i = some e)
      (hm : e = .instructionAddressMisaligned →
        ∃ u, transferTarget i s = some u ∧ aligned u = false ∧ x = some u) :
      Effect i s (s.raise e x)

theorem Effect.of_finish {i : Instr} {s : State} {rd : Reg} (v : Word)
    (hd : destinationOf i = some rd) (ht : transferTarget i s = none) :
    ∃ t, s.finish rd v = .next t ∧ Effect i s t := by
  have := Effect.wrote (i := i) (s := s) rd v hd (by simp [ht])
  rw [ht] at this
  exact ⟨_, rfl, this⟩

theorem Effect.of_jump {i : Instr} {s : State} {rd : Reg} {u : Word}
    (hd : destinationOf i = some rd) (ht : transferTarget i s = some u)
    (hp : possibleException i = some .instructionAddressMisaligned) :
    ∃ t, s.jump rd u = .next t ∧ Effect i s t := by
  by_cases ha : aligned u = true
  · have := Effect.wrote (i := i) (s := s) rd (s.pc + 4) hd (by simp [ht, ha])
    rw [ht] at this
    exact ⟨_, by simp [State.jump, ha], this⟩
  · have ha : aligned u = false := by simpa using ha
    exact ⟨_, by simp [State.jump, ha], .trapped _ _ hp fun _ => ⟨u, ht, ha, rfl⟩⟩

theorem Effect.of_branch {i : Instr} {s : State} {c : Bool} {u : Word}
    (ht : transferTarget i s = if c then some u else none)
    (hp : possibleException i = some .instructionAddressMisaligned) :
    ∃ t, s.branch c u = .next t ∧ Effect i s t := by
  cases c
  · have ht : transferTarget i s = none := by simpa using ht
    have := Effect.moved (i := i) (s := s) (by simp [ht])
    rw [ht] at this
    exact ⟨_, by simp [State.branch], this⟩
  · have ht : transferTarget i s = some u := by simpa using ht
    by_cases ha : aligned u = true
    · have := Effect.moved (i := i) (s := s) (by simp [ht, ha])
      rw [ht] at this
      exact ⟨_, by simp [State.branch, ha], this⟩
    · have ha : aligned u = false := by simpa using ha
      exact ⟨_, by simp [State.branch, ha], .trapped _ _ hp fun _ => ⟨u, ht, ha, rfl⟩⟩

theorem Effect.of_finishLoad {i : Instr} {s : State} {rd : Reg} (ea : Word) (v : Option Word)
    (hd : destinationOf i = some rd) (ht : transferTarget i s = none)
    (hp : possibleException i = some .loadAccessFault) :
    ∃ t, s.finishLoad rd ea v = .next t ∧ Effect i s t := by
  cases v with
  | none => exact ⟨_, rfl, .trapped _ _ hp (by simp)⟩
  | some v => exact Effect.of_finish v hd ht

theorem Effect.of_store {i : Instr} {s : State} {ea : Word} {n : Nat} (v : Word)
    (hr : storeRange i s = some (ea, n)) (hn : n ≤ 4) (ht : transferTarget i s = none)
    (hp : possibleException i = some .storeAccessFault) :
    ∃ t, s.store ea n v = .next t ∧ Effect i s t := by
  by_cases ha : AllAccessible s .write ea n
  · exact ⟨_, by simp only [State.store, State.memWrite_of ha], .stored ea n v hr hn ha ht⟩
  · exact ⟨s.raise .storeAccessFault (some ea), by simp only [State.store, State.memWrite_none ha],
      .trapped _ _ hp (by simp)⟩

theorem Effect.of_csrAccess {i : Instr} {s : State} {rd : Reg} (w : Word) (a : CsrAddr)
    (reads writes : Bool) (f : Word → Word) (hd : destinationOf i = some rd)
    (ht : transferTarget i s = none) (hp : possibleException i = some .illegalInstruction) :
    ∃ t, s.csrAccess w rd a reads writes f = .next t ∧ Effect i s t := by
  have htrap : Effect i s (s.illegal w) := .trapped _ _ hp (by simp)
  cases writes
  · cases reads
    · have := Effect.moved (i := i) (s := s) (by simp [ht])
      rw [ht] at this
      exact ⟨_, by simp [State.csrAccess], this⟩
    · cases h : Csr.ofAddr a with
      | none => exact ⟨_, State.csrAccess_unimplemented h .., htrap⟩
      | some c =>
        have := Effect.wrote (i := i) (s := s) rd (c.value s) hd (by simp [ht])
        rw [ht] at this
        exact ⟨_, by simp [State.csrAccess, csrRead, h], this⟩
  · exact ⟨_, State.csrAccess_write .., htrap⟩

/-- Every instruction in every state answers a next state, and it is one of its effects. -/
theorem exec_effect (i : Instr) (s : State) : ∃ t, exec i s = .next t ∧ Effect i s t := by
  cases i
  case lui => exact Effect.of_finish _ rfl rfl
  case auipc => exact Effect.of_finish _ rfl rfl
  case jal => exact Effect.of_jump rfl rfl rfl
  case jalr => exact Effect.of_jump rfl rfl rfl
  case beq =>
    exact Effect.of_branch (by simp [transferTarget, State.branchTarget, immB]) rfl
  case bne =>
    exact Effect.of_branch (by simp [transferTarget, State.branchTarget, immB]) rfl
  case blt =>
    exact Effect.of_branch (by simp [transferTarget, State.branchTarget, immB, ltSigned]) rfl
  case bge =>
    exact Effect.of_branch (by simp [transferTarget, State.branchTarget, immB, ltSigned]) rfl
  case bltu =>
    exact Effect.of_branch (by simp [transferTarget, State.branchTarget, immB, ltUnsigned]) rfl
  case bgeu =>
    exact Effect.of_branch (by simp [transferTarget, State.branchTarget, immB, ltUnsigned]) rfl
  case lb => exact Effect.of_finishLoad _ _ rfl rfl rfl
  case lh => exact Effect.of_finishLoad _ _ rfl rfl rfl
  case lw => exact Effect.of_finishLoad _ _ rfl rfl rfl
  case lbu => exact Effect.of_finishLoad _ _ rfl rfl rfl
  case lhu => exact Effect.of_finishLoad _ _ rfl rfl rfl
  case sb => exact Effect.of_store _ rfl (by omega) rfl rfl
  case sh => exact Effect.of_store _ rfl (by omega) rfl rfl
  case sw => exact Effect.of_store _ rfl (by omega) rfl rfl
  case addi => exact Effect.of_finish _ rfl rfl
  case slti => exact Effect.of_finish _ rfl rfl
  case sltiu => exact Effect.of_finish _ rfl rfl
  case xori => exact Effect.of_finish _ rfl rfl
  case ori => exact Effect.of_finish _ rfl rfl
  case andi => exact Effect.of_finish _ rfl rfl
  case slli => exact Effect.of_finish _ rfl rfl
  case srli => exact Effect.of_finish _ rfl rfl
  case srai => exact Effect.of_finish _ rfl rfl
  case add => exact Effect.of_finish _ rfl rfl
  case sub => exact Effect.of_finish _ rfl rfl
  case sll => exact Effect.of_finish _ rfl rfl
  case slt => exact Effect.of_finish _ rfl rfl
  case sltu => exact Effect.of_finish _ rfl rfl
  case xor => exact Effect.of_finish _ rfl rfl
  case srl => exact Effect.of_finish _ rfl rfl
  case sra => exact Effect.of_finish _ rfl rfl
  case or => exact Effect.of_finish _ rfl rfl
  case and => exact Effect.of_finish _ rfl rfl
  case fence => exact ⟨_, rfl, .moved (by simp [transferTarget])⟩
  case fenceI => exact ⟨_, rfl, .synchronised rfl⟩
  case ecall => exact ⟨_, rfl, .trapped _ _ rfl (by simp)⟩
  case ebreak => exact ⟨_, rfl, .trapped _ _ rfl (by simp)⟩
  case csrrw => exact Effect.of_csrAccess _ _ _ _ _ rfl rfl rfl
  case csrrs => exact Effect.of_csrAccess _ _ _ _ _ rfl rfl rfl
  case csrrc => exact Effect.of_csrAccess _ _ _ _ _ rfl rfl rfl
  case csrrwi => exact Effect.of_csrAccess _ _ _ _ _ rfl rfl rfl
  case csrrsi => exact Effect.of_csrAccess _ _ _ _ _ rfl rfl rfl
  case csrrci => exact Effect.of_csrAccess _ _ _ _ _ rfl rfl rfl

/-- What an instruction answered is one of its effects. -/
theorem effect_of_exec {i : Instr} {s t : State} (h : exec i s = .next t) : Effect i s t := by
  obtain ⟨u, hu, he⟩ := exec_effect i s
  rw [hu] at h; injection h with h; exact h ▸ he

end Sys2Proof.Machine
end

