-- ==== Sys2Proof/Laws/PerInstr.lean ====
section
/-! SUPPORT. Statements about every instruction as syntax, proved one constructor at a time. -/

namespace Sys2Proof.Laws

/-- The word of the instruction lies in the instruction's own row of the decode table (rules R96,
R105). -/
def EncodesIntoRow.Statement (i : Instr) : Prop := i.row.covers (encode i) = true

theorem EncodesIntoRow.lui (rd : Reg) (imm20 : BitVec 20) :
    EncodesIntoRow.Statement (.lui rd imm20) :=
  TableRow.covers_of_masked (uFormat_masked ..) rfl

theorem EncodesIntoRow.auipc (rd : Reg) (imm20 : BitVec 20) :
    EncodesIntoRow.Statement (.auipc rd imm20) :=
  TableRow.covers_of_masked (uFormat_masked ..) rfl

theorem EncodesIntoRow.jal (rd : Reg) (off : BitVec 21) :
    EncodesIntoRow.Statement (.jal rd off) :=
  TableRow.covers_of_masked (ujFormat_masked ..) rfl

theorem EncodesIntoRow.jalr (rd rs1 : Reg) (off : BitVec 12) :
    EncodesIntoRow.Statement (.jalr rd rs1 off) :=
  TableRow.covers_of_masked (iFormat_masked ..) rfl

theorem EncodesIntoRow.beq (rs1 rs2 : Reg) (off : BitVec 13) :
    EncodesIntoRow.Statement (.beq rs1 rs2 off) :=
  TableRow.covers_of_masked (sbFormat_masked ..) rfl

theorem EncodesIntoRow.bne (rs1 rs2 : Reg) (off : BitVec 13) :
    EncodesIntoRow.Statement (.bne rs1 rs2 off) :=
  TableRow.covers_of_masked (sbFormat_masked ..) rfl

theorem EncodesIntoRow.blt (rs1 rs2 : Reg) (off : BitVec 13) :
    EncodesIntoRow.Statement (.blt rs1 rs2 off) :=
  TableRow.covers_of_masked (sbFormat_masked ..) rfl

theorem EncodesIntoRow.bge (rs1 rs2 : Reg) (off : BitVec 13) :
    EncodesIntoRow.Statement (.bge rs1 rs2 off) :=
  TableRow.covers_of_masked (sbFormat_masked ..) rfl

theorem EncodesIntoRow.bltu (rs1 rs2 : Reg) (off : BitVec 13) :
    EncodesIntoRow.Statement (.bltu rs1 rs2 off) :=
  TableRow.covers_of_masked (sbFormat_masked ..) rfl

theorem EncodesIntoRow.bgeu (rs1 rs2 : Reg) (off : BitVec 13) :
    EncodesIntoRow.Statement (.bgeu rs1 rs2 off) :=
  TableRow.covers_of_masked (sbFormat_masked ..) rfl

theorem EncodesIntoRow.lb (rd rs1 : Reg) (off : BitVec 12) :
    EncodesIntoRow.Statement (.lb rd rs1 off) :=
  TableRow.covers_of_masked (iFormat_masked ..) rfl

theorem EncodesIntoRow.lh (rd rs1 : Reg) (off : BitVec 12) :
    EncodesIntoRow.Statement (.lh rd rs1 off) :=
  TableRow.covers_of_masked (iFormat_masked ..) rfl

theorem EncodesIntoRow.lw (rd rs1 : Reg) (off : BitVec 12) :
    EncodesIntoRow.Statement (.lw rd rs1 off) :=
  TableRow.covers_of_masked (iFormat_masked ..) rfl

theorem EncodesIntoRow.lbu (rd rs1 : Reg) (off : BitVec 12) :
    EncodesIntoRow.Statement (.lbu rd rs1 off) :=
  TableRow.covers_of_masked (iFormat_masked ..) rfl

theorem EncodesIntoRow.lhu (rd rs1 : Reg) (off : BitVec 12) :
    EncodesIntoRow.Statement (.lhu rd rs1 off) :=
  TableRow.covers_of_masked (iFormat_masked ..) rfl

theorem EncodesIntoRow.sb (rs2 rs1 : Reg) (off : BitVec 12) :
    EncodesIntoRow.Statement (.sb rs2 rs1 off) :=
  TableRow.covers_of_masked (sFormat_masked ..) rfl

theorem EncodesIntoRow.sh (rs2 rs1 : Reg) (off : BitVec 12) :
    EncodesIntoRow.Statement (.sh rs2 rs1 off) :=
  TableRow.covers_of_masked (sFormat_masked ..) rfl

theorem EncodesIntoRow.sw (rs2 rs1 : Reg) (off : BitVec 12) :
    EncodesIntoRow.Statement (.sw rs2 rs1 off) :=
  TableRow.covers_of_masked (sFormat_masked ..) rfl

theorem EncodesIntoRow.addi (rd rs1 : Reg) (imm : BitVec 12) :
    EncodesIntoRow.Statement (.addi rd rs1 imm) :=
  TableRow.covers_of_masked (iFormat_masked ..) rfl

theorem EncodesIntoRow.slti (rd rs1 : Reg) (imm : BitVec 12) :
    EncodesIntoRow.Statement (.slti rd rs1 imm) :=
  TableRow.covers_of_masked (iFormat_masked ..) rfl

theorem EncodesIntoRow.sltiu (rd rs1 : Reg) (imm : BitVec 12) :
    EncodesIntoRow.Statement (.sltiu rd rs1 imm) :=
  TableRow.covers_of_masked (iFormat_masked ..) rfl

theorem EncodesIntoRow.xori (rd rs1 : Reg) (imm : BitVec 12) :
    EncodesIntoRow.Statement (.xori rd rs1 imm) :=
  TableRow.covers_of_masked (iFormat_masked ..) rfl

theorem EncodesIntoRow.ori (rd rs1 : Reg) (imm : BitVec 12) :
    EncodesIntoRow.Statement (.ori rd rs1 imm) :=
  TableRow.covers_of_masked (iFormat_masked ..) rfl

theorem EncodesIntoRow.andi (rd rs1 : Reg) (imm : BitVec 12) :
    EncodesIntoRow.Statement (.andi rd rs1 imm) :=
  TableRow.covers_of_masked (iFormat_masked ..) rfl

theorem EncodesIntoRow.slli (rd rs1 : Reg) (shamt : BitVec 5) :
    EncodesIntoRow.Statement (.slli rd rs1 shamt) :=
  TableRow.covers_of_masked (rFormat_masked ..) rfl

theorem EncodesIntoRow.srli (rd rs1 : Reg) (shamt : BitVec 5) :
    EncodesIntoRow.Statement (.srli rd rs1 shamt) :=
  TableRow.covers_of_masked (rFormat_masked ..) rfl

theorem EncodesIntoRow.srai (rd rs1 : Reg) (shamt : BitVec 5) :
    EncodesIntoRow.Statement (.srai rd rs1 shamt) :=
  TableRow.covers_of_masked (rFormat_masked ..) rfl

theorem EncodesIntoRow.add (rd rs1 rs2 : Reg) :
    EncodesIntoRow.Statement (.add rd rs1 rs2) :=
  TableRow.covers_of_masked (rFormat_masked ..) rfl

theorem EncodesIntoRow.sub (rd rs1 rs2 : Reg) :
    EncodesIntoRow.Statement (.sub rd rs1 rs2) :=
  TableRow.covers_of_masked (rFormat_masked ..) rfl

theorem EncodesIntoRow.sll (rd rs1 rs2 : Reg) :
    EncodesIntoRow.Statement (.sll rd rs1 rs2) :=
  TableRow.covers_of_masked (rFormat_masked ..) rfl

theorem EncodesIntoRow.slt (rd rs1 rs2 : Reg) :
    EncodesIntoRow.Statement (.slt rd rs1 rs2) :=
  TableRow.covers_of_masked (rFormat_masked ..) rfl

theorem EncodesIntoRow.sltu (rd rs1 rs2 : Reg) :
    EncodesIntoRow.Statement (.sltu rd rs1 rs2) :=
  TableRow.covers_of_masked (rFormat_masked ..) rfl

theorem EncodesIntoRow.xor (rd rs1 rs2 : Reg) :
    EncodesIntoRow.Statement (.xor rd rs1 rs2) :=
  TableRow.covers_of_masked (rFormat_masked ..) rfl

theorem EncodesIntoRow.srl (rd rs1 rs2 : Reg) :
    EncodesIntoRow.Statement (.srl rd rs1 rs2) :=
  TableRow.covers_of_masked (rFormat_masked ..) rfl

theorem EncodesIntoRow.sra (rd rs1 rs2 : Reg) :
    EncodesIntoRow.Statement (.sra rd rs1 rs2) :=
  TableRow.covers_of_masked (rFormat_masked ..) rfl

theorem EncodesIntoRow.or (rd rs1 rs2 : Reg) :
    EncodesIntoRow.Statement (.or rd rs1 rs2) :=
  TableRow.covers_of_masked (rFormat_masked ..) rfl

theorem EncodesIntoRow.and (rd rs1 rs2 : Reg) :
    EncodesIntoRow.Statement (.and rd rs1 rs2) :=
  TableRow.covers_of_masked (rFormat_masked ..) rfl

theorem EncodesIntoRow.fence (pred succ : Classes) :
    EncodesIntoRow.Statement (.fence pred succ) :=
  TableRow.covers_of_masked (iFormat_masked ..) rfl

theorem EncodesIntoRow.fenceI :
    EncodesIntoRow.Statement .fenceI := rfl

theorem EncodesIntoRow.ecall :
    EncodesIntoRow.Statement .ecall := rfl

theorem EncodesIntoRow.ebreak :
    EncodesIntoRow.Statement .ebreak := rfl

theorem EncodesIntoRow.csrrw (rd : Reg) (csr : CsrAddr) (rs1 : Reg) :
    EncodesIntoRow.Statement (.csrrw rd csr rs1) :=
  TableRow.covers_of_masked (iFormat_masked ..) rfl

theorem EncodesIntoRow.csrrs (rd : Reg) (csr : CsrAddr) (rs1 : Reg) :
    EncodesIntoRow.Statement (.csrrs rd csr rs1) :=
  TableRow.covers_of_masked (iFormat_masked ..) rfl

theorem EncodesIntoRow.csrrc (rd : Reg) (csr : CsrAddr) (rs1 : Reg) :
    EncodesIntoRow.Statement (.csrrc rd csr rs1) :=
  TableRow.covers_of_masked (iFormat_masked ..) rfl

theorem EncodesIntoRow.csrrwi (rd : Reg) (csr : CsrAddr) (zimm : BitVec 5) :
    EncodesIntoRow.Statement (.csrrwi rd csr zimm) :=
  TableRow.covers_of_masked (iFormat_masked ..) rfl

theorem EncodesIntoRow.csrrsi (rd : Reg) (csr : CsrAddr) (zimm : BitVec 5) :
    EncodesIntoRow.Statement (.csrrsi rd csr zimm) :=
  TableRow.covers_of_masked (iFormat_masked ..) rfl

theorem EncodesIntoRow.csrrci (rd : Reg) (csr : CsrAddr) (zimm : BitVec 5) :
    EncodesIntoRow.Statement (.csrrci rd csr zimm) :=
  TableRow.covers_of_masked (iFormat_masked ..) rfl

end Sys2Proof.Laws
end

