-- ==== Sys2Proof/Laws/Place.lean ====
section
/-! SUPPORT. Placing a byte where the next step fetches it: what it changes at that address, and at no
other. -/

namespace Sys2Proof.Machine

/-- A placed byte is read back, and no other byte changes. -/
theorem State.byteAt_placeByte {s : State} (h : Memory.wf s.mem) (a b : Word) (v : Byte) :
    (s.placeByte a v).byteAt b = if b = a then v else s.byteAt b := by
  simp only [State.byteAt, State.placeByte, Memory.read_write h.1]
  by_cases hb : b = a
  · simp [hb]
  · have : ¬ b.toNat = a.toNat := fun e => hb (BitVec.eq_of_toNat_eq e)
    simp [hb, this]

/-- Placing a byte keeps the canonical form of memory. -/
theorem State.placeByte_wf {s : State} (h : Memory.wf s.mem) (a : Word) (v : Byte) :
    Memory.wf (s.placeByte a v).mem := Memory.write_wf h a.isLt v

/-- The fetch view of a placed byte is empty, every other as before. -/
theorem State.values_placeByte (s : State) (a b : Word) (v : Byte) :
    (s.placeByte a v).stale.values b.toNat = if b = a then [] else s.stale.values b.toNat := by
  have hab : a.toNat = b.toNat ↔ b = a :=
    ⟨fun e => (BitVec.eq_of_toNat_eq e).symm, fun e => e ▸ rfl⟩
  simp only [State.placeByte, Stale.values, List.filterMap_filter]
  by_cases hb : b = a
  · subst hb
    simp only [if_true]
    rw [List.filterMap_eq_nil_iff]
    intro c _
    by_cases hc : c.1 = b.toNat <;> simp [hc]
  · rw [if_neg hb]
    congr 1; funext c
    by_cases hc : c.1 = b.toNat
    · have : ¬ b.toNat = a.toNat := fun e => hb (hab.mp e.symm)
      simp [hc, this]
    · simp [hc]

/-- A region of one byte covers that byte alone. -/
theorem Region.covers_one (a b : Word) (t : Attr) :
    Region.covers { base := a.toNat, size := 1, attr := t } b = decide (b = a) := by
  have : b = a ↔ a.toNat ≤ b.toNat ∧ b.toNat < a.toNat + 1 :=
    ⟨fun e => by subst e; omega, fun ⟨_, _⟩ => BitVec.eq_of_toNat_eq (by omega)⟩
  simp [Region.covers, this]

/-- The attribute of a placed byte can be fetched and is no device's; every other is as before. -/
theorem State.attrAt_placeByte (s : State) (a b : Word) (v : Byte) :
    (b = a → (attrAt (s.placeByte a v).map b).fetch = true ∧
      (attrAt (s.placeByte a v).map b).io = false) ∧
    (b ≠ a → attrAt (s.placeByte a v).map b = attrAt s.map b) := by
  simp only [State.placeByte]
  split
  · rename_i h
    simp only [State.accessible, State.isIo, Attr.allows, Bool.and_eq_true, Bool.not_eq_true'] at h
    exact ⟨fun e => e ▸ h, fun _ => rfl⟩
  · exact ⟨fun e => by simp [attrAt, Region.covers_one, e],
      fun e => by simp [attrAt, Region.covers_one, e]⟩

end Sys2Proof.Machine
end

