-- ==== Sys2Proof/Tests/Slice0.lean ====
section
/-! SUPPORT. Tests: well-formedness, the decoding of words written out field by field from rules R82 to
R96, one-step vectors of 95_test_vectors.md (sections 2.2 to 2.8), and, for every statement with
hypotheses, a state and operands that meet them. -/

namespace Sys2Proof.Tests
open Sys2Proof.Machine

/-! ### Ill-formed terms are refused: bit 0 of an offset is set (rules R90, R92) -/

theorem test_wellFormed_refuses_odd_jal : (Instr.jal 1 3).wellFormed = false := by decide
theorem test_wellFormed_refuses_odd_beq : (Instr.beq 6 7 1).wellFormed = false := by decide
theorem test_wellFormed_refuses_odd_bne : (Instr.bne 6 7 (-1)).wellFormed = false := by decide
theorem test_wellFormed_refuses_odd_blt : (Instr.blt 6 7 5).wellFormed = false := by decide
theorem test_wellFormed_refuses_odd_bge : (Instr.bge 6 7 9).wellFormed = false := by decide
theorem test_wellFormed_refuses_odd_bltu : (Instr.bltu 6 7 4095).wellFormed = false := by decide
theorem test_wellFormed_refuses_odd_bgeu : (Instr.bgeu 6 7 (-4095)).wellFormed = false := by decide

/-! ### One word per constructor, its fields in binary (rule R96) -/

theorem test_decode_lui :
    decode 0b00010010001101000101_00101_0110111 = .ok (.lui 5 0x12345) := by decide
theorem test_decode_auipc :
    decode 0b11111111111111111111_00101_0010111 = .ok (.auipc 5 0xFFFFF) := by decide
theorem test_decode_jal :
    decode 0b0_0000000000_1_00000000_00001_1101111 = .ok (.jal 1 2048) := by decide
theorem test_decode_jalr :
    decode 0b111111111101_00110_000_00001_1100111 = .ok (.jalr 1 6 (-3)) := by decide
theorem test_decode_beq :
    decode 0b0_000000_00111_00110_000_1000_0_1100011 = .ok (.beq 6 7 16) := by decide
theorem test_decode_bne :
    decode 0b0_000000_00111_00110_001_0000_1_1100011 = .ok (.bne 6 7 2048) := by decide
theorem test_decode_blt :
    decode 0b0_000000_00111_00110_100_0100_0_1100011 = .ok (.blt 6 7 8) := by decide
theorem test_decode_bge :
    decode 0b0_000000_00111_00110_101_0100_0_1100011 = .ok (.bge 6 7 8) := by decide
theorem test_decode_bltu :
    decode 0b0_000000_00111_00110_110_0100_0_1100011 = .ok (.bltu 6 7 8) := by decide
theorem test_decode_bgeu :
    decode 0b0_000000_00111_00110_111_0100_0_1100011 = .ok (.bgeu 6 7 8) := by decide
theorem test_decode_lb :
    decode 0b111111111111_00110_000_00101_0000011 = .ok (.lb 5 6 (-1)) := by decide
theorem test_decode_lh :
    decode 0b000000000010_00110_001_00101_0000011 = .ok (.lh 5 6 2) := by decide
theorem test_decode_lw :
    decode 0b000000000100_00110_010_00101_0000011 = .ok (.lw 5 6 4) := by decide
theorem test_decode_lbu :
    decode 0b000000000011_00110_100_00101_0000011 = .ok (.lbu 5 6 3) := by decide
theorem test_decode_lhu :
    decode 0b000000000010_00110_101_00101_0000011 = .ok (.lhu 5 6 2) := by decide
theorem test_decode_sb :
    decode 0b0000000_00111_00110_000_00001_0100011 = .ok (.sb 7 6 1) := by decide
theorem test_decode_sh :
    decode 0b1111111_00111_00110_001_11110_0100011 = .ok (.sh 7 6 (-2)) := by decide
theorem test_decode_sw :
    decode 0b0111111_00111_00110_010_11111_0100011 = .ok (.sw 7 6 2047) := by decide
theorem test_decode_addi :
    decode 0b111111111111_00110_000_00101_0010011 = .ok (.addi 5 6 (-1)) := by decide
theorem test_decode_slti :
    decode 0b111111111111_00110_010_00101_0010011 = .ok (.slti 5 6 (-1)) := by decide
theorem test_decode_sltiu :
    decode 0b000000000001_00110_011_00101_0010011 = .ok (.sltiu 5 6 1) := by decide
theorem test_decode_xori :
    decode 0b111111111111_00110_100_00101_0010011 = .ok (.xori 5 6 (-1)) := by decide
theorem test_decode_ori :
    decode 0b111100000000_00110_110_00101_0010011 = .ok (.ori 5 6 (-256)) := by decide
theorem test_decode_andi :
    decode 0b000011110000_00110_111_00101_0010011 = .ok (.andi 5 6 240) := by decide
theorem test_decode_slli :
    decode 0b0000000_11111_00110_001_00101_0010011 = .ok (.slli 5 6 31) := by decide
theorem test_decode_srli :
    decode 0b0000000_00100_00110_101_00101_0010011 = .ok (.srli 5 6 4) := by decide
theorem test_decode_srai :
    decode 0b0100000_00100_00110_101_00101_0010011 = .ok (.srai 5 6 4) := by decide
theorem test_decode_add :
    decode 0b0000000_00111_00110_000_00101_0110011 = .ok (.add 5 6 7) := by decide
theorem test_decode_sub :
    decode 0b0100000_00111_00110_000_00101_0110011 = .ok (.sub 5 6 7) := by decide
theorem test_decode_sll :
    decode 0b0000000_00111_00110_001_00101_0110011 = .ok (.sll 5 6 7) := by decide
theorem test_decode_slt :
    decode 0b0000000_00111_00110_010_00101_0110011 = .ok (.slt 5 6 7) := by decide
theorem test_decode_sltu :
    decode 0b0000000_00111_00110_011_00101_0110011 = .ok (.sltu 5 6 7) := by decide
theorem test_decode_xor :
    decode 0b0000000_00111_00110_100_00101_0110011 = .ok (.xor 5 6 7) := by decide
theorem test_decode_srl :
    decode 0b0000000_00111_00110_101_00101_0110011 = .ok (.srl 5 6 7) := by decide
theorem test_decode_sra :
    decode 0b0100000_00111_00110_101_00101_0110011 = .ok (.sra 5 6 7) := by decide
theorem test_decode_or :
    decode 0b0000000_00111_00110_110_00101_0110011 = .ok (.or 5 6 7) := by decide
theorem test_decode_and :
    decode 0b0000000_00111_00110_111_00101_0110011 = .ok (.and 5 6 7) := by decide
theorem test_decode_fence :
    decode 0b0000_0001_0010_00000_000_00000_0001111 = .ok (.fence ⟨false, false, false, true⟩ ⟨false, false, true, false⟩) := by decide
theorem test_decode_fenceI :
    decode 0b000000000000_00000_001_00000_0001111 = .ok (.fenceI) := by decide
theorem test_decode_ecall :
    decode 0b000000000000_00000_000_00000_1110011 = .ok (.ecall) := by decide
theorem test_decode_ebreak :
    decode 0b000000000001_00000_000_00000_1110011 = .ok (.ebreak) := by decide
theorem test_decode_csrrw :
    decode 0b110000000000_00110_001_00101_1110011 = .ok (.csrrw 5 0xC00 6) := by decide
theorem test_decode_csrrs :
    decode 0b110000000010_00000_010_00101_1110011 = .ok (.csrrs 5 0xC02 0) := by decide
theorem test_decode_csrrc :
    decode 0b110010000010_00000_011_00101_1110011 = .ok (.csrrc 5 0xC82 0) := by decide
theorem test_decode_csrrwi :
    decode 0b110000000000_00011_101_00000_1110011 = .ok (.csrrwi 0 0xC00 3) := by decide
theorem test_decode_csrrsi :
    decode 0b110000000001_00001_110_00101_1110011 = .ok (.csrrsi 5 0xC01 1) := by decide
theorem test_decode_csrrci :
    decode 0b110010000000_11111_111_00101_1110011 = .ok (.csrrci 5 0xC80 31) := by decide

/-- Words that are no instruction (section 2.8 and the illegal rows of sections 2.2 to 2.7). -/
theorem test_decode_illegal : [0xFFFFFFFF, 0x02131293, 0x80135293, 0x407312B3, 0x00009067, 0x00732863,
    0x00033283, 0x00733023, 0x0000200F, 0xC00042F3, 0x30200073, 0x000000F3, 0x0000003B].all
    (fun w => decode (BitVec.ofNat 32 w) == .error .illegal) = true := by decide
theorem test_decode_refused : decode 0x00000000 = .error .compressed ∧
    decode 0x00010001 = .error .compressed ∧ decode 0x027302B3 = .error .mulDiv := by decide
theorem test_decode_truncated : decodeBytes [0x13, 0x00, 0x00] = .error .truncated := by decide

/-! ### One step each -/

/-- Write registers in order. -/
def setRegs (s : State) : List (Reg × Word) → State
  | [] => s
  | (r, v) :: rest => setRegs (s.setReg r v) rest

/-- A state at pc 0x1000 with the given registers and memory. -/
def start (regs : List (Reg × Word)) (mem : Memory) : State :=
  setRegs { State.reset with pc := 0x1000, mem := mem } regs

/-- The next state of an answer. -/
def nextOf : Answer → Option State
  | .next s => some s
  | .fault _ => none
  | .refused _ => none

/-- One step on a word: a register, the pc, and whether the instruction retired without a trap. -/
def observed (w : Nat) (regs : List (Reg × Word)) (mem : Memory) (r : Reg) :
    Option (Word × Word × Bool) :=
  (nextOf (step ((start regs mem).withFetchWord 32 w))).map fun t =>
    (t.reg r, t.pc, t.trap.isNone && t.instret64 == 1)

/-- One step on a word: the exception, its info, the pc, and a register. -/
def trapped (w : Nat) (regs : List (Reg × Word)) (r : Reg) :
    Option (Option (Exception × Option Word) × Word × Word) :=
  (nextOf (step ((start regs []).withFetchWord 32 w))).map fun t =>
    (t.trap.map fun e => (e.exception, e.info), t.pc, t.reg r)

/-- The memory of section 2.5: 80 7F 00 80 44 33 22 11 from 0x2000 on. -/
def data : Memory :=
  [(0x2000, 0x80), (0x2001, 0x7F), (0x2003, 0x80), (0x2004, 0x44), (0x2005, 0x33), (0x2006, 0x22),
    (0x2007, 0x11)]

theorem test_addi_wraps :
    observed 0x00130293 [(6, 0x7FFFFFFF)] [] 5 = some (0x80000000, 0x1004, true) := by decide
theorem test_addi_to_x0 :
    observed 0x00530013 [(6, 0x7)] [] 0 = some (0x0, 0x1004, true) := by decide
theorem test_slti_negative :
    observed 0xFFF32293 [(6, 0xFFFFFFFE)] [] 5 = some (0x1, 0x1004, true) := by decide
theorem test_slti_equal :
    observed 0x7FF32293 [(6, 0x7FF)] [] 5 = some (0x0, 0x1004, true) := by decide
theorem test_sltiu_minus_one :
    observed 0xFFF33293 [(6, 0xFFFFFFFE)] [] 5 = some (0x1, 0x1004, true) := by decide
theorem test_sltiu_not_below :
    observed 0xFFF33293 [(6, 0xFFFFFFFF)] [] 5 = some (0x0, 0x1004, true) := by decide
theorem test_andi :
    observed 0xF0037293 [(6, 0x12345678)] [] 5 = some (0x12345600, 0x1004, true) := by decide
theorem test_ori :
    observed 0xF0036293 [(6, 0x12345678)] [] 5 = some (0xFFFFFF78, 0x1004, true) := by decide
theorem test_xori :
    observed 0xFFF34293 [(6, 0x12345678)] [] 5 = some (0xEDCBA987, 0x1004, true) := by decide
theorem test_slli :
    observed 0x00431293 [(6, 0x80000001)] [] 5 = some (0x10, 0x1004, true) := by decide
theorem test_srli :
    observed 0x00435293 [(6, 0x80000010)] [] 5 = some (0x8000001, 0x1004, true) := by decide
theorem test_srai_negative :
    observed 0x40435293 [(6, 0x80000010)] [] 5 = some (0xF8000001, 0x1004, true) := by decide
theorem test_srai_positive :
    observed 0x40435293 [(6, 0x70000010)] [] 5 = some (0x7000001, 0x1004, true) := by decide
theorem test_lui :
    observed 0xFFFFF2B7 [(5, 0x123)] [] 5 = some (0xFFFFF000, 0x1004, true) := by decide
theorem test_auipc_wraps :
    observed 0xFFFFF297 [] [] 5 = some (0x0, 0x1004, true) := by decide
theorem test_add_carry :
    observed 0x007302B3 [(6, 0xFFFFFFFF), (7, 0x1)] [] 5 = some (0x0, 0x1004, true) := by decide
theorem test_add_same :
    observed 0x005282B3 [(5, 0x80000001)] [] 5 = some (0x2, 0x1004, true) := by decide
theorem test_sub :
    observed 0x407302B3 [(6, 0x80000000), (7, 0x1)] [] 5 = some (0x7FFFFFFF, 0x1004, true) := by decide
theorem test_slt :
    observed 0x007322B3 [(6, 0x80000000), (7, 0x7FFFFFFF)] [] 5 = some (0x1, 0x1004, true) := by decide
theorem test_sltu :
    observed 0x007332B3 [(6, 0x80000000), (7, 0x7FFFFFFF)] [] 5 = some (0x0, 0x1004, true) := by decide
theorem test_and :
    observed 0x007372B3 [(6, 0xFF00FF00), (7, 0xFF00FF0)] [] 5 = some (0xF000F00, 0x1004, true) := by decide
theorem test_or :
    observed 0x007362B3 [(6, 0xFF00FF00), (7, 0xFF00FF0)] [] 5 = some (0xFFF0FFF0, 0x1004, true) := by decide
theorem test_xor :
    observed 0x007342B3 [(6, 0xFF00FF00), (7, 0xFF00FF0)] [] 5 = some (0xF0F0F0F0, 0x1004, true) := by decide
theorem test_sll_low_five :
    observed 0x007312B3 [(6, 0x1), (7, 0xFFFFFFE4)] [] 5 = some (0x10, 0x1004, true) := by decide
theorem test_srl_low_five :
    observed 0x007352B3 [(6, 0x80000000), (7, 0x21)] [] 5 = some (0x40000000, 0x1004, true) := by decide
theorem test_sra_low_five :
    observed 0x407352B3 [(6, 0x80000000), (7, 0x24)] [] 5 = some (0xF8000000, 0x1004, true) := by decide
theorem test_jal :
    observed 0x001000EF [] [] 1 = some (0x1004, 0x1800, true) := by decide
theorem test_jalr_clears_bit0 :
    observed 0xFFD300E7 [(6, 0x2008)] [] 1 = some (0x1004, 0x2004, true) := by decide
theorem test_jalr_rd_is_rs1 :
    observed 0x00430367 [(6, 0x2000)] [] 6 = some (0x1004, 0x2004, true) := by decide
theorem test_beq_taken :
    observed 0x00730863 [(6, 0x5), (7, 0x5)] [] 0 = some (0x0, 0x1010, true) := by decide
theorem test_beq_not_taken_misaligned :
    observed 0x00730163 [(6, 0x1), (7, 0x2)] [] 0 = some (0x0, 0x1004, true) := by decide
theorem test_bne_backward :
    observed 0xFE731CE3 [(6, 0x1), (7, 0x2)] [] 0 = some (0x0, 0xFF8, true) := by decide
theorem test_bne_not_taken :
    observed 0x00731863 [(6, 0x5), (7, 0x5)] [] 0 = some (0x0, 0x1004, true) := by decide
theorem test_blt_taken :
    observed 0x00734863 [(6, 0xFFFFFFFF), (7, 0x1)] [] 0 = some (0x0, 0x1010, true) := by decide
theorem test_blt_equal :
    observed 0x00734863 [(6, 0x7), (7, 0x7)] [] 0 = some (0x0, 0x1004, true) := by decide
theorem test_bltu_taken :
    observed 0x00736863 [(6, 0x1), (7, 0xFFFFFFFF)] [] 0 = some (0x0, 0x1010, true) := by decide
theorem test_bltu_not_taken :
    observed 0x00736863 [(6, 0xFFFFFFFF), (7, 0x1)] [] 0 = some (0x0, 0x1004, true) := by decide
theorem test_bge_not_taken :
    observed 0x00735863 [(6, 0xFFFFFFFF), (7, 0x1)] [] 0 = some (0x0, 0x1004, true) := by decide
theorem test_bge_equal :
    observed 0x00735863 [(6, 0x7), (7, 0x7)] [] 0 = some (0x0, 0x1010, true) := by decide
theorem test_bgeu_taken :
    observed 0x00737863 [(6, 0xFFFFFFFF), (7, 0x1)] [] 0 = some (0x0, 0x1010, true) := by decide
theorem test_bgeu_not_taken :
    observed 0x00737863 [(6, 0x1), (7, 0xFFFFFFFF)] [] 0 = some (0x0, 0x1004, true) := by decide
theorem test_lb :
    observed 0xFFF30283 [(6, 0x2001)] data 5 = some (0xFFFFFF80, 0x1004, true) := by decide
theorem test_lbu :
    observed 0x00334283 [(6, 0x2000)] data 5 = some (0x80, 0x1004, true) := by decide
theorem test_lh :
    observed 0x00231283 [(6, 0x2000)] data 5 = some (0xFFFF8000, 0x1004, true) := by decide
theorem test_lhu_misaligned :
    observed 0x00335283 [(6, 0x2000)] data 5 = some (0x4480, 0x1004, true) := by decide
theorem test_lw_misaligned :
    observed 0x00132283 [(6, 0x2000)] data 5 = some (0x4480007F, 0x1004, true) := by decide
theorem test_lw_rd_is_rs1 :
    observed 0x00432303 [(6, 0x2000)] data 6 = some (0x11223344, 0x1004, true) := by decide
theorem test_fence_reserved :
    observed 0xF33F8F8F [(31, 0x55555555)] [] 31 = some (0x55555555, 0x1004, true) := by decide
theorem test_fenceI :
    observed 0xFFFF9F8F [(31, 0x55555555)] [] 31 = some (0x55555555, 0x1004, true) := by decide

theorem test_sb : (nextOf (exec (.sb 7 6 1) (start [(6, 0x2000), (7, 0xDEADBEEF)] []))).map
    (fun t => (t.mem, t.stale)) = some ([(0x2001, 0xEF)], [(0x2001, 0x00)]) := by decide
theorem test_sb_zero : (nextOf (exec (.sb 0 6 0) (start [(6, 0x2000)] [(0x2000, 0xFF)]))).map
    (fun t => (t.mem, t.stale)) = some ([], [(0x2000, 0xFF)]) := by decide
theorem test_sh_low_half : (nextOf (exec (.sh 7 6 (-2))
    (start [(6, 0x2002), (7, 0xDEADBEEF)] []))).map (·.mem) =
      some [(0x2000, 0xEF), (0x2001, 0xBE)] := by decide
theorem test_sw_wraps : (nextOf (exec (.sw 7 0 (-1)) (start [(7, 0x44332211)] []))).map (·.mem) =
    some [(0, 0x22), (1, 0x33), (2, 0x44), (0xFFFFFFFF, 0x11)] := by decide
theorem test_sw_old_bytes : (nextOf (exec (.sw 6 6 0) (start [(6, 0x2000)] data))).map
    (fun t => (t.byteAt 0x2001, t.stale)) =
      some (0x20, [(0x2000, 0x80), (0x2001, 0x7F), (0x2003, 0x80)]) := by decide

theorem test_jal_misaligned : trapped 0x002000EF [(1, 0xAAAAAAAA)] 1 =
    some (some (.instructionAddressMisaligned, some 0x1002), 0x1000, 0xAAAAAAAA) := by decide
theorem test_jalr_misaligned : trapped 0x003302E7 [(6, 0x2000), (5, 0xAAAAAAAA)] 5 =
    some (some (.instructionAddressMisaligned, some 0x2002), 0x1000, 0xAAAAAAAA) := by decide
theorem test_beq_misaligned : trapped 0x00000163 [] 0 =
    some (some (.instructionAddressMisaligned, some 0x1002), 0x1000, 0) := by decide
theorem test_illegal_word : trapped 0xFFFFFFFF [] 0 =
    some (some (.illegalInstruction, some 0xFFFFFFFF), 0x1000, 0) := by decide
theorem test_csrrs_writes : trapped 0xC00322F3 [(6, 0), (5, 0xAAAAAAAA)] 5 =
    some (some (.illegalInstruction, some 0xC00322F3), 0x1000, 0xAAAAAAAA) := by decide
theorem test_csrrc_writes : trapped 0xC00332F3 [(6, 1), (5, 0xAAAAAAAA)] 5 =
    some (some (.illegalInstruction, some 0xC00332F3), 0x1000, 0xAAAAAAAA) := by decide
theorem test_csrrw : trapped 0xC0031073 [(6, 1)] 0 =
    some (some (.illegalInstruction, some 0xC0031073), 0x1000, 0) := by decide
theorem test_csrrwi_zero : trapped 0xC00052F3 [(5, 0xAAAAAAAA)] 5 =
    some (some (.illegalInstruction, some 0xC00052F3), 0x1000, 0xAAAAAAAA) := by decide
theorem test_csrrsi_writes : trapped 0xC010E2F3 [(5, 0xAAAAAAAA)] 5 =
    some (some (.illegalInstruction, some 0xC010E2F3), 0x1000, 0xAAAAAAAA) := by decide
theorem test_csrrci_writes : trapped 0xC80FF2F3 [(5, 0xAAAAAAAA)] 5 =
    some (some (.illegalInstruction, some 0xC80FF2F3), 0x1000, 0xAAAAAAAA) := by decide
theorem test_unimplemented_csr : trapped 0x300022F3 [(5, 0xAAAAAAAA)] 5 =
    some (some (.illegalInstruction, some 0x300022F3), 0x1000, 0xAAAAAAAA) := by decide
theorem test_ecall : trapped 0x00000073 [] 0 = some (some (.environmentCall, none), 0x1000, 0) := by
  decide
theorem test_ebreak : trapped 0x00100073 [] 0 =
    some (some (.breakpoint, some 0x1000), 0x1000, 0) := by decide
theorem test_rdinstret : (nextOf (exec (.csrrs 5 0xC02 0)
    { start [] [] with instret64 := 0x00000000FFFFFFFF })).map (fun t => (t.reg 5, t.instret64)) =
      some (0xFFFFFFFF, 0x0000000100000000) := by decide
theorem test_rdcycleh : (nextOf (exec (.csrrci 5 0xC80 0)
    { start [] [] with cycle64 := 0x0000000200000030 })).map (·.reg 5) = some 2 := by decide
theorem test_rdtime : (nextOf (exec (.csrrsi 5 0xC01 0)
    { start [] [] with time64 := 0x00000005DEADBEEF })).map (·.reg 5) = some 0xDEADBEEF := by decide
theorem test_rdinstreth : (nextOf (exec (.csrrc 5 0xC82 0)
    { start [] [] with instret64 := 0x0000000900000000 })).map (·.reg 5) = some 9 := by decide

/-- Reading, writing and fetching forbidden at 0x3000 only (the access-fault vectors of section 2.5). -/
def guarded (regs : List (Reg × Word)) : State :=
  { start regs [] with map := [⟨0x3000, 1, ⟨false, false, false, false⟩⟩] }

theorem test_load_fault : (nextOf (exec (.lw 5 6 0) (guarded [(6, 0x2FFD)]))).map
    (fun t => t.trap.map fun r => (r.exception, r.info)) =
      some (some (.loadAccessFault, some 0x2FFD)) := by decide
theorem test_store_fault : (nextOf (exec (.sw 7 6 0) (guarded [(6, 0x2FFD), (7, 1)]))).map
    (fun t => (t.mem, t.trap.map fun r => (r.exception, r.info))) =
      some ([], some (.storeAccessFault, some 0x2FFD)) := by decide
theorem test_fetch_fault : (nextOf (step { guarded [] with pc := 0x3000 })).map
    (fun t => (t.pc, t.trap.map fun r => (r.exception, r.info))) =
      some (0x3000, some (.instructionAccessFault, some 0x3000)) := by decide
theorem test_refused_words : (match step ((start [] []).withFetchWord 32 0x027302B3) with
    | .refused .multiplySpace => true
    | _ => false) = true ∧
    (match step ((start [] []).withFetchWord 32 0x00010001) with
    | .refused .compressedSpace => true
    | _ => false) = true := by decide

/-! ### What meets the hypotheses of each statement of Certificates/Slice0/Obligations.lean -/

theorem witness_DecodeOfEncode : (Instr.jal 31 (-1048576)).wellFormed = true ∧
    (Instr.beq 0 31 4094).wellFormed = true := by decide

theorem witness_EncodeOfDecode :
    decode 0xF33F8F8F = .ok (.fence ⟨false, false, true, true⟩ ⟨false, false, true, true⟩) ∧
    decode 0xFFFF9F8F = .ok .fenceI ∧ decode 0x80000063 = .ok (.beq 0 0 (-4096)) := by decide

theorem witness_AssembledWords : (-4096 : BitVec 13).getLsbD 0 = false ∧
    (4094 : BitVec 13).getLsbD 0 = false ∧ (-1048576 : BitVec 21).getLsbD 0 = false ∧
    (1048574 : BitVec 21).getLsbD 0 = false := by decide

theorem witness_DecodeFollowsTheTable : (Instr.add 0 0 0).row.covers 0x007302B3 = true ∧
    (Instr.add 5 6 7).row.covers 0x007302B3 = true := by decide

theorem witness_UnmatchedWordsRaise : ∃ s : State, s.Running ∧ aligned s.pc = true ∧
    s.fetch s.pc = some 0xFFFFFFFF ∧ (∀ i : Instr, i.row.covers 0xFFFFFFFF = false) ∧
    (0xFFFFFFFF : Word).extractLsb' 0 2 = 0b11#2 ∧
    ¬ ((0xFFFFFFFF : Word).extractLsb' 0 7 = 0b0110011#7 ∧
      (0xFFFFFFFF : Word).extractLsb' 25 7 = 0b0000001#7) :=
  ⟨(start [] []).withFetchWord 32 0xFFFFFFFF, rfl, by decide, by decide,
    fun i => by cases i <;> simp only [Instr.row] <;> decide, by decide, by decide⟩

/-- A word of each group of rule R97, in the order of the statement. -/
theorem witness_UnmatchedWordsRaise_groups :
    let op (w : Word) := w.extractLsb' 0 7
    let f3 (w : Word) := w.extractLsb' 12 3
    let f7 (w : Word) := w.extractLsb' 25 7
    op 0x00002007 ∉ [0b0110111#7, 0b0010111#7, 0b1101111#7, 0b1100111#7, 0b1100011#7, 0b0000011#7,
        0b0100011#7, 0b0010011#7, 0b0110011#7, 0b0001111#7, 0b1110011#7] ∧
      (op 0x00732863 = 0b1100011#7 ∧ f3 0x00732863 ∈ [0b010#3, 0b011#3]) ∧
      (op 0x00033283 = 0b0000011#7 ∧ f3 0x00033283 ∈ [0b011#3, 0b110#3, 0b111#3]) ∧
      (op 0x00733023 = 0b0100011#7 ∧ 3 ≤ (f3 0x00733023).toNat) ∧
      (op 0x00009067 = 0b1100111#7 ∧ f3 0x00009067 ≠ 0b000#3) ∧
      (op 0x0000200F = 0b0001111#7 ∧ 2 ≤ (f3 0x0000200F).toNat) ∧
      (op 0x02131293 = 0b0010011#7 ∧ f3 0x02131293 = 0b001#3 ∧ f7 0x02131293 ≠ 0b0000000#7) ∧
      (op 0x80135293 = 0b0010011#7 ∧ f3 0x80135293 = 0b101#3 ∧
        f7 0x80135293 ∉ [0b0000000#7, 0b0100000#7]) ∧
      (op 0x047302B3 = 0b0110011#7 ∧ f7 0x047302B3 ∉ [0b0000000#7, 0b0100000#7]) ∧
      (op 0x407312B3 = 0b0110011#7 ∧ f7 0x407312B3 = 0b0100000#7 ∧
        f3 0x407312B3 ∉ [0b000#3, 0b101#3]) ∧
      (op 0xC00042F3 = 0b1110011#7 ∧ f3 0xC00042F3 = 0b100#3) ∧
      (op 0x30200073 = 0b1110011#7 ∧ f3 0x30200073 = 0b000#3 ∧ (0x30200073 : Word) ≠ 0x00000073 ∧
        (0x30200073 : Word) ≠ 0x00100073) := by decide

theorem witness_RefusedSpaces : ∃ s t : State, s.Running ∧ aligned s.pc = true ∧
    s.fetch s.pc = some 0x00010001 ∧ t.Running ∧ aligned t.pc = true ∧
    t.fetch t.pc = some 0x027302B3 :=
  ⟨(start [] []).withFetchWord 32 0x00010001, (start [] []).withFetchWord 32 0x027302B3, rfl,
    by decide, by decide, rfl, by decide, by decide⟩

theorem witness_ReservedFenceFieldsIgnored : (0xF33F8F8F : Word) &&& 0x0000707F = 0x0000000F ∧
    (0xF33F8F8F : Word) &&& 0x0FF0707F = 0x0330000F &&& 0x0FF0707F ∧
    (0xFFFF9F8F : Word) &&& 0x0000707F = 0x0000100F := by decide

/-- A word at each end of the range of each immediate. -/
theorem witness_ImmediateBits : decode 0x80030293 = .ok (.addi 5 6 (-2048)) ∧
    decode 0x7FF30293 = .ok (.addi 5 6 2047) ∧ decode 0x80732023 = .ok (.sw 7 6 (-2048)) ∧
    decode 0x7E732FA3 = .ok (.sw 7 6 2047) ∧ decode 0x80000063 = .ok (.beq 0 0 (-4096)) ∧
    decode 0x7E000FE3 = .ok (.beq 0 0 4094) ∧ decode 0x800002B7 = .ok (.lui 5 0x80000) ∧
    decode 0x7FFFF297 = .ok (.auipc 5 0x7FFFF) ∧ decode 0x800000EF = .ok (.jal 1 (-1048576)) ∧
    decode 0x7FFFF0EF = .ok (.jal 1 1048574) := by decide

theorem witness_StepRunsDecodedInstruction : ∃ s : State, s.Running ∧ aligned s.pc = true ∧
    s.fetch s.pc = some 0x00130293 ∧ decode 0x00130293 = .ok (.addi 5 6 1) :=
  ⟨(start [] []).withFetchWord 32 0x00130293, rfl, by decide, by decide, by decide⟩

/-- At the last word of the address space. -/
theorem witness_StepRunsTheBytesAtPc : ∃ s : State, s.Running ∧ s.pc.toNat % 4 = 0 ∧
    (Instr.addi 5 6 1).wellFormed = true ∧ AllAccessible s .fetch s.pc 4 ∧
    (∀ j < 4, let a := s.pc + BitVec.ofNat 32 j
      s.isIo a = false ∧ s.stale.values a.toNat = [] ∧
        (encodeBytes (.addi 5 6 1))[j]? = some (s.byteAt a)) :=
  ⟨{ start [] [(0xFFFFFFFC, 0x93), (0xFFFFFFFD, 0x02), (0xFFFFFFFE, 0x13)] with pc := 0xFFFFFFFC },
    rfl, by decide, by decide, by unfold AllAccessible; decide, by decide⟩

theorem witness_PlacedInstructionRuns : Memory.wf State.reset.mem ∧
    (Instr.jal 1 (-4)).wellFormed = true ∧
    4 ≤ ((0x00000004 : Word) - (State.reset.withFetchWord 32 (encode (.jal 1 (-4))).toNat).pc).toNat := by
  decide

theorem witness_FetchOperation :
    let s := { guarded [] with pc := 0x3000 }
    s.Running ∧ aligned s.pc = true ∧ ¬ AllAccessible s .fetch s.pc 4 ∧
      ¬ AllAccessible s .fetch 0x2FFD 4 ∧ AllAccessible s .fetch 0x2FFC 4 ∧
      AllAccessible s .fetch 0x3001 4 := by
  refine ⟨rfl, by decide, ?_, ?_, ?_, ?_⟩ <;> unfold AllAccessible <;> decide

theorem witness_StaleBytes : State.reset.isIo 0x2000 = false ∧ Memory.wf (start [] data).mem ∧
    (∃ t, exec .fenceI (start [] data) = .next t) ∧
    ∃ t, exec (.sb 7 6 1) (start [] data) = .next t :=
  ⟨by decide, by decide, ⟨_, rfl⟩, ⟨_, rfl⟩⟩

theorem witness_RunningHartNeverFaults : (start [] data).Inv ∧ (start [] data).Running := by decide

theorem witness_StepKeepsInv : ∃ s t : State, s.Inv ∧ step s = .next t :=
  ⟨(start [] data).withFetchWord 32 0x00732423, _, by decide, rfl⟩

theorem witness_StepKeepsTheMap : ∃ s t : State, step s = .next t :=
  ⟨(start [] []).withFetchWord 32 0x00000073, _, rfl⟩

theorem witness_TrapsArePrecise : ∃ (s t : State) (r : TrapRecord), s.Running ∧ step s = .next t ∧
    t.trap = some r :=
  ⟨(start [] []).withFetchWord 32 0x00100073, _, _, rfl, rfl, rfl⟩

/-- A jump that retires, and one that traps. -/
theorem witness_PcAdvance : ∃ s t u : State, s.Running ∧ exec (.jal 1 8) s = .next t ∧ t.trap = none ∧
    exec (.jal 1 2) s = .next u ∧ u.trap ≠ none :=
  ⟨start [] [], _, _, rfl, rfl, rfl, rfl, by decide⟩

theorem witness_MisalignedTargetsRaise :
    transferTarget (.beq 0 0 2) (start [] []) = some 0x1002 ∧ Misaligned 0x1002 ∧
    (start [] []).Running ∧ (∃ t r, exec (.beq 0 0 2) (start [] []) = .next t ∧ t.trap = some r ∧
      r.exception = .instructionAddressMisaligned) ∧
    (Instr.beq 0 0 2).wellFormed = true ∧ aligned (start [] []).pc = true :=
  ⟨by decide, by unfold Misaligned; decide, rfl, ⟨_, _, rfl, rfl, rfl⟩, by decide, by decide⟩

theorem witness_OnlyTheDestinationChanges : ∃ s t : State, exec (.addi 31 0 1) s = .next t ∧
    t.reg 31 ≠ s.reg 31 := ⟨start [] [], _, rfl, by decide⟩

theorem witness_OnlyStoresChangeMemory : ∃ s t : State, Memory.wf s.mem ∧
    exec (.sw 7 6 0) s = .next t ∧ t.byteAt 0x2003 ≠ s.byteAt 0x2003 :=
  ⟨start [(6, 0x2000), (7, 1)] data, _, by decide, rfl, by decide⟩

theorem witness_ResultsIgnoreTheClocks : accessesCsr (.sw 7 6 0) = false := by decide

theorem witness_OnlyEcallEndsNormally : ∃ s t u : State, s.Running ∧ exec .ecall s = .next t ∧
    exec .ebreak s = .next u := ⟨start [] [], _, _, rfl, rfl, rfl⟩

/-- Each case of JAL: an aligned target, a misaligned one, and an even offset at an aligned pc. -/
theorem witness_JalJumpsAndLinks : ¬ Misaligned ((start [] []).pc + (1048572 : BitVec 21).signExtend 32) ∧
    Misaligned ((start [] []).pc + (1048574 : BitVec 21).signExtend 32) ∧
    aligned (start [] []).pc = true ∧ (1048574 : BitVec 21).getLsbD 0 = false := by
  unfold Misaligned; decide

/-- Bit 1 of the sum clear, with bit 0 set; and bit 1 set. -/
theorem witness_JalrJumpsAndLinks :
    ((start [(6, 0x2008)] []).reg 6 + (-3 : BitVec 12).signExtend 32).getLsbD 1 = false ∧
    ((start [(6, 0x2000)] []).reg 6 + (3 : BitVec 12).signExtend 32).getLsbD 1 = true := by decide

/-- For each condition a state where it holds and one where it does not; an aligned target, and a
misaligned one. -/
theorem witness_ConditionalBranches :
    let s := start [(6, 0xFFFFFFFF), (7, 1)] []
    ¬ Misaligned (s.pc + (-4096 : BitVec 13).signExtend 32) ∧
    Misaligned (s.pc + (4094 : BitVec 13).signExtend 32) ∧
    s.reg 6 = s.reg 6 ∧ s.reg 6 ≠ s.reg 7 ∧ (s.reg 6).toInt < (s.reg 7).toInt ∧
    ¬ (s.reg 7).toInt < (s.reg 6).toInt ∧ (s.reg 7).toNat < (s.reg 6).toNat ∧
    ¬ (s.reg 6).toNat < (s.reg 7).toNat := by
  unfold Misaligned; decide

/-- The last byte that may be read before a forbidden one, and accesses that reach it. -/
theorem witness_LoadsReadAndExtend :
    let s := guarded [(6, 0x2FFC)]
    AllAccessible s .read (s.reg 6 + (3 : BitVec 12).signExtend 32) 1 ∧
    ¬ AllAccessible s .read (s.reg 6 + (4 : BitVec 12).signExtend 32) 1 ∧
    AllAccessible s .read (s.reg 6 + (2 : BitVec 12).signExtend 32) 2 ∧
    ¬ AllAccessible s .read (s.reg 6 + (3 : BitVec 12).signExtend 32) 2 ∧
    AllAccessible s .read (s.reg 6 + (0 : BitVec 12).signExtend 32) 4 ∧
    ¬ AllAccessible s .read (s.reg 6 + (1 : BitVec 12).signExtend 32) 4 := by
  unfold AllAccessible; decide

theorem witness_StoresWriteLowBytes :
    let s := guarded [(6, 0x2FFC), (7, 1)]
    Memory.wf s.mem ∧ AllAccessible s .write (s.effAddr 6 3) 1 ∧
    ¬ AllAccessible s .write (s.effAddr 6 4) 1 ∧ AllAccessible s .write (s.effAddr 6 2) 2 ∧
    ¬ AllAccessible s .write (s.effAddr 6 3) 2 ∧ AllAccessible s .write (s.effAddr 6 0) 4 ∧
    ¬ AllAccessible s .write (s.effAddr 6 1) 4 := by
  unfold AllAccessible; decide

/-- Across the end of the address space. -/
theorem witness_MixedWidthAccesses : ∃ s t : State, Memory.wf s.mem ∧
    AllAccessible s .read 0xFFFFFFFE 4 ∧
    (∀ j < 4, s.isIo (0xFFFFFFFE + BitVec.ofNat 32 j) = false) ∧
    s.memWrite 0xFFFFFFFE 4 0x11223344 = some t :=
  ⟨start [] data, _, by decide, by unfold AllAccessible; decide, by decide, rfl⟩

theorem witness_LoadSeesEarlierStore :
    let s := start [(6, 0x2000), (7, 0xDEADBEEF)] data
    Memory.wf s.mem ∧ s.Running ∧ (∀ j < 4, s.isIo (s.effAddr 6 1 + BitVec.ofNat 32 j) = false) ∧
    AllAccessible s .read (s.effAddr 6 1) 4 ∧
    (∃ t, exec (.sw 7 6 1) s = .next t ∧ t.Running ∧ t.effAddr 6 1 = s.effAddr 6 1) ∧
    (∃ t, exec (.sh 7 6 1) s = .next t ∧ t.Running ∧ t.effAddr 6 1 = s.effAddr 6 1) ∧
    ∃ t, exec (.sb 7 6 1) s = .next t ∧ t.Running ∧ t.effAddr 6 1 = s.effAddr 6 1 :=
  ⟨by decide, rfl, by decide, by unfold AllAccessible; decide, ⟨_, rfl, rfl, by decide⟩,
    ⟨_, rfl, rfl, by decide⟩, ⟨_, rfl, rfl, by decide⟩⟩

theorem witness_CanonicalMemoriesAgree : Memory.wf data ∧ Memory.wf data ∧
    ∀ a < 2 ^ 32, Memory.read data a = Memory.read data a := ⟨by decide, by decide, fun _ _ => rfl⟩

/-- Each of the six CSRs has an entry. -/
theorem witness_CsrReads : ∀ csr ∈ ([0xC00, 0xC01, 0xC02, 0xC80, 0xC81, 0xC82] : List CsrAddr),
    ∃ v, (csr, v) ∈ ([(0xC00, State.reset.cycle64.extractLsb' 0 32),
      (0xC01, State.reset.time64.extractLsb' 0 32), (0xC02, State.reset.instret64.extractLsb' 0 32),
      (0xC80, State.reset.cycle64.extractLsb' 32 32), (0xC81, State.reset.time64.extractLsb' 32 32),
      (0xC82, State.reset.instret64.extractLsb' 32 32)] : List (CsrAddr × Word)) := by
  intro csr h; exact ⟨0, by revert csr; decide⟩

theorem witness_CsrWritesRaise : decode 0xC00312F3 = .ok (.csrrw 5 0xC00 6) ∧
    accessesCsr (.csrrw 5 0xC00 6) = true ∧ (1 : BitVec 5) ≠ 0 ∧ (31 : BitVec 5) ≠ 0 := by decide

/-- The neighbours of the six, and a privileged one. -/
theorem witness_UnimplementedCsrsRaise : ∀ csr ∈ ([0xBFF, 0xC03, 0xC7F, 0xC83, 0x300] : List CsrAddr),
    csr ∉ ([0xC00, 0xC01, 0xC02, 0xC80, 0xC81, 0xC82] : List CsrAddr) := by decide

theorem witness_ConsecutiveInstretReads : ∃ s t u : State, (5 : Reg) ≠ 0 ∧ (6 : Reg) ≠ 0 ∧
    exec (Pseudo.rdinstret 5) s = .next t ∧ exec (Pseudo.rdinstret 6) t = .next u :=
  ⟨start [] [], _, _, by decide, by decide, rfl, rfl⟩

/-- A trap record stands; an answer at an aligned pc and one at a misaligned pc. -/
theorem witness_EnvironmentAnswers : (∃ (s : State) (r : TrapRecord), s.trap = some r) ∧
    Memory.wf (start [] data).mem ∧ aligned 0x1004 = true ∧ aligned 0x1006 = false :=
  ⟨⟨{ start [] [] with trap := some ⟨0, .environmentCall, 0x1000, none⟩ }, _, rfl⟩, by decide,
    by decide, by decide⟩

/-- A fetch view that no store of the state makes. -/
theorem witness_EnvironmentCanGiveAnyState : let s := start [] data
    let u := { start [] [] with stale := [(0x1000, 0x13), (0x1000, 0x6F), (0xFFFFFFFF, 0)] }
    Memory.wf s.mem ∧ Memory.wf u.mem ∧ Stale.wf u.stale ∧ aligned u.pc = true := by decide

/-- A hart that an ECALL at 0x1000 has handed over. -/
def handedOver : State :=
  { start [] data with trap := some ⟨0, .environmentCall, 0x1000, none⟩ }

/-- An answer to it that sets x10, rewrites a byte of memory twice and leaves stale values. -/
def ecallDone : Resume where
  regs := (handedOver.setReg 10 7).regs
  pc := 0x1004
  cycle64 := 9
  instret64 := 2
  fetchView := [(0x3000, 1), (0x2000, 0x80), (0x3000, 1)]
  stores := [(0x2000, 5), (0x2000, 0)]

/-- Source: rules R39 and R243. -/
theorem test_resume : (nextOf (handedOver.answered (.resume ecallDone))).map (fun t =>
      (t.reg 10, t.pc, t.byteAt 0x2000, t.trap.isNone)) = some (7, 0x1004, 0, true) := by decide
theorem test_resume_fetch_view : (handedOver.resumeFrom ecallDone).stale =
    [(0x2000, 0x80), (0x3000, 1)] := by decide

theorem reset_meets_inv : State.reset.Inv := by decide

end Sys2Proof.Tests
end

section
/-! PROOFS. The family of 00_scope.md: the step of a running hart (rule R12), what it runs when an
instruction stands in memory or has been placed there, and that it never faults. -/

namespace Sys2Proof.Machine

/-! ### The decoder reads every encoded instruction back -/

@[simp] theorem classes_ofBits_bits (c : Classes) : Classes.ofBits c.bits = c := by
  obtain ⟨i, o, r, w⟩ := c
  simp [Classes.ofBits, Classes.bits]

/-- The classes of a FENCE are the two halves of the low eight bits of its immediate (rule R94). -/
theorem predOf_iFormat (p q : BitVec 4) (rs1 : Reg) (f3 : BitVec 3) (rd : Reg) (op : BitVec 7) :
    predOf (iFormat (place 12 4 p ||| place 12 0 q) rs1 f3 rd op) = .ofBits p := by
  refine congrArg Classes.ofBits (BitVec.eq_of_getLsbD_eq fun i hi => ?_)
  interval_cases i <;> simp [iFormat]

theorem succOf_iFormat (p q : BitVec 4) (rs1 : Reg) (f3 : BitVec 3) (rd : Reg) (op : BitVec 7) :
    succOf (iFormat (place 12 4 p ||| place 12 0 q) rs1 f3 rd op) = .ofBits q := by
  refine congrArg Classes.ofBits (BitVec.eq_of_getLsbD_eq fun i hi => ?_)
  interval_cases i <;> simp [iFormat]

/-- The fields of an encoded instruction are its operands; an offset must be even to be read back
(rules R90, R92, R105). -/
theorem reads_encode {i : Instr} (h : i.wellFormed = true) : Reads (encode i) i := by
  cases i
  case jal => exact ⟨opcodeOf_ujFormat .., rdOf_ujFormat .., immJOf_ujFormat h ..⟩
  case beq | bne | blt | bge | bltu | bgeu =>
    exact ⟨opcodeOf_sbFormat .., funct3Of_sbFormat .., rs1Of_sbFormat .., rs2Of_sbFormat ..,
      immBOf_sbFormat h ..⟩
  case fence => simp [Reads, encode, predOf_iFormat, succOf_iFormat]
  case ecall | ebreak => rfl
  all_goals simp [Reads, encode]

/-- Decoding undoes encoding (rule R105). -/
theorem decode_encode {i : Instr} (h : i.wellFormed = true) : decode (encode i) = .ok i :=
  decode_of_reads (reads_encode h)

/-! ### The step of a running hart (rule R12) -/

/-- A decoded word runs as its instruction. -/
theorem runWord_of_decode {w : Word} {i : Instr} (h : decode w = .ok i) (s : State) :
    runWord s w = exec i s := by
  simp only [runWord, h]

/-- A word goes on, or it lies in a refused space and is refused by that name (rules R97, R98). -/
theorem runWord_cases (s : State) (w : Word) :
    (∃ t, runWord s w = .next t) ∨
      (decode w = .error .compressed ∧ runWord s w = .refused .compressedSpace) ∨
      (decode w = .error .mulDiv ∧ runWord s w = .refused .multiplySpace) := by
  cases h : decode w with
  | ok i =>
    obtain ⟨t, ht, -⟩ := exec_effect i s
    exact .inl ⟨t, by rw [runWord_of_decode h, ht]⟩
  | error r =>
    cases r with
    | compressed => exact .inr (.inl ⟨rfl, by simp only [runWord, h]⟩)
    | mulDiv => exact .inr (.inr ⟨rfl, by simp only [runWord, h]⟩)
    | illegal | truncated => exact .inl ⟨s.illegal w, by simp only [runWord, h]⟩

/-- A running hart at an aligned pc runs the word it fetches. -/
theorem step_of_fetch {s : State} {w : Word} (hr : s.Running) (ha : aligned s.pc = true)
    (hf : s.fetch s.pc = some w) : step s = runWord s w := by
  have hr : s.trap = none := hr
  simp only [step, stepMachine, runHart, hr, ha, hf, if_true]

/-- A running hart at an aligned pc that may not fetch there raises (rules R53, R62). -/
theorem step_of_fetch_none {s : State} (hr : s.Running) (ha : aligned s.pc = true)
    (hf : s.fetch s.pc = none) :
    step s = .next (s.raise .instructionAccessFault (some s.pc)) := by
  have hr : s.trap = none := hr
  simp only [step, stepMachine, runHart, hr, ha, hf, if_true]

/-- Settles O10: fetch (rule R12 step 2), then decode (step 3). -/
theorem stepRunsDecodedInstruction : Obligations.StepRunsDecodedInstruction := by
  intro s w i hr ha hf hd
  rw [step_of_fetch hr ha hf, runWord_of_decode hd]

/-- Settles O15: the fetch raises, or the fetched word does one of the things of `runWord_cases`. -/
theorem runningHartNeverFaults : Obligations.RunningHartNeverFaults := by
  rintro s ⟨-, -, ha, -⟩ hr
  cases hf : s.fetch s.pc with
  | none => exact .inl ⟨_, step_of_fetch_none hr ha hf⟩
  | some w =>
    rw [step_of_fetch hr ha hf]
    exact (runWord_cases s w).imp_right fun h => ⟨w, rfl, h⟩

/-! ### Every instruction retires or traps -/

/-- What each effect does to the trap record, the count of retired instructions and the clocks. -/
theorem Effect.retires_or_traps {i : Instr} {s t : State} (h : Effect i s t) :
    (t.trap = s.trap ∧ t.instret64 = s.instret64 + 1 ∧ TimePassed s t) ∨
      ∃ e info, Trapped s t e info ∧ possibleException i = some e := by
  cases h with
  | wrote rd v =>
    obtain ⟨-, -, -, -, hcount, htrap, htime⟩ := s.wroteOnly_retire rd v _
    exact .inl ⟨htrap, hcount, htime⟩
  | moved =>
    obtain ⟨-, -, -, -, hcount, htrap, htime⟩ := s.movedOnly_retire _
    exact .inl ⟨htrap, hcount, htime⟩
  | stored => exact .inl (by simp [TimePassed])
  | synchronised => exact .inl (by simp [TimePassed])
  | trapped e x hp => exact .inr ⟨e, x, s.trapped_raise e x, hp⟩

/-- Settles O19, from the effects an instruction can have. -/
theorem everyInstructionRetiresOrTraps : Obligations.EveryInstructionRetiresOrTraps := by
  intro i s
  obtain ⟨t, ht, he⟩ := exec_effect i s
  exact ⟨t, ht, he.retires_or_traps⟩

/-! ### The instruction whose bytes stand at the pc -/

/-- Four fetched bytes are a word when each is that byte of it (rule R53). -/
theorem State.fetch_of_bytes {s : State} {a w : Word} (h : AllAccessible s .fetch a 4)
    (hb : ∀ j < 4, s.fetchByte (a + BitVec.ofNat 32 j) = byteOf w j) : s.fetch a = some w := by
  have h0 : s.fetchByte a = byteOf w 0 := by simpa using hb 0 (by omega)
  have h1 : s.fetchByte (a + 1) = byteOf w 1 := hb 1 (by omega)
  have h2 : s.fetchByte (a + 2) = byteOf w 2 := hb 2 (by omega)
  have h3 : s.fetchByte (a + 3) = byteOf w 3 := hb 3 (by omega)
  rw [State.fetch_of h, h0, h1, h2, h3, leWord_byteOf]

/-- A byte of ordinary memory not overwritten since the last FENCE.I is fetched as memory holds it
(rule R68). -/
theorem State.fetchByte_ordinary {s : State} {a : Word} (hio : s.isIo a = false)
    (hs : s.stale.values a.toNat = []) : s.fetchByte a = s.byteAt a := by
  rw [State.fetchByte_fresh hs]
  simp [State.observe, hio, State.byteAt]

/-- The bytes of an instruction are the bytes of its word. -/
theorem encodeBytes_getElem? (i : Instr) {j : Nat} (hj : j < 4) :
    (encodeBytes i)[j]? = some (byteOf (encode i) j) := by
  interval_cases j <;> rfl

/-- Settles O11: the fetched word is the encoding of the instruction, which decodes to it. -/
theorem stepRunsTheBytesAtPc : Obligations.StepRunsTheBytesAtPc := by
  intro s i hr hpc hi hacc hbytes
  have hf : s.fetch s.pc = some (encode i) := by
    refine State.fetch_of_bytes hacc fun j hj => ?_
    obtain ⟨hio, hstale, hbyte⟩ := hbytes j hj
    rw [encodeBytes_getElem? i hj, Option.some.injEq] at hbyte
    rw [State.fetchByte_ordinary hio hstale, hbyte]
  exact stepRunsDecodedInstruction s _ i hr ((aligned_iff _).mpr hpc) hf (decode_encode hi)

/-! ### Placing bytes for the next step (log 25) -/

/-- Place bytes at `a`, `a + 1`, …, modulo 2^32; `placeWord_eq` ties it to the model. -/
def State.placeBytes (s : State) (a : Word) : List Byte → State
  | [] => s
  | b :: bs => (s.placeByte a b).placeBytes (a + 1) bs

/-- The hart runs, its pc cut down to a multiple of 4: what `placeWord` makes of a state before it places
the bytes; `placeWord_eq` ties it to the model. -/
def State.readied (s : State) : State := { s with pc := s.pc &&& 0xFFFFFFFC, trap := none }

/-- Placing a word is placing its four bytes at the pc of the readied state. -/
theorem State.placeWord_eq (s : State) (w : Word) :
    s.placeWord w = s.readied.placeBytes s.readied.pc (bytesOf w 4) := by
  have h2 : ∀ a : Word, a + 1 + 1 = a + 2 := by bv_omega
  have h3 : ∀ a : Word, a + 2 + 1 = a + 3 := by bv_omega
  have hl : bytesOf w 4 = [byteOf w 0, byteOf w 1, byteOf w 2, byteOf w 3] := rfl
  simp only [State.placeWord, State.readied, hl, State.placeBytes, h2, h3]

/-- Placing bytes touches memory, the fetch view and the map only. -/
theorem State.placeBytes_fields (bs : List Byte) : ∀ (s : State) (a : Word),
    s.placeBytes a bs =
      { s with
        mem := (s.placeBytes a bs).mem
        stale := (s.placeBytes a bs).stale
        map := (s.placeBytes a bs).map } := by
  induction bs with
  | nil => intro s a; rfl
  | cons b bs ih => intro s a; rw [State.placeBytes, ih]; rfl

@[simp] theorem State.placeBytes_regs (s : State) (a : Word) (bs : List Byte) :
    (s.placeBytes a bs).regs = s.regs := by rw [State.placeBytes_fields]
@[simp] theorem State.placeBytes_pc (s : State) (a : Word) (bs : List Byte) :
    (s.placeBytes a bs).pc = s.pc := by rw [State.placeBytes_fields]
@[simp] theorem State.placeBytes_cycle64 (s : State) (a : Word) (bs : List Byte) :
    (s.placeBytes a bs).cycle64 = s.cycle64 := by rw [State.placeBytes_fields]
@[simp] theorem State.placeBytes_time64 (s : State) (a : Word) (bs : List Byte) :
    (s.placeBytes a bs).time64 = s.time64 := by rw [State.placeBytes_fields]
@[simp] theorem State.placeBytes_instret64 (s : State) (a : Word) (bs : List Byte) :
    (s.placeBytes a bs).instret64 = s.instret64 := by rw [State.placeBytes_fields]
@[simp] theorem State.placeBytes_trap (s : State) (a : Word) (bs : List Byte) :
    (s.placeBytes a bs).trap = s.trap := by rw [State.placeBytes_fields]
@[simp] theorem State.placeBytes_draws (s : State) (a : Word) (bs : List Byte) :
    (s.placeBytes a bs).draws = s.draws := by rw [State.placeBytes_fields]

/-- An address other than the head of a range lies in the range when it lies in its tail. -/
theorem sub_lt_succ_iff {a b : Word} (h : b ≠ a) (n : Nat) :
    (b - a).toNat < n + 1 ↔ (b - (a + 1)).toNat < n := by
  obtain ⟨h1, h2⟩ := sub_add_one_toNat h
  omega

/-- A byte after bytes are placed. -/
theorem State.byteAt_placeBytes (bs : List Byte) : ∀ {s : State} (a b : Word),
    Memory.wf s.mem → bs.length ≤ 2 ^ 32 →
    (s.placeBytes a bs).byteAt b = (bs[(b - a).toNat]?).getD (s.byteAt b) := by
  induction bs with
  | nil => intro s a b _ _; simp [State.placeBytes]
  | cons v bs ih =>
    intro s a b h hl
    simp only [List.length_cons] at hl
    rw [State.placeBytes, ih _ _ (State.placeByte_wf h a v) (by omega), State.byteAt_placeByte h]
    by_cases hb : b = a
    · subst hb
      have hfar : (b - (b + 1)).toNat = 2 ^ 32 - 1 := by bv_omega
      have hnone : bs[2 ^ 32 - 1]? = none := by simp; omega
      simp only [hfar, hnone, Option.getD_none, if_true]
      simp
    · obtain ⟨hsub, hpos⟩ := sub_add_one_toNat hb
      obtain ⟨k, hk⟩ : ∃ k, (b - a).toNat = k + 1 := ⟨(b - a).toNat - 1, by omega⟩
      rw [hsub, hk, if_neg hb]
      simp

/-- The fetch view of every placed byte is empty, every other as before. -/
theorem State.values_placeBytes (bs : List Byte) : ∀ (s : State) (a b : Word),
    (s.placeBytes a bs).stale.values b.toNat =
      if (b - a).toNat < bs.length then [] else s.stale.values b.toNat := by
  induction bs with
  | nil => intro s a b; simp [State.placeBytes]
  | cons v bs ih =>
    intro s a b
    rw [State.placeBytes, ih, State.values_placeByte, List.length_cons]
    by_cases hb : b = a
    · simp [hb]
    · simp only [sub_lt_succ_iff hb, hb, if_false]

/-- What the map says of a byte outside the range is as before. -/
theorem State.attrAt_placeBytes_of_ge (bs : List Byte) : ∀ (s : State) {a b : Word},
    bs.length ≤ (b - a).toNat → attrAt (s.placeBytes a bs).map b = attrAt s.map b := by
  induction bs with
  | nil => intro s a b _; rfl
  | cons v bs ih =>
    intro s a b h
    rw [List.length_cons] at h
    have hb : b ≠ a := by rintro rfl; simp at h
    obtain ⟨hsub, -⟩ := sub_add_one_toNat hb
    exact (ih _ (by omega)).trans ((s.attrAt_placeByte a b v).2 hb)

/-- Every placed byte can be fetched and is no device's. -/
theorem State.attrAt_placeBytes_of_lt (bs : List Byte) : ∀ (s : State) {a b : Word},
    (b - a).toNat < bs.length → (attrAt (s.placeBytes a bs).map b).fetch = true ∧
      (attrAt (s.placeBytes a bs).map b).io = false := by
  induction bs with
  | nil => intro s a b h; simp at h
  | cons v bs ih =>
    intro s a b h
    rw [State.placeBytes]
    by_cases htail : (b - (a + 1)).toNat < bs.length
    · exact ih _ htail
    · have hb : b = a := by
        by_contra hb
        exact htail ((sub_lt_succ_iff hb _).mp (by simpa using h))
      rw [State.attrAt_placeBytes_of_ge _ _ (by omega)]
      exact (s.attrAt_placeByte a b v).1 hb

/-- Placing bytes leaves every byte outside the range as it was. -/
theorem State.placeBytes_frame {s : State} (h : Memory.wf s.mem) {a b : Word} {bs : List Byte}
    (hb : bs.length ≤ (b - a).toNat) :
    (s.placeBytes a bs).byteAt b = s.byteAt b ∧
      (s.placeBytes a bs).stale.values b.toNat = s.stale.values b.toNat ∧
      (s.placeBytes a bs).isIo b = s.isIo b ∧
      ∀ k, (s.placeBytes a bs).accessible k b = s.accessible k b := by
  have hlen : bs.length ≤ 2 ^ 32 := hb.trans (b - a).isLt.le
  have hattr := State.attrAt_placeBytes_of_ge bs s hb
  refine ⟨?_, ?_, ?_, fun k => ?_⟩
  · rw [State.byteAt_placeBytes bs a b h hlen, List.getElem?_eq_none hb, Option.getD_none]
  · rw [State.values_placeBytes, if_neg (Nat.not_lt.mpr hb)]
  · rw [State.isIo, State.isIo, hattr]
  · rw [State.accessible, State.accessible, hattr]

/-- What stands at each address of the range once bytes are placed there: the byte, with an empty fetch
view, in ordinary memory that can be fetched. -/
theorem State.placeBytes_placed {s : State} (h : Memory.wf s.mem) (a : Word) {bs : List Byte}
    (hl : bs.length ≤ 2 ^ 32) {j : Nat} (hj : j < bs.length) :
    (s.placeBytes a bs).accessible .fetch (a + BitVec.ofNat 32 j) = true ∧
      (s.placeBytes a bs).isIo (a + BitVec.ofNat 32 j) = false ∧
      (s.placeBytes a bs).stale.values (a + BitVec.ofNat 32 j).toNat = [] ∧
      bs[j]? = some ((s.placeBytes a bs).byteAt (a + BitVec.ofNat 32 j)) := by
  have hsub : (a + BitVec.ofNat 32 j - a).toNat = j := by
    have : a + BitVec.ofNat 32 j - a = BitVec.ofNat 32 j := by bv_omega
    rw [this, BitVec.toNat_ofNat]; omega
  obtain ⟨hfetch, hio⟩ := State.attrAt_placeBytes_of_lt bs s (by rw [hsub]; exact hj)
  refine ⟨hfetch, hio, ?_, ?_⟩
  · rw [State.values_placeBytes, hsub, if_pos hj]
  · rw [State.byteAt_placeBytes bs a _ h hl, hsub, List.getElem?_eq_getElem hj, Option.getD_some]

/-- The readied state stands at a multiple of 4 (log 25). -/
theorem State.aligned_readied (s : State) : aligned s.readied.pc = true := by
  rw [State.readied, aligned, beq_iff_eq]
  apply BitVec.eq_of_getLsbD_eq; intro i hi
  interval_cases i <;> simp

/-- Loading the word of an instruction places its four bytes. -/
theorem State.withFetchWord_encode (s : State) (i : Instr) :
    s.withFetchWord 32 (encode i).toNat =
      s.readied.placeBytes s.readied.pc (encodeBytes i) := by
  rw [State.withFetchWord, Nat.mod_eq_of_lt (encode i).isLt, BitVec.ofNat_toNat,
    BitVec.setWidth_eq, State.placeWord_eq]
  rfl

/-- A running hart runs the instruction whose bytes have been placed at its aligned pc. -/
theorem step_placeBytes {s : State} {i : Instr} (h : Memory.wf s.mem) (hr : s.Running)
    (ha : aligned s.pc = true) (hi : i.wellFormed = true) :
    step (s.placeBytes s.pc (encodeBytes i)) = exec i (s.placeBytes s.pc (encodeBytes i)) := by
  have hplaced {j : Nat} (hj : j < 4) :=
    State.placeBytes_placed h s.pc (bs := encodeBytes i) (by simp [encodeBytes]) hj
  refine stepRunsTheBytesAtPc _ i ?_ ?_ hi ?_ ?_
  · rw [State.Running, State.placeBytes_trap]; exact hr
  · rw [State.placeBytes_pc]; exact (aligned_iff _).mp ha
  · rw [State.placeBytes_pc]; exact fun j hj => (hplaced hj).1
  · rw [State.placeBytes_pc]; exact fun j hj => (hplaced hj).2

/-- Settles O12: the step by `step_placeBytes`, and each byte outside the four by
`State.placeBytes_frame`. -/
theorem placedInstructionRuns : Obligations.PlacedInstructionRuns := by
  intro s i hmem hi
  rw [State.withFetchWord_encode]
  refine ⟨step_placeBytes hmem rfl s.aligned_readied hi, State.placeBytes_regs ..,
    State.placeBytes_pc .., State.placeBytes_trap .., State.placeBytes_cycle64 ..,
    State.placeBytes_time64 .., State.placeBytes_instret64 .., State.placeBytes_draws ..,
    fun a ha => ?_⟩
  rw [State.placeBytes_pc] at ha
  exact State.placeBytes_frame (s := s.readied) hmem ha

end Sys2Proof.Machine
end

section
/-! PROOFS. The family of 10_state.md: the invariant, and what an instruction changes and leaves of the
registers, the pc, memory, the fetch view and the counters. -/

namespace Sys2Proof.Machine

/-! ### Everything a step can do -/

/-- A word that goes on has one of the effects of its instruction, or matches no row and raises (rules
R12, R97). -/
theorem runWord_next {s t : State} {w : Word} (h : runWord s w = .next t) :
    (∃ i, decode w = .ok i ∧ Effect i s t) ∨
      (decode w = .error .illegal ∨ decode w = .error .truncated) ∧ t = s.illegal w := by
  cases hd : decode w with
  | ok i =>
    rw [runWord_of_decode hd] at h
    exact .inl ⟨i, rfl, effect_of_exec h⟩
  | error r =>
    cases r with
    | compressed | mulDiv => simp [runWord, hd] at h
    | illegal | truncated =>
      simp only [runWord, hd, Host.Outcome.next.injEq] at h
      exact .inr ⟨by simp, h.symm⟩

/-- A step that goes on: the environment resumes a handed-over hart, or a running one is refused its fetch
or runs the word it fetches (rules R12, R53, R243). -/
theorem step_next {s t : State} (h : step s = .next t) :
    (∃ q r, s.trap = some q ∧ Config.eeiHandler q s = .resume r ∧ aligned r.pc = true ∧
      t = s.resumeFrom r) ∨
    (s.Running ∧ aligned s.pc = true ∧
      ((s.fetch s.pc = none ∧ t = s.raise .instructionAccessFault (some s.pc)) ∨
        ∃ w, s.fetch s.pc = some w ∧ runWord s w = .next t)) := by
  cases htrap : s.trap with
  | some q =>
    simp only [step, stepMachine, htrap] at h
    obtain ⟨r, hq, ha, ht⟩ := State.answered_next h
    exact .inl ⟨q, r, rfl, hq, ha, ht⟩
  | none =>
    refine .inr ⟨htrap, ?_⟩
    cases ha : aligned s.pc with
    | false =>
      simp only [step, stepMachine, runHart, htrap, ha] at h
      cases h
    | true =>
      refine ⟨rfl, ?_⟩
      cases hf : s.fetch s.pc with
      | none =>
        rw [step_of_fetch_none htrap ha hf] at h
        cases h
        exact .inl ⟨rfl, rfl⟩
      | some w =>
        rw [step_of_fetch htrap ha hf] at h
        exact .inr ⟨w, rfl, h⟩

/-! ### The invariant -/

/-- The next instruction of an aligned one is aligned (rule R26). -/
theorem aligned_add_four {a : Word} (h : aligned a = true) : aligned (a + 4) = true := by
  rw [aligned_iff] at h ⊢
  bv_omega

/-- An instruction that transfers control only to aligned targets leaves the pc aligned. -/
theorem aligned_transfer {i : Instr} {s : State} (hpc : aligned s.pc = true)
    (h : ∀ u, transferTarget i s = some u → aligned u = true) :
    aligned ((transferTarget i s).getD (s.pc + 4)) = true := by
  cases ht : transferTarget i s with
  | none => exact aligned_add_four hpc
  | some u => exact h u ht

/-- Taking an exception keeps the invariant: the record names the pc that stays (rules R241, R242). -/
theorem State.Inv.raise {s : State} (h : s.Inv) (e : Exception) (x : Option Word) :
    (s.raise e x).Inv := by
  obtain ⟨hmem, hstale, hpc, -⟩ := h
  exact ⟨hmem, hstale, hpc, by simp⟩

/-- The empty fetch view is in canonical form. -/
theorem Stale.wf_nil : Stale.wf [] := by simp [Stale.wf]

/-- Retiring at an aligned pc, from canonical memory and fetch view, meets the invariant. -/
theorem State.inv_retire {s : State} (hmem : Memory.wf s.mem) (hstale : Stale.wf s.stale)
    (hrun : s.Running) {npc : Word} (hpc : aligned npc = true) : (s.retire npc).Inv :=
  ⟨hmem, hstale, hpc, by rw [State.retire_trap, hrun]; simp⟩

/-- The state the environment resumes at an aligned pc meets the invariant (rules R26, R243). -/
theorem State.Inv.resumeFrom {s : State} (h : s.Inv) {r : Resume} (hpc : aligned r.pc = true) :
    (s.resumeFrom r).Inv := by
  obtain ⟨hmem, -⟩ := h
  obtain ⟨hmem', hstale'⟩ := State.resumeFrom_wf hmem r
  exact ⟨hmem', hstale', hpc, by simp⟩

/-- Every effect of an instruction keeps the invariant of a running hart. -/
theorem Effect.inv {i : Instr} {s t : State} (h : Effect i s t) (hrun : s.Running) (hs : s.Inv) :
    t.Inv := by
  have ⟨hmem, hstale, hpc, _⟩ := hs
  cases h with
  | wrote rd v _ ha =>
    exact State.inv_retire (by simpa using hmem) (by simpa using hstale)
      ((State.setReg_trap ..).trans hrun) (aligned_transfer hpc ha)
  | moved ha => exact State.inv_retire hmem hstale hrun (aligned_transfer hpc ha)
  | stored ea n v =>
    exact State.inv_retire (State.storeBytes_mem_wf _ _ hmem) (State.storeBytes_stale_wf _ _ hstale)
      ((State.storeBytes_trap ..).trans hrun) (aligned_add_four hpc)
  | synchronised =>
    exact State.inv_retire (s := { s with stale := [] }) hmem Stale.wf_nil hrun
      (aligned_add_four hpc)
  | trapped e x => exact hs.raise e x

/-- Settles O16, case by case of what a step can do. -/
theorem stepKeepsInv : Obligations.StepKeepsInv := by
  intro s t hs h
  rcases step_next h with ⟨q, r, -, -, hpc, rfl⟩ | ⟨hrun, -, ⟨-, rfl⟩ | ⟨w, -, hw⟩⟩
  · exact hs.resumeFrom hpc
  · exact hs.raise ..
  · rcases runWord_next hw with ⟨i, -, he⟩ | ⟨-, rfl⟩
    · exact he.inv hrun hs
    · exact hs.raise ..

/-- Settles O17: the launch state is one closed value. -/
theorem resetMeetsInv : Obligations.ResetMeetsInv :=
  ⟨by decide, rfl, rfl, rfl⟩

/-! ### The fetch view (rules R39, R68) -/

/-- A fetch view that stays while memory stays has grown by nothing. -/
theorem StaleGrew.of_same {s t : State} (hmem : SameMemory s t) (hstale : t.stale = s.stale) :
    StaleGrew s t := by
  intro a v
  simp [hstale, hmem a]

/-- An instruction other than FENCE.I adds to the fetch view the old value of each byte it changes. -/
theorem Effect.staleGrew {i : Instr} {s t : State} (h : Effect i s t) (hmem : Memory.wf s.mem)
    (hi : i ≠ .fenceI) : StaleGrew s t := by
  cases h with
  | wrote rd v =>
    obtain ⟨-, hsame, hstale, -⟩ := s.wroteOnly_retire rd v ((transferTarget i s).getD (s.pc + 4))
    exact .of_same hsame hstale
  | moved =>
    obtain ⟨-, hsame, hstale, -⟩ := s.movedOnly_retire ((transferTarget i s).getD (s.pc + 4))
    exact .of_same hsame hstale
  | stored ea n v _ hn =>
    exact State.staleGrew_storeBytes (bytesOf v n) ea hmem (by simp [bytesOf]; omega)
  | synchronised hfence => exact absurd hfence hi
  | trapped e x =>
    obtain ⟨-, -, -, hsame, hstale, -⟩ := s.trapped_raise e x
    exact .of_same hsame hstale

/-- Settles O14: the choices of a fetch by `State.fetchByte_mem`, the growth by `Effect.staleGrew`. -/
theorem staleBytes : Obligations.StaleBytes := by
  refine ⟨rfl, State.fetchByte_mem, fun s a k hio => ?_, fun i s t hmem h => ?_⟩
  · simp [State.observe, hio, State.byteAt]
  · split
    · subst i
      rw [exec_fenceI] at h
      cases h
      rfl
    · exact (effect_of_exec h).staleGrew hmem ‹_›

/-! ### The pc and the registers -/

/-- Settles O21: a state that retired stands at the target or at pc + 4, one that trapped where it was. -/
theorem pcAdvance : Obligations.PcAdvance := by
  intro i s t hrun h
  have hrun : s.trap = none := hrun
  cases effect_of_exec h with
  | wrote => simp [hrun]
  | moved => simp [hrun]
  | stored _ _ _ _ _ _ ht => simp [hrun, ht]
  | synchronised hi => subst hi; simp [hrun, transferTarget]
  | trapped => simp

/-- Settles O23: only the effect `wrote` writes a register, and `State.setReg` discards a write to x0. -/
theorem onlyTheDestinationChanges : Obligations.OnlyTheDestinationChanges := by
  intro i s t h r hne
  cases effect_of_exec h with
  | wrote rd v hd =>
    rw [State.retire_reg, State.reg_setReg] at hne
    by_cases hr : r = rd ∧ r ≠ 0
    · exact ⟨hr.2, hr.1 ▸ hd⟩
    · exact absurd (if_neg hr) hne
  | moved => exact absurd rfl hne
  | stored => exact absurd (by simp) hne
  | synchronised => exact absurd rfl hne
  | trapped => exact absurd rfl hne

/-! ### Memory -/

/-- A byte that stored bytes changed lies in their range and belongs to no device (rule R52, log 8). -/
theorem State.of_byteAt_storeBytes_ne {s : State} (h : Memory.wf s.mem) {bs : List Byte} {a b : Word}
    (hl : bs.length ≤ 2 ^ 32) (hne : (s.storeBytes a bs).byteAt b ≠ s.byteAt b) :
    (b - a).toNat < bs.length ∧ s.isIo b = false := by
  rw [State.byteAt_storeBytes bs a b h hl] at hne
  constructor
  · by_contra hge
    rw [List.getElem?_eq_none (Nat.not_lt.mp hge)] at hne
    simp at hne
  · by_contra hio
    simp [hio] at hne

/-- A byte of an accessible range is accessible, addresses modulo 2^32 (rules R51, R72). -/
theorem AllAccessible.accessible {s : State} {k : AccessKind} {a b : Word} {n : Nat}
    (h : AllAccessible s k a n) (hb : (b - a).toNat < n) : s.accessible k b = true := by
  have heq : a + BitVec.ofNat 32 (b - a).toNat = b := by rw [BitVec.ofNat_toNat]; simp
  exact heq ▸ h _ hb

/-- Settles O24: of the effects only `stored` touches memory, and only in the range of its store. -/
theorem onlyStoresChangeMemory : Obligations.OnlyStoresChangeMemory := by
  intro i s t hmem h a hne
  cases effect_of_exec h with
  | wrote => exact absurd (by simp [State.byteAt]) hne
  | moved => exact absurd rfl hne
  | stored ea n v hr hn ha =>
    obtain ⟨hlt, hio⟩ := State.of_byteAt_storeBytes_ne (bs := bytesOf v n) hmem
      (by simp [bytesOf]; omega) hne
    have hlt : (a - ea).toNat < n := by simpa [bytesOf] using hlt
    exact ⟨ea, n, hr, hlt, hio, ha.accessible hlt⟩
  | synchronised => exact absurd rfl hne
  | trapped => exact absurd rfl hne

/-- A canonical memory lists a cell exactly when its byte reads back and is not the unlisted one. -/
theorem Memory.mem_iff_read {m : Memory} (h : Memory.wf m) (c : Host.Cell) :
    c ∈ m ↔ c.2 ≠ unlisted ∧ Memory.read m c.1 = c.2 := by
  obtain ⟨hsort, hcells⟩ := h
  induction m with
  | nil => simp [Memory.read, eq_comm]
  | cons d m ih =>
    obtain ⟨hd, hm⟩ := List.pairwise_cons.mp hsort
    have ih := ih hm fun e he => hcells e (List.mem_cons_of_mem _ he)
    obtain ⟨-, hlisted⟩ := hcells d (by simp)
    rw [List.mem_cons, Memory.read]
    by_cases hk : d.1 = c.1
    · have hnot : c ∉ m := fun hc => by have := hd c hc; omega
      rw [if_pos hk, or_iff_left hnot]
      exact ⟨by rintro rfl; exact ⟨hlisted, rfl⟩, fun ⟨_, e⟩ => Prod.ext hk.symm e.symm⟩
    · have hne : c ≠ d := fun e => hk (e ▸ rfl)
      rw [if_neg hk, or_iff_right hne, ih]

/-- Cells with rising addresses rise in the order of the fetch view too. -/
theorem Stale.wf_of_memory_wf {m : Memory} (h : Memory.wf m) : Stale.wf m := by
  obtain ⟨hsort, hcells⟩ := h
  refine ⟨hsort.imp fun {c d} hcd => ?_, fun c hc => (hcells c hc).1⟩
  have := c.2.isLt
  simp only [staleKey]
  omega

/-- A cell of a canonical memory is a cell of every canonical memory that reads alike. -/
theorem Memory.mem_of_read_eq {m n : Memory} (hm : Memory.wf m) (hn : Memory.wf n)
    (hread : ∀ a < 2 ^ 32, m.read a = n.read a) {c : Host.Cell} (hc : c ∈ m) : c ∈ n := by
  obtain ⟨hlisted, hval⟩ := (Memory.mem_iff_read hm c).mp hc
  exact (Memory.mem_iff_read hn c).mpr ⟨hlisted, by rw [← hread _ (hm.2 c hc).1, hval]⟩

/-- Settles O43: memories that read alike have the same cells, and cells have one order. -/
theorem canonicalMemoriesAgree : Obligations.CanonicalMemoriesAgree := fun _ _ hm hn hread =>
  Stale.eq_of_mem_iff (Stale.wf_of_memory_wf hm) (Stale.wf_of_memory_wf hn) fun _ =>
    ⟨Memory.mem_of_read_eq hm hn hread,
      Memory.mem_of_read_eq hn hm fun a ha => (hread a ha).symm⟩

/-! ### The clocks (rules R30, R285) -/

/-- The state with other values in the two clocks. -/
def State.withClocks (s : State) (c d : DWord) : State := { s with cycle64 := c, time64 := d }

/-- The answers `x` from `s` and `y` from `s.withClocks c d` are next states that differ in the clocks
only, each clock having advanced by the amount of this step. -/
def IgnoresClocks (s : State) (c d : DWord) (x y : Answer) : Prop :=
  ∃ t, x = .next t ∧
    y = .next (t.withClocks (c + Config.cycleAdvance s.draws) (d + Config.timeAdvance s.draws))

section
variable (s : State) (c d : DWord)

theorem State.setReg_withClocks (r : Reg) (v : Word) :
    (s.withClocks c d).setReg r v = (s.setReg r v).withClocks c d := by
  simp only [State.setReg, apply_ite fun u : State => u.withClocks c d]
  rfl

theorem State.storeByte_withClocks (a : Word) (v : Byte) :
    (s.withClocks c d).storeByte a v = (s.storeByte a v).withClocks c d := by
  simp only [State.storeByte, apply_ite fun u : State => u.withClocks c d]
  rfl

theorem State.storeBytes_withClocks (bs : List Byte) (a : Word) :
    (s.withClocks c d).storeBytes a bs = (s.storeBytes a bs).withClocks c d := by
  induction bs generalizing s a with
  | nil => rfl
  | cons b bs ih => rw [State.storeBytes, State.storeByte_withClocks, ih, State.storeBytes]

theorem State.retire_ignoresClocks (npc : Word) :
    IgnoresClocks s c d (.next (s.retire npc)) (.next ((s.withClocks c d).retire npc)) :=
  ⟨_, rfl, rfl⟩

theorem State.raise_ignoresClocks (e : Exception) (x : Option Word) :
    IgnoresClocks s c d (.next (s.raise e x)) (.next ((s.withClocks c d).raise e x)) :=
  ⟨_, rfl, rfl⟩

theorem State.setReg_retire_ignoresClocks (rd : Reg) (v npc : Word) :
    IgnoresClocks s c d (.next ((s.setReg rd v).retire npc))
      (.next (((s.withClocks c d).setReg rd v).retire npc)) := by
  have := (s.setReg rd v).retire_ignoresClocks c d npc
  rwa [← State.setReg_withClocks, IgnoresClocks, State.setReg_draws] at this

theorem State.finish_ignoresClocks (rd : Reg) (v : Word) :
    IgnoresClocks s c d (s.finish rd v) ((s.withClocks c d).finish rd v) :=
  s.setReg_retire_ignoresClocks c d rd v (s.pc + 4)

theorem State.jump_ignoresClocks (rd : Reg) (t : Word) :
    IgnoresClocks s c d (s.jump rd t) ((s.withClocks c d).jump rd t) := by
  unfold State.jump
  split
  · exact s.setReg_retire_ignoresClocks c d rd (s.pc + 4) t
  · exact s.raise_ignoresClocks ..

theorem State.branch_ignoresClocks (taken : Bool) (t : Word) :
    IgnoresClocks s c d (s.branch taken t) ((s.withClocks c d).branch taken t) := by
  unfold State.branch
  split
  · split
    · exact s.retire_ignoresClocks ..
    · exact s.raise_ignoresClocks ..
  · exact s.retire_ignoresClocks ..

theorem State.finishLoad_ignoresClocks (rd : Reg) (ea : Word) (v : Option Word) :
    IgnoresClocks s c d (s.finishLoad rd ea v) ((s.withClocks c d).finishLoad rd ea v) := by
  cases v with
  | none => exact s.raise_ignoresClocks ..
  | some v => exact s.finish_ignoresClocks ..

theorem State.store_ignoresClocks (ea : Word) (n : Nat) (v : Word) :
    IgnoresClocks s c d (s.store ea n v) ((s.withClocks c d).store ea n v) := by
  by_cases h : AllAccessible s .write ea n
  · have h' : AllAccessible (s.withClocks c d) .write ea n := h
    have := (s.storeBytes ea (bytesOf v n)).retire_ignoresClocks c d (s.pc + 4)
    simp only [State.store, State.memWrite_of h, State.memWrite_of h']
    rwa [← State.storeBytes_withClocks, IgnoresClocks, State.storeBytes_draws] at this
  · have h' : ¬ AllAccessible (s.withClocks c d) .write ea n := h
    simp only [State.store, State.memWrite_none h, State.memWrite_none h']
    exact s.raise_ignoresClocks ..

end

/-- Settles O25: each instruction computes its operands without the clocks and ends in an operation that
ignores them. -/
theorem resultsIgnoreTheClocks : Obligations.ResultsIgnoreTheClocks := by
  intro i s c d hcsr
  change IgnoresClocks s c d (exec i s) (exec i (s.withClocks c d))
  cases i
  case jal | jalr => exact s.jump_ignoresClocks ..
  case beq | bne | blt | bge | bltu | bgeu => exact s.branch_ignoresClocks ..
  case lb | lh | lw | lbu | lhu => exact s.finishLoad_ignoresClocks ..
  case sb | sh | sw => exact s.store_ignoresClocks ..
  case fence => exact s.retire_ignoresClocks ..
  case fenceI => exact ⟨_, rfl, rfl⟩
  case ecall | ebreak => exact s.raise_ignoresClocks ..
  case csrrw | csrrs | csrrc | csrrwi | csrrsi | csrrci => cases hcsr
  all_goals exact s.finish_ignoresClocks ..

/-! ### The CSRs (rules R32, R34) -/

/-- Every address but the six names no CSR (rule R34). -/
theorem Csr.ofAddr_eq_none {a : CsrAddr}
    (h : a ∉ ([0xC00, 0xC01, 0xC02, 0xC80, 0xC81, 0xC82] : List CsrAddr)) : Csr.ofAddr a = none := by
  unfold Csr.ofAddr
  split <;> simp_all

/-- A CSR instruction that names no CSR and reads or writes raises. -/
theorem State.csrAccess_illegal {s : State} {a : CsrAddr} (h : Csr.ofAddr a = none) (w : Word)
    (rd : Reg) {reads writes : Bool} (hrw : (reads || writes) = true) (f : Word → Word) :
    s.csrAccess w rd a reads writes f = .next (s.illegal w) := by
  cases writes with
  | true => exact State.csrAccess_write ..
  | false =>
    obtain rfl : reads = true := by simpa using hrw
    exact State.csrAccess_unimplemented h ..

/-- Settles O48: all six forms read or write, so `State.csrAccess_illegal` covers them. -/
theorem unimplementedCsrsRaise : Obligations.UnimplementedCsrsRaise := by
  intro s rd csr f hcsr
  have hnone := Csr.ofAddr_eq_none hcsr
  refine ⟨by rw [csrRead, hnone]; rfl, fun v => csrWrite_none .., fun i hi => ?_⟩
  fin_cases hi
  all_goals exact ⟨_, State.csrAccess_illegal hnone _ _ (by simp) _, s.trapped_raise _ _⟩

/-- A written register other than x0 reads the value. -/
theorem WroteReg.self {s t : State} {rd : Reg} {v : Word} (h : WroteReg s t rd v) (hrd : rd ≠ 0) :
    t.reg rd = v := by
  rw [h rd, if_neg hrd, if_pos rfl]

/-- RDINSTRET reads the low half of the count before it (rules R32, R211). -/
theorem exec_rdinstret {s t : State} {rd : Reg} (h : exec (Pseudo.rdinstret rd) s = .next t) :
    WroteOnly s t rd (s.instret64.extractLsb' 0 32) (s.pc + 4) := by
  obtain ⟨u, hu, hspec⟩ := State.csrAccess_read (s := s) (a := 0xC02) (c := .instret) rfl
    (encode (Pseudo.rdinstret rd)) rd fun t => t ||| s.reg 0
  have : t = u := Host.Outcome.next.inj (h.symm.trans hu)
  exact this ▸ hspec

/-- The low halves of a counter and of the next count differ by 1 modulo 2^32. -/
theorem low_add_one_sub (n : DWord) :
    (n + 1).extractLsb' 0 32 - n.extractLsb' 0 32 = (1 : Word) := by
  have hlow (m : DWord) : m.extractLsb' 0 32 = m.setWidth 32 := by
    ext i hi; simp
  rw [hlow, hlow, BitVec.setWidth_add _ _ (by decide), BitVec.add_comm, BitVec.add_sub_cancel]
  rfl

/-- Settles O50: the first RDINSTRET retires, so that the second reads a count one higher. -/
theorem consecutiveInstretReads : Obligations.ConsecutiveInstretReads := by
  intro s t u a b ha hb hst htu
  obtain ⟨hta, -, -, -, hcount, -⟩ := exec_rdinstret hst
  obtain ⟨hub, -⟩ := exec_rdinstret htu
  rw [hub.self hb, hta.self ha, hcount, low_add_one_sub]

end Sys2Proof.Machine
end

section
/-! PROOFS. The family of 20_memory.md: fetches, stores, and reads of bytes that were written. -/

namespace Sys2Proof.Machine

/-! ### ACCESSIBLE and IO_REGION (rules R37, R61) -/

/-- No effect of an instruction touches the map of regions. -/
theorem Effect.map_eq {i : Instr} {s t : State} (h : Effect i s t) : t.map = s.map := by
  cases h with
  | wrote | stored => simp
  | moved | synchronised | trapped => rfl

/-- Settles O18, case by case of what a step can do. -/
theorem stepKeepsTheMap : Obligations.StepKeepsTheMap := by
  intro s t h
  rcases step_next h with ⟨q, r, -, -, -, rfl⟩ | ⟨-, -, ⟨-, rfl⟩ | ⟨w, -, hw⟩⟩
  · exact State.resumeFrom_map s r
  · exact State.raise_map ..
  · rcases runWord_next hw with ⟨i, -, he⟩ | ⟨-, rfl⟩
    · exact he.map_eq
    · exact State.raise_map ..

/-! ### The fetch operation (rule R53) -/

/-- An allowed fetch answers a word whose byte `j` is the fetched byte at address + `j`. -/
theorem State.fetch_bytes {s : State} {a : Word} (h : AllAccessible s .fetch a 4) :
    ∃ w, s.fetch a = some w ∧ ∀ j < 4, byteOf w j = s.fetchByte (a + BitVec.ofNat 32 j) := by
  obtain ⟨h0, h1, h2, h3⟩ := byteOf_leWord (s.fetchByte a) (s.fetchByte (a + 1))
    (s.fetchByte (a + 2)) (s.fetchByte (a + 3))
  refine ⟨_, State.fetch_of h, fun j hj => ?_⟩
  interval_cases j
  · simpa using h0
  · exact h1
  · exact h2
  · exact h3

/-- Settles O13: the step by `step_of_fetch_none`, the word by `State.fetch_bytes`. -/
theorem fetchOperation : Obligations.FetchOperation := fun s =>
  ⟨fun hrun hpc hacc =>
    ⟨_, step_of_fetch_none hrun hpc (State.fetch_none hacc), s.trapped_raise _ _⟩,
    fun _ => State.fetch_none, fun _ => State.fetch_bytes⟩

/-! ### The rows of the stores (rules R96, R175 to R177) -/

/-- The mask of opcode and funct3 keeps these two fields of a word and clears the others (rule R96). -/
theorem and_funct3Mask (w : Word) :
    w &&& 0x0000707F = sFormat 0 0 0 (funct3Of w) (opcodeOf w) := by
  conv_lhs => rw [← sFormat_fields w]
  exact sFormat_masked ..

/-- A row whose instruction is read off opcode and funct3 alone is the row of their mask. -/
theorem rowIs_of_funct3 {f : Word → Instr} {op : BitVec 7} {f3 : BitVec 3}
    (h : ∀ w, Reads w (f w) ↔ opcodeOf w = op ∧ funct3Of w = f3) :
    RowIs 0x0000707F (sFormat 0 0 0 f3 op) f := by
  intro w
  rw [decode_eq_ok_iff, h]
  constructor
  · rintro ⟨rfl, rfl⟩
    exact and_funct3Mask w
  · intro hw
    obtain ⟨hop, hf3⟩ := funct3Of_of_masked hw
    exact ⟨hop.trans (opcodeOf_sFormat ..), hf3.trans (funct3Of_sFormat ..)⟩

theorem rowIs_sb : RowIs 0x0000707F 0x00000023
    (fun w => .sb (w.extractLsb' 20 5) (w.extractLsb' 15 5) (storeOffset w)) :=
  rowIs_of_funct3 (op := 0b0100011) (f3 := 0b000) fun w => by
    simp [Reads, immSOf_eq, rs1Of, rs2Of]

theorem rowIs_sh : RowIs 0x0000707F 0x00001023
    (fun w => .sh (w.extractLsb' 20 5) (w.extractLsb' 15 5) (storeOffset w)) :=
  rowIs_of_funct3 (op := 0b0100011) (f3 := 0b001) fun w => by
    simp [Reads, immSOf_eq, rs1Of, rs2Of]

theorem rowIs_sw : RowIs 0x0000707F 0x00002023
    (fun w => .sw (w.extractLsb' 20 5) (w.extractLsb' 15 5) (storeOffset w)) :=
  rowIs_of_funct3 (op := 0b0100011) (f3 := 0b010) fun w => by
    simp [Reads, immSOf_eq, rs1Of, rs2Of]

/-! ### The stores (rules R52, R62, R68) -/

/-- An instruction that comes down to `State.store` is a store. -/
theorem stores_of_exec {i : Instr} {s : State} {ea v : Word} {n : Nat} (hmem : Memory.wf s.mem)
    (hn : n ≤ 4) (h : exec i s = s.store ea n v) : Stores i s ea n v := by
  rw [Stores, Completes, Traps, h]
  exact ⟨fun hacc => State.store_spec hmem hn hacc v, fun hacc => State.store_trap hacc v⟩

/-- Settles O40: the rows of the three stores, and `stores_of_exec` for each. -/
theorem storesWriteLowBytes : Obligations.StoresWriteLowBytes := by
  refine ⟨rowIs_sb, rowIs_sh, rowIs_sw, fun s rs1 rs2 off => ⟨rfl, fun hmem => ⟨?_, ?_, ?_⟩⟩⟩
  · exact stores_of_exec hmem (by decide) (exec_sb rs2 rs1 off s)
  · exact stores_of_exec hmem (by decide) (exec_sh rs2 rs1 off s)
  · exact stores_of_exec hmem (by decide) (exec_sw rs2 rs1 off s)

/-! ### Reading bytes that were written (rules R50, R51, R54, R64) -/

/-- The `n` bytes from `a` on are readable ordinary memory and hold the low `n` bytes of `v`;
`Holds.of_storedAt` says when a store of the model brings it about. -/
def Holds (s : State) (a : Word) (n : Nat) (v : Word) : Prop :=
  ∀ j < n, s.accessible .read (a + BitVec.ofNat 32 j) = true ∧
    s.isIo (a + BitVec.ofNat 32 j) = false ∧ s.byteAt (a + BitVec.ofNat 32 j) = byteOf v j

/-- The address after `a + j`, modulo 2^32 (rule R72). -/
theorem add_ofNat_add (a : Word) (j k : Nat) :
    a + BitVec.ofNat 32 j + BitVec.ofNat 32 k = a + BitVec.ofNat 32 (j + k) := by
  rw [BitVec.add_assoc, ← BitVec.ofNat_add]

/-- What a store to readable ordinary memory leaves there. -/
theorem Holds.of_storedAt {s t : State} {a v : Word} {n : Nat} (h : StoredAt s t a n v)
    (hmap : t.map = s.map) (hread : AllAccessible s .read a n)
    (hio : ∀ j < n, s.isIo (a + BitVec.ofNat 32 j) = false) : Holds t a n v := by
  obtain ⟨hbytes, -⟩ := h
  intro j hj
  rw [State.accessible_congr hmap, State.isIo_congr hmap]
  refine ⟨hread j hj, hio j hj, BitVec.eq_of_toNat_eq ?_⟩
  rw [hbytes j hj (hio j hj), byteOf_toNat]

section
variable {s : State} {a v : Word} {n : Nat}

/-- A load observes each byte held. -/
theorem Holds.observe (h : Holds s a n v) {j : Nat} (hj : j < n) :
    s.observe .read (a + BitVec.ofNat 32 j) = byteOf v j := by
  obtain ⟨-, hio, hbyte⟩ := h j hj
  rw [State.observe, hio]
  exact hbyte

/-- Every access inside the bytes held may read. -/
theorem Holds.allAccessible (h : Holds s a n v) {j m : Nat} (hjm : j + m ≤ n) :
    AllAccessible s .read (a + BitVec.ofNat 32 j) m := by
  intro k hk
  rw [add_ofNat_add]
  exact (h (j + k) (by omega)).1

theorem Holds.memRead8 (h : Holds s a n v) {j : Nat} (hj : j < n) :
    s.memRead8 (a + BitVec.ofNat 32 j) = some (byteOf v j) := by
  rw [State.memRead8_of (h.allAccessible hj), h.observe hj]

theorem Holds.memRead16 (h : Holds s a n v) {j : Nat} (hj : j + 1 < n) :
    s.memRead16 (a + BitVec.ofNat 32 j) = some (leHalf (byteOf v j) (byteOf v (j + 1))) := by
  have hnext : s.observe .read (a + BitVec.ofNat 32 j + 1) = byteOf v (j + 1) :=
    (congrArg (s.observe .read) (add_ofNat_add a j 1)).trans (h.observe hj)
  rw [State.memRead16_of (h.allAccessible hj), h.observe (by omega), hnext]

theorem Holds.memRead32 (h : Holds s a 4 v) : s.memRead32 a = some v := by
  have hacc : AllAccessible s .read a 4 := fun j hj => (h j hj).1
  have h0 : s.observe .read a = byteOf v 0 := by simpa using h.observe (j := 0) (by decide)
  have h1 : s.observe .read (a + 1) = byteOf v 1 := h.observe (by decide)
  have h2 : s.observe .read (a + 2) = byteOf v 2 := h.observe (by decide)
  have h3 : s.observe .read (a + 3) = byteOf v 3 := h.observe (by decide)
  rw [State.memRead32_of hacc, h0, h1, h2, h3, leWord_byteOf]

end

/-- A write that was not refused stored its bytes (rule R52). -/
theorem State.eq_of_memWrite {s t : State} {a v : Word} {n : Nat} (h : s.memWrite a n v = some t) :
    t = s.storeBytes a (bytesOf v n) := by
  by_cases hacc : AllAccessible s .write a n
  · rw [State.memWrite_of hacc] at h
    exact (Option.some.inj h).symm
  · rw [State.memWrite_none hacc] at h
    cases h

/-- Settles O41: the four bytes of 0x11223344 are held, and each of the seven reads lies inside them. -/
theorem mixedWidthAccesses : Obligations.MixedWidthAccesses := by
  intro s t A hmem hread hio hwrite
  obtain rfl := State.eq_of_memWrite hwrite
  have h : Holds _ A 4 0x11223344 := .of_storedAt
    (State.storedAt_storeBytes hmem A 4 (by decide) 0x11223344) (State.storeBytes_map ..) hread hio
  have h8 := h.memRead8 (j := 0) (by decide)
  have h16 := h.memRead16 (j := 0) (by decide)
  rw [BitVec.add_zero] at h8 h16
  exact ⟨h8, h.memRead8 (j := 1) (by decide), h.memRead8 (j := 2) (by decide),
    h.memRead8 (j := 3) (by decide), h16, h.memRead16 (j := 2) (by decide),
    h.memRead16 (j := 1) (by decide)⟩

/-! ### A load after a store (rules R64, R282) -/

/-- A store to readable ordinary memory that did not trap leaves its bytes there. -/
theorem Holds.of_store {s t : State} {ea v : Word} {n : Nat} (hmem : Memory.wf s.mem) (hn : n ≤ 4)
    (hstore : s.store ea n v = .next t) (hrun : t.Running) (hread : AllAccessible s .read ea n)
    (hio : ∀ j < n, s.isIo (ea + BitVec.ofNat 32 j) = false) : Holds t ea n v := by
  by_cases hacc : AllAccessible s .write ea n
  · obtain ⟨u, hu, -, hstored, -, -, -, -, -, -, -, hmap⟩ := State.store_spec hmem hn hacc v
    obtain rfl : t = u := Host.Outcome.next.inj (hstore.symm.trans hu)
    exact .of_storedAt hstored hmap hread hio
  · obtain ⟨u, hu, htrap, -⟩ := State.store_trap hacc v
    obtain rfl : t = u := Host.Outcome.next.inj (hstore.symm.trans hu)
    exact absurd (htrap.symm.trans hrun) (by simp)

/-- An instruction that comes down to `State.finish` writes its register and goes on. -/
theorem completes_of_finish {i : Instr} {s : State} {rd : Reg} {v : Word}
    (h : exec i s = s.finish rd v) : Completes i s fun t => WroteOnly s t rd v (s.pc + 4) := by
  rw [Completes, h]
  exact s.finish_spec rd v

/-- The low byte of a word, zero-extended (rules R173, R175). -/
theorem setWidth_byteOf (v : Word) :
    (byteOf v 0).setWidth 32 = BitVec.ofNat 32 (v.toNat % 2 ^ 8) := by
  rw [← BitVec.ofNat_toNat, byteOf_toNat]
  simp

/-- The low halfword of a word, zero-extended (rules R174, R176). -/
theorem setWidth_leHalf_byteOf (v : Word) :
    (leHalf (byteOf v 0) (byteOf v 1)).setWidth 32 = BitVec.ofNat 32 (v.toNat % 2 ^ 16) := by
  rw [← BitVec.ofNat_toNat, leHalf_toNat, byteOf_toNat, byteOf_toNat]
  congr 1
  omega

theorem Holds.completes_lw {s : State} {v : Word} {base : Reg} {disp : BitVec 12}
    (h : Holds s (s.effAddr base disp) 4 v) (rd : Reg) :
    Completes (.lw rd base disp) s fun u => WroteOnly s u rd v (s.pc + 4) :=
  completes_of_finish (by rw [exec_lw, h.memRead32, State.finishLoad])

theorem Holds.completes_lhu {s : State} {v : Word} {base : Reg} {disp : BitVec 12}
    (h : Holds s (s.effAddr base disp) 2 v) (rd : Reg) :
    Completes (.lhu rd base disp) s fun u =>
      WroteOnly s u rd (BitVec.ofNat 32 (v.toNat % 2 ^ 16)) (s.pc + 4) := by
  have hread := h.memRead16 (j := 0) (by decide)
  rw [BitVec.add_zero] at hread
  exact completes_of_finish (by
    rw [exec_lhu, hread, Option.map_some, State.finishLoad, setWidth_leHalf_byteOf])

theorem Holds.completes_lbu {s : State} {v : Word} {base : Reg} {disp : BitVec 12}
    (h : Holds s (s.effAddr base disp) 1 v) (rd : Reg) :
    Completes (.lbu rd base disp) s fun u =>
      WroteOnly s u rd (BitVec.ofNat 32 (v.toNat % 2 ^ 8)) (s.pc + 4) := by
  have hread := h.memRead8 (j := 0) (by decide)
  rw [BitVec.add_zero] at hread
  exact completes_of_finish (by
    rw [exec_lbu, hread, Option.map_some, State.finishLoad, setWidth_byteOf])

/-- Settles O42: each store leaves its bytes by `Holds.of_store`, and the load of its width reads them. -/
theorem loadSeesEarlierStore : Obligations.LoadSeesEarlierStore := by
  intro s t rs2 rs1 rd base off disp hmem _ hrun hea hio hread
  have held {n : Nat} (hn : n ≤ 4)
      (hstore : s.store (s.effAddr rs1 off) n (s.reg rs2) = .next t) :
      Holds t (t.effAddr base disp) n (s.reg rs2) :=
    hea ▸ .of_store hmem hn hstore hrun (fun j hj => hread j (by omega))
      fun j hj => hio j (by omega)
  refine ⟨fun h => ?_, fun h => ?_, fun h => ?_⟩
  · exact (held (by decide) ((exec_sw ..).symm.trans h)).completes_lw rd
  · exact (held (by decide) ((exec_sh ..).symm.trans h)).completes_lhu rd
  · exact (held (by decide) ((exec_sb ..).symm.trans h)).completes_lbu rd

end Sys2Proof.Machine
end

section
/-! PROOFS. The family of 30_encoding.md: the rows of the decode table, decoder and encoder against each
other, the formats on numbers, the words that are no instruction, the immediates, and the
pseudo-instructions. -/

namespace Sys2Proof.Machine

/-! ### Decoding what was encoded (rule R105) -/

/-- Settles O1, by `decode_encode`: the word's fields are the operands. -/
theorem decodeOfEncode : Obligations.DecodeOfEncode := fun _ => decode_encode

/-! ### The rows of the decode table (rule R96) -/

/-- The mask of the opcode keeps that field of a word and clears the others. -/
theorem and_opcodeMask (w : Word) : w &&& 0x0000007F = uFormat 0 0 (opcodeOf w) := by
  conv_lhs => rw [← uFormat_fields w]
  exact uFormat_masked ..

/-- The mask of opcode, funct3 and funct7 keeps these fields of a word and clears the others. -/
theorem and_funct7Mask (w : Word) :
    w &&& 0xFE00707F = rFormat (funct7Of w) 0 0 (funct3Of w) 0 (opcodeOf w) := by
  conv_lhs => rw [← rFormat_fields w]
  exact rFormat_masked ..

/-- A word lies in a row of the opcode's mask when its opcode is the row's. -/
theorem and_opcodeMask_iff {w v : Word} (hv : v &&& 0x0000007F = v) :
    w &&& 0x0000007F = v ↔ opcodeOf w = opcodeOf v := by
  refine ⟨opcodeOf_of_masked, fun ho => ?_⟩
  rw [and_opcodeMask, ho, ← and_opcodeMask, hv]

/-- A word lies in a row of the mask of opcode and funct3 when both are the row's. -/
theorem and_funct3Mask_iff {w v : Word} (hv : v &&& 0x0000707F = v) :
    w &&& 0x0000707F = v ↔ opcodeOf w = opcodeOf v ∧ funct3Of w = funct3Of v := by
  refine ⟨funct3Of_of_masked, fun ⟨ho, hf3⟩ => ?_⟩
  rw [and_funct3Mask, ho, hf3, ← and_funct3Mask, hv]

/-- A word lies in a row of the mask of opcode, funct3 and funct7 when all three are the row's. -/
theorem and_funct7Mask_iff {w v : Word} (hv : v &&& 0xFE00707F = v) :
    w &&& 0xFE00707F = v ↔
      opcodeOf w = opcodeOf v ∧ funct3Of w = funct3Of v ∧ funct7Of w = funct7Of v := by
  refine ⟨funct7Of_of_masked, fun ⟨ho, hf3, hf7⟩ => ?_⟩
  rw [and_funct7Mask, ho, hf3, hf7, ← and_funct7Mask, hv]

/-- The instruction of the same row with the operands that the fields of a word name; `rowIs_row` ties it
to the decoder. -/
def Instr.withFieldsOf (w : Word) : Instr → Instr
  | .lui _ _ => .lui (rdOf w) (immUOf w)
  | .auipc _ _ => .auipc (rdOf w) (immUOf w)
  | .jal _ _ => .jal (rdOf w) (jumpOffset w)
  | .jalr _ _ _ => .jalr (rdOf w) (rs1Of w) (immIOf w)
  | .beq _ _ _ => .beq (rs1Of w) (rs2Of w) (branchOffset w)
  | .bne _ _ _ => .bne (rs1Of w) (rs2Of w) (branchOffset w)
  | .blt _ _ _ => .blt (rs1Of w) (rs2Of w) (branchOffset w)
  | .bge _ _ _ => .bge (rs1Of w) (rs2Of w) (branchOffset w)
  | .bltu _ _ _ => .bltu (rs1Of w) (rs2Of w) (branchOffset w)
  | .bgeu _ _ _ => .bgeu (rs1Of w) (rs2Of w) (branchOffset w)
  | .lb _ _ _ => .lb (rdOf w) (rs1Of w) (immIOf w)
  | .lh _ _ _ => .lh (rdOf w) (rs1Of w) (immIOf w)
  | .lw _ _ _ => .lw (rdOf w) (rs1Of w) (immIOf w)
  | .lbu _ _ _ => .lbu (rdOf w) (rs1Of w) (immIOf w)
  | .lhu _ _ _ => .lhu (rdOf w) (rs1Of w) (immIOf w)
  | .sb _ _ _ => .sb (rs2Of w) (rs1Of w) (storeOffset w)
  | .sh _ _ _ => .sh (rs2Of w) (rs1Of w) (storeOffset w)
  | .sw _ _ _ => .sw (rs2Of w) (rs1Of w) (storeOffset w)
  | .addi _ _ _ => .addi (rdOf w) (rs1Of w) (immIOf w)
  | .slti _ _ _ => .slti (rdOf w) (rs1Of w) (immIOf w)
  | .sltiu _ _ _ => .sltiu (rdOf w) (rs1Of w) (immIOf w)
  | .xori _ _ _ => .xori (rdOf w) (rs1Of w) (immIOf w)
  | .ori _ _ _ => .ori (rdOf w) (rs1Of w) (immIOf w)
  | .andi _ _ _ => .andi (rdOf w) (rs1Of w) (immIOf w)
  | .slli _ _ _ => .slli (rdOf w) (rs1Of w) (rs2Of w)
  | .srli _ _ _ => .srli (rdOf w) (rs1Of w) (rs2Of w)
  | .srai _ _ _ => .srai (rdOf w) (rs1Of w) (rs2Of w)
  | .add _ _ _ => .add (rdOf w) (rs1Of w) (rs2Of w)
  | .sub _ _ _ => .sub (rdOf w) (rs1Of w) (rs2Of w)
  | .sll _ _ _ => .sll (rdOf w) (rs1Of w) (rs2Of w)
  | .slt _ _ _ => .slt (rdOf w) (rs1Of w) (rs2Of w)
  | .sltu _ _ _ => .sltu (rdOf w) (rs1Of w) (rs2Of w)
  | .xor _ _ _ => .xor (rdOf w) (rs1Of w) (rs2Of w)
  | .srl _ _ _ => .srl (rdOf w) (rs1Of w) (rs2Of w)
  | .sra _ _ _ => .sra (rdOf w) (rs1Of w) (rs2Of w)
  | .or _ _ _ => .or (rdOf w) (rs1Of w) (rs2Of w)
  | .and _ _ _ => .and (rdOf w) (rs1Of w) (rs2Of w)
  | .fence _ _ => .fence (predOf w) (succOf w)
  | .fenceI => .fenceI
  | .ecall => .ecall
  | .ebreak => .ebreak
  | .csrrw _ _ _ => .csrrw (rdOf w) (immIOf w) (rs1Of w)
  | .csrrs _ _ _ => .csrrs (rdOf w) (immIOf w) (rs1Of w)
  | .csrrc _ _ _ => .csrrc (rdOf w) (immIOf w) (rs1Of w)
  | .csrrwi _ _ _ => .csrrwi (rdOf w) (immIOf w) (rs1Of w)
  | .csrrsi _ _ _ => .csrrsi (rdOf w) (immIOf w) (rs1Of w)
  | .csrrci _ _ _ => .csrrci (rdOf w) (immIOf w) (rs1Of w)

@[simp] theorem row_withFieldsOf (w : Word) (i : Instr) : (Instr.withFieldsOf w i).row = i.row := by
  cases i <;> rfl

/-- An instruction whose operands are the fields of the word is the word's instruction of its row. -/
theorem withFieldsOf_of_reads {w : Word} {i : Instr} (h : Reads w i) :
    Instr.withFieldsOf w i = i := by
  cases i
  case fenceI | ecall | ebreak => rfl
  case lui | auipc => obtain ⟨-, rfl, rfl⟩ := h; rfl
  case jal => obtain ⟨-, rfl, rfl⟩ := h; rw [immJOf_eq]; rfl
  case fence => obtain ⟨-, -, rfl, rfl⟩ := h; rfl
  case beq | bne | blt | bge | bltu | bgeu =>
    obtain ⟨-, -, rfl, rfl, rfl⟩ := h
    rw [immBOf_eq]; rfl
  case sb | sh | sw =>
    obtain ⟨-, -, rfl, rfl, rfl⟩ := h
    rw [immSOf_eq]; rfl
  case slli | srli | srai | add | sub | sll | slt | sltu | xor | srl | sra | or | and =>
    obtain ⟨-, -, -, rfl, rfl, rfl⟩ := h
    rfl
  all_goals
    obtain ⟨-, -, rfl, rfl, rfl⟩ := h
    rfl

/-- The words of the row of an instruction are those that decode to it with their own operands: the fields
that the row's mask keeps are the ones the decoder reads to choose the row (rule R96). -/
theorem rowIs_row (i : Instr) : RowIs i.row.mask i.row.value (Instr.withFieldsOf · i) := by
  intro w
  rw [decode_eq_ok_iff]
  cases i
  case lui | auipc | jal =>
    simp only [Instr.row]
    rw [and_opcodeMask_iff rfl]
    simp [Reads, Instr.withFieldsOf, opcodeOf, immJOf_eq]
  case slli | srli | srai | add | sub | sll | slt | sltu | xor | srl | sra | or | and =>
    simp only [Instr.row]
    rw [and_funct7Mask_iff rfl]
    simp [Reads, Instr.withFieldsOf, opcodeOf, funct3Of, funct7Of]
  case ecall | ebreak =>
    simp only [Instr.row]
    rw [show (0xFFFFFFFF : Word) = BitVec.allOnes 32 from rfl, BitVec.and_allOnes]
    rfl
  all_goals
    simp only [Instr.row]
    rw [and_funct3Mask_iff rfl]
    simp [Reads, Instr.withFieldsOf, opcodeOf, funct3Of, immBOf_eq, immSOf_eq]

/-- A row covers the words that decode to its instruction with their own operands. -/
theorem covers_row_iff (i : Instr) (w : Word) :
    i.row.covers w = true ↔ decode w = .ok (Instr.withFieldsOf w i) := by
  rw [rowIs_row i w, TableRow.covers, beq_iff_eq]

/-- Settles O4: an instruction that the word decodes to holds the word's own fields, so that the row alone
names it. -/
theorem decodeFollowsTheTable : Obligations.DecodeFollowsTheTable := by
  refine ⟨fun w i => ⟨fun h => ?_, ?_⟩, fun w i j hi hj => ?_⟩
  · exact ⟨_, row_withFieldsOf w i, (covers_row_iff i w).mp h⟩
  · rintro ⟨j, hrow, hj⟩
    rw [← hrow, covers_row_iff, withFieldsOf_of_reads (reads_of_decode hj), hj]
  · rw [covers_row_iff] at hi hj
    rw [← row_withFieldsOf w i, ← row_withFieldsOf w j, ok_inj (hi.symm.trans hj)]

/-! ### Encoding what was decoded (rules R99, R105) -/

/-- The branch offset that a word holds is even (rule R90). -/
theorem evenOffset_immBOf (w : Word) : evenOffset (immBOf w) = true := by
  rw [evenOffset, immBOf_eq, getLsbD_branchOffset]; rfl

/-- The JAL offset that a word holds is even (rule R92). -/
theorem evenOffset_immJOf (w : Word) : evenOffset (immJOf w) = true := by
  rw [evenOffset, immJOf_eq, getLsbD_jumpOffset]; rfl

/-- What the decoder reads has an encoding. -/
theorem wellFormed_of_reads {w : Word} {i : Instr} (h : Reads w i) : i.wellFormed = true := by
  cases i
  case jal => obtain ⟨-, -, rfl⟩ := h; exact evenOffset_immJOf w
  case beq | bne | blt | bge | bltu | bgeu =>
    obtain ⟨-, -, -, -, rfl⟩ := h; exact evenOffset_immBOf w
  all_goals rfl

@[simp] theorem classes_bits_ofBits (b : BitVec 4) : (Classes.ofBits b).bits = b := by
  apply BitVec.eq_of_getLsbD_eq; intro i hi
  interval_cases i <;> simp [Classes.ofBits, Classes.bits]

/-- The mask of a FENCE keeps its opcode, its funct3 and its two sets, and clears the reserved fields
(rule R99). -/
theorem and_fenceMask (w : Word) :
    w &&& 0x0FF0707F = iFormat (place 12 4 (predOf w).bits ||| place 12 0 (succOf w).bits) 0
      (funct3Of w) 0 (opcodeOf w) := by
  apply BitVec.eq_of_getLsbD_eq; intro i hi
  interval_cases i <;> simp [iFormat, predOf, succOf, funct3Of, opcodeOf]

/-- Encoding a FENCE read from a word clears the reserved fields. -/
theorem encode_fence_of_reads {w : Word} {pred succ : Classes} (h : Reads w (.fence pred succ)) :
    encode (.fence pred succ) = w &&& 0x0FF0707F := by
  obtain ⟨ho, hf3, rfl, rfl⟩ := h
  rw [and_fenceMask, ho, hf3]; rfl

/-- Encoding the FENCE.I read from a word clears the reserved fields. -/
theorem encode_fenceI_of_reads {w : Word} (h : Reads w .fenceI) :
    encode .fenceI = w &&& 0x0000707F := by
  obtain ⟨ho, hf3⟩ := h
  rw [and_funct3Mask, ho, hf3]; rfl

/-- An instruction read from a word is encoded as the word, but for the two fences. -/
theorem encode_of_reads {w : Word} {i : Instr} (h : Reads w i)
    (hfence : ∀ pred succ, i ≠ .fence pred succ) (hfenceI : i ≠ .fenceI) : encode i = w := by
  cases i
  case fence pred succ => exact absurd rfl (hfence pred succ)
  case fenceI => exact absurd rfl hfenceI
  case ecall | ebreak => exact Eq.symm h
  case lui | auipc =>
    obtain ⟨ho, rfl, rfl⟩ := h
    rw [encode, ← ho, uFormat_fields]
  case jal =>
    obtain ⟨ho, rfl, rfl⟩ := h
    rw [encode, ← ho, ujFormat_fields]
  case beq | bne | blt | bge | bltu | bgeu =>
    obtain ⟨ho, hf3, rfl, rfl, rfl⟩ := h
    rw [encode, ← ho, ← hf3, sbFormat_fields]
  case sb | sh | sw =>
    obtain ⟨ho, hf3, rfl, rfl, rfl⟩ := h
    rw [encode, ← ho, ← hf3, sFormat_fields]
  case slli | srli | srai | add | sub | sll | slt | sltu | xor | srl | sra | or | and =>
    obtain ⟨ho, hf3, hf7, rfl, rfl, rfl⟩ := h
    rw [encode, ← ho, ← hf3, ← hf7, rFormat_fields]
  all_goals
    obtain ⟨ho, hf3, rfl, rfl, rfl⟩ := h
    rw [encode, ← ho, ← hf3, iFormat_fields]

/-- Settles O2, from the fields that `decode` reads. -/
theorem encodeOfDecode : Obligations.EncodeOfDecode := by
  intro w i h
  have hreads := reads_of_decode h
  refine ⟨wellFormed_of_reads hreads, ?_, ?_⟩
  · rw [covers_row_iff, withFieldsOf_of_reads hreads, h]
  · split
    · exact encode_fence_of_reads hreads
    · exact encode_fenceI_of_reads hreads
    · exact encode_of_reads hreads ‹_› ‹_›

/-! ### The reserved fields of the fences (rule R99) -/

/-- The words of the FENCE row, by the row's own mask. -/
theorem decode_fence {w : Word} (h : w &&& 0x0000707F = 0x0000000F) :
    decode w = .ok (.fence (predOf w) (succOf w)) :=
  (rowIs_row (.fence (predOf w) (succOf w)) w).mpr h

/-- The sets of a FENCE do not depend on its reserved fields (rule R99). -/
theorem fenceSets_congr {w v : Word} (h : w &&& 0x0FF0707F = v &&& 0x0FF0707F) :
    predOf w = predOf v ∧ succOf w = succOf v := by
  simp only [and_fenceMask] at h
  have hpred := congrArg predOf h
  have hsucc := congrArg succOf h
  simpa only [predOf_iFormat, succOf_iFormat, classes_ofBits_bits] using And.intro hpred hsucc

/-- Settles O7: FENCE by its sets, FENCE.I by its row, and the encoder by what it makes of its own word. -/
theorem reservedFenceFieldsIgnored : Obligations.ReservedFenceFieldsIgnored := by
  refine ⟨fun w v hw h => ?_, fun w hw => ?_, fun pred succ => ?_, by decide⟩
  · have hv : v &&& 0x0000707F = 0x0000000F := by
      calc v &&& 0x0000707F = (v &&& 0x0FF0707F) &&& 0x0000707F := by rw [BitVec.and_assoc]; rfl
        _ = (w &&& 0x0FF0707F) &&& 0x0000707F := by rw [h]
        _ = w &&& 0x0000707F := by rw [BitVec.and_assoc]; rfl
        _ = 0x0000000F := hw
    obtain ⟨hpred, hsucc⟩ := fenceSets_congr h
    rw [decode_fence hw, decode_fence hv, hpred, hsucc]
  · exact (rowIs_row .fenceI w).mpr hw
  · have hreads : Reads (encode (.fence pred succ)) (.fence pred succ) := reads_encode rfl
    rw [encode_fence_of_reads hreads, BitVec.and_assoc]
    exact BitVec.and_zero

/-! ### The formats on numbers (rule R105) -/

/-- A field that fits where it is placed is shifted there. -/
theorem toNat_place {k n lo : Nat} (h : k + lo ≤ n) (v : BitVec k) :
    (place n lo v).toNat = v.toNat <<< lo := by
  have hv : v.toNat <<< lo < 2 ^ n := by
    rw [Nat.shiftLeft_eq]
    calc v.toNat * 2 ^ lo < 2 ^ k * 2 ^ lo := Nat.mul_lt_mul_of_pos_right v.isLt (by positivity)
      _ = 2 ^ (k + lo) := (Nat.pow_add ..).symm
      _ ≤ 2 ^ n := Nat.pow_le_pow_right (by omega) h
  have hk : v.toNat < 2 ^ n := v.isLt.trans_le (Nat.pow_le_pow_right (by omega) (by omega))
  rw [place, BitVec.toNat_shiftLeft, BitVec.toNat_setWidth, Nat.mod_eq_of_lt hk, Nat.mod_eq_of_lt hv]

/-- Sign extension leaves the bits of the field. -/
theorem extractLsb'_signExtend {k n lo len : Nat} (hlen : lo + len ≤ k) (hk : k ≤ n) (v : BitVec k) :
    (v.signExtend n).extractLsb' lo len = v.extractLsb' lo len := by
  apply BitVec.eq_of_getLsbD_eq; intro i hi
  have hin : lo + i < n := by omega
  have hik : lo + i < k := by omega
  simp only [BitVec.getLsbD_extractLsb', BitVec.getLsbD_signExtend, hi, hin, hik]
  simp

/-- A slice of an immediate is a shift and a mask of the immediate taken modulo 2^32 (rule R105). -/
theorem toNat_extractLsb'_eq_signExtend {k lo len : Nat} (hlen : lo + len ≤ k) (hk : k ≤ 32)
    (v : BitVec k) :
    (v.extractLsb' lo len).toNat = (v.signExtend 32).toNat >>> lo &&& (2 ^ len - 1) := by
  rw [← extractLsb'_signExtend hlen hk, BitVec.extractLsb'_toNat, Nat.and_two_pow_sub_one_eq_mod]

/-- The field of an immediate is the mask of the immediate taken modulo 2^32 (rule R105). -/
theorem toNat_eq_signExtend {k : Nat} (hk : k ≤ 32) (v : BitVec k) :
    v.toNat = (v.signExtend 32).toNat &&& (2 ^ k - 1) := by
  have h := toNat_extractLsb'_eq_signExtend (lo := 0) (len := k) (by omega) hk v
  rwa [BitVec.extractLsb'_eq_self, Nat.shiftRight_zero] at h

theorem toNat_rFormat (f7 : BitVec 7) (rs2 rs1 : Reg) (f3 : BitVec 3) (rd : Reg) (op : BitVec 7) :
    (rFormat f7 rs2 rs1 f3 rd op).toNat =
      f7.toNat <<< 25 ||| rs2.toNat <<< 20 ||| rs1.toNat <<< 15 ||| f3.toNat <<< 12 |||
        rd.toNat <<< 7 ||| op.toNat := by
  simp (disch := omega) only [rFormat, BitVec.toNat_or, toNat_place, Nat.shiftLeft_zero]

theorem toNat_iFormat (imm : BitVec 12) (rs1 : Reg) (f3 : BitVec 3) (rd : Reg) (op : BitVec 7) :
    (iFormat imm rs1 f3 rd op).toNat =
      ((imm.signExtend 32).toNat &&& 0xFFF) <<< 20 ||| rs1.toNat <<< 15 ||| f3.toNat <<< 12 |||
        rd.toNat <<< 7 ||| op.toNat := by
  have himm : imm.toNat = (imm.signExtend 32).toNat &&& 0xFFF := toNat_eq_signExtend (by omega) imm
  simp (disch := omega) only [iFormat, BitVec.toNat_or, toNat_place, Nat.shiftLeft_zero, ← himm]

theorem toNat_sFormat (imm : BitVec 12) (rs2 rs1 : Reg) (f3 : BitVec 3) (op : BitVec 7) :
    (sFormat imm rs2 rs1 f3 op).toNat =
      ((imm.signExtend 32).toNat >>> 5 &&& 0x7F) <<< 25 ||| rs2.toNat <<< 20 |||
        rs1.toNat <<< 15 ||| f3.toNat <<< 12 ||| ((imm.signExtend 32).toNat &&& 0x1F) <<< 7 |||
        op.toNat := by
  simp (disch := omega) only [sFormat, BitVec.toNat_or, toNat_place,
    toNat_extractLsb'_eq_signExtend, Nat.shiftLeft_zero, Nat.shiftRight_zero, Nat.reducePow,
    Nat.reduceSub]

theorem toNat_sbFormat (off : BitVec 13) (rs2 rs1 : Reg) (f3 : BitVec 3) (op : BitVec 7) :
    (sbFormat off rs2 rs1 f3 op).toNat =
      ((off.signExtend 32).toNat >>> 12 &&& 1) <<< 31 |||
        ((off.signExtend 32).toNat >>> 5 &&& 0x3F) <<< 25 ||| rs2.toNat <<< 20 |||
        rs1.toNat <<< 15 ||| f3.toNat <<< 12 ||| ((off.signExtend 32).toNat >>> 1 &&& 0xF) <<< 8 |||
        ((off.signExtend 32).toNat >>> 11 &&& 1) <<< 7 ||| op.toNat := by
  simp (disch := omega) only [sbFormat, BitVec.toNat_or, toNat_place,
    toNat_extractLsb'_eq_signExtend, Nat.shiftLeft_zero, Nat.reducePow, Nat.reduceSub]

theorem toNat_uFormat (imm20 : BitVec 20) (rd : Reg) (op : BitVec 7) :
    (uFormat imm20 rd op).toNat =
      (imm20.toNat &&& 0xFFFFF) <<< 12 ||| rd.toNat <<< 7 ||| op.toNat := by
  have hmask : imm20.toNat &&& 0xFFFFF = imm20.toNat :=
    (Nat.and_two_pow_sub_one_eq_mod imm20.toNat 20).trans (Nat.mod_eq_of_lt imm20.isLt)
  simp (disch := omega) only [uFormat, BitVec.toNat_or, toNat_place, Nat.shiftLeft_zero, hmask]

theorem toNat_ujFormat (off : BitVec 21) (rd : Reg) (op : BitVec 7) :
    (ujFormat off rd op).toNat =
      ((off.signExtend 32).toNat >>> 20 &&& 1) <<< 31 |||
        ((off.signExtend 32).toNat >>> 1 &&& 0x3FF) <<< 21 |||
        ((off.signExtend 32).toNat >>> 11 &&& 1) <<< 20 |||
        ((off.signExtend 32).toNat >>> 12 &&& 0xFF) <<< 12 ||| rd.toNat <<< 7 ||| op.toNat := by
  simp (disch := omega) only [ujFormat, BitVec.toNat_or, toNat_place,
    toNat_extractLsb'_eq_signExtend, Nat.shiftLeft_zero, Nat.reducePow, Nat.reduceSub]

/-- Settles O3, format by format; that the offsets are even is not needed, since bit 0 has no place in
the word. -/
theorem assembledWords : Obligations.AssembledWords := fun f7 op rs2 rs1 rd f3 =>
  ⟨toNat_rFormat f7 rs2 rs1 f3 rd op,
    fun imm => ⟨toNat_iFormat imm rs1 f3 rd op, toNat_sFormat imm rs2 rs1 f3 op⟩,
    fun off _ => toNat_sbFormat off rs2 rs1 f3 op,
    fun imm20 => toNat_uFormat imm20 rd op,
    fun off _ => toNat_ujFormat off rd op⟩

/-! ### The words that are no instruction (rules R97, R98) -/

/-- Every part of the decoder but that of opcode OP rejects a word as illegal only (rule R97). -/
theorem decodeBranch_error {w : Word} {r : Reject} (h : decodeBranch w = .error r) :
    r = .illegal := by
  unfold decodeBranch at h; split at h <;> cases h; rfl

theorem decodeLoad_error {w : Word} {r : Reject} (h : decodeLoad w = .error r) : r = .illegal := by
  unfold decodeLoad at h; split at h <;> cases h; rfl

theorem decodeStore_error {w : Word} {r : Reject} (h : decodeStore w = .error r) :
    r = .illegal := by
  unfold decodeStore at h; split at h <;> cases h; rfl

theorem decodeShiftRightImm_error {w : Word} {r : Reject} (h : decodeShiftRightImm w = .error r) :
    r = .illegal := by
  unfold decodeShiftRightImm at h; split at h <;> cases h; rfl

theorem decodeOpImm_error {w : Word} {r : Reject} (h : decodeOpImm w = .error r) :
    r = .illegal := by
  unfold decodeOpImm at h
  split at h
  case h_2 => split at h <;> cases h; rfl
  case h_6 => exact decodeShiftRightImm_error h
  all_goals cases h

theorem decodeMiscMem_error {w : Word} {r : Reject} (h : decodeMiscMem w = .error r) :
    r = .illegal := by
  unfold decodeMiscMem at h; split at h <;> cases h; rfl

theorem decodeSystem_error {w : Word} {r : Reject} (h : decodeSystem w = .error r) :
    r = .illegal := by
  unfold decodeSystem at h
  split at h
  case h_1 =>
    split at h
    · cases h
    · split at h <;> cases h; rfl
  all_goals cases h
  rfl

/-- Opcode OP rejects as the M space only words of funct7 0000001 (rule R98 (b)). -/
theorem decodeOp_error {w : Word} {r : Reject} (h : decodeOp w = .error r) :
    r = .illegal ∨ r = .mulDiv ∧ funct7Of w = 0b0000001 := by
  unfold decodeOp at h
  split at h
  case h_1 => unfold decodeOpBase at h; split at h <;> cases h
  case h_2 => unfold decodeOpAlt at h; split at h <;> cases h; exact .inl rfl
  case h_3 hf7 => cases h; exact .inr ⟨rfl, hf7⟩
  case h_4 => cases h; exact .inl rfl

/-- Why a word is no instruction: it lies in the C space, it lies in the M space, or it is illegal. -/
theorem decode_error {w : Word} {r : Reject} (h : decode w = .error r) :
    (r = .compressed ∧ w.extractLsb' 0 2 ≠ 0b11#2) ∨
      (r = .mulDiv ∧ opcodeOf w = 0b0110011 ∧ funct7Of w = 0b0000001) ∨
      (r = .illegal ∧ w.extractLsb' 0 2 = 0b11#2) := by
  unfold decode at h
  split at h
  case isFalse hlow => cases h; exact .inl ⟨rfl, hlow⟩
  case isTrue hlow =>
    refine .inr ?_
    split at h
    case h_4 =>
      split at h <;> cases h
      exact .inr ⟨rfl, hlow⟩
    case h_5 => exact .inr ⟨decodeBranch_error h, hlow⟩
    case h_6 => exact .inr ⟨decodeLoad_error h, hlow⟩
    case h_7 => exact .inr ⟨decodeStore_error h, hlow⟩
    case h_8 => exact .inr ⟨decodeOpImm_error h, hlow⟩
    case h_9 ho =>
      rcases decodeOp_error h with hr | ⟨hr, hf7⟩
      · exact .inr ⟨hr, hlow⟩
      · exact .inl ⟨hr, ho, hf7⟩
    case h_10 => exact .inr ⟨decodeMiscMem_error h, hlow⟩
    case h_11 => exact .inr ⟨decodeSystem_error h, hlow⟩
    case h_12 => cases h; exact .inr ⟨rfl, hlow⟩
    all_goals cases h

/-- The words of the C space (rule R98 (a)). -/
theorem decode_eq_compressed_iff (w : Word) :
    decode w = .error .compressed ↔ w.extractLsb' 0 2 ≠ 0b11#2 := by
  refine ⟨fun h => ?_, fun hlow => by rw [decode, if_neg hlow]⟩
  rcases decode_error h with ⟨-, hlow⟩ | ⟨hr, -⟩ | ⟨hr, -⟩
  · exact hlow
  · cases hr
  · cases hr

/-- The words of the M space (rule R98 (b)). -/
theorem decode_eq_mulDiv_iff (w : Word) :
    decode w = .error .mulDiv ↔ opcodeOf w = 0b0110011 ∧ funct7Of w = 0b0000001 := by
  refine ⟨fun h => ?_, fun ⟨ho, hf7⟩ => by simp [decode, lowBits_eq, ho, decodeOp, hf7]⟩
  rcases decode_error h with ⟨hr, -⟩ | ⟨-, hspace⟩ | ⟨hr, -⟩
  · cases hr
  · exact hspace
  · cases hr

/-- A word is refused as the C space when the decoder says so. -/
theorem runWord_compressedSpace_iff (s : State) (w : Word) :
    runWord s w = .refused .compressedSpace ↔ decode w = .error .compressed := by
  refine ⟨fun h => ?_, fun h => by rw [runWord, h]⟩
  rcases runWord_cases s w with ⟨t, ht⟩ | ⟨hd, -⟩ | ⟨-, hr⟩
  · rw [ht] at h; cases h
  · exact hd
  · rw [hr] at h; cases h

/-- A word is refused as the M space when the decoder says so. -/
theorem runWord_multiplySpace_iff (s : State) (w : Word) :
    runWord s w = .refused .multiplySpace ↔ decode w = .error .mulDiv := by
  refine ⟨fun h => ?_, fun h => by rw [runWord, h]⟩
  rcases runWord_cases s w with ⟨t, ht⟩ | ⟨-, hr⟩ | ⟨hd, -⟩
  · rw [ht] at h; cases h
  · rw [hr] at h; cases h
  · exact hd

/-- Settles O6: the spaces for the decoder, and the step by the word it runs. -/
theorem refusedSpaces : Obligations.RefusedSpaces := by
  refine ⟨fun w => ⟨decode_eq_compressed_iff w, decode_eq_mulDiv_iff w⟩, fun s w hr ha hf => ?_⟩
  rw [step_of_fetch hr ha hf, runWord_compressedSpace_iff, runWord_multiplySpace_iff]
  exact ⟨decode_eq_compressed_iff w, decode_eq_mulDiv_iff w⟩

/-- A word that no row covers, outside the refused spaces, is illegal. -/
theorem decode_eq_illegal {w : Word} (hrow : ∀ i : Instr, i.row.covers w = false)
    (hlow : w.extractLsb' 0 2 = 0b11#2)
    (hm : ¬ (opcodeOf w = 0b0110011 ∧ funct7Of w = 0b0000001)) : decode w = .error .illegal := by
  cases hd : decode w with
  | ok i =>
    obtain ⟨-, hcovers, -⟩ := encodeOfDecode w i hd
    rw [hrow i] at hcovers
    cases hcovers
  | error r =>
    rcases decode_error hd with ⟨-, h⟩ | ⟨-, h⟩ | ⟨rfl, -⟩
    · exact absurd hlow h
    · exact absurd h hm
    · rfl

/-- No row covers a word that decodes to no instruction (rule R96). -/
theorem covers_eq_false_of_error {w : Word} {r : Reject} (h : decode w = .error r) (i : Instr) :
    i.row.covers w = false := by
  rw [← Bool.not_eq_true, covers_row_iff, h]
  exact fun h => nomatch h

/-! ### The groups of words that rule R97 lists -/

/-- Which part of the decoder reads a word, by its opcode. -/
theorem decode_of_branch {w : Word} (h : opcodeOf w = 0b1100011) : decode w = decodeBranch w := by
  simp [decode, lowBits_eq, h]
theorem decode_of_load {w : Word} (h : opcodeOf w = 0b0000011) : decode w = decodeLoad w := by
  simp [decode, lowBits_eq, h]
theorem decode_of_store {w : Word} (h : opcodeOf w = 0b0100011) : decode w = decodeStore w := by
  simp [decode, lowBits_eq, h]
theorem decode_of_opImm {w : Word} (h : opcodeOf w = 0b0010011) : decode w = decodeOpImm w := by
  simp [decode, lowBits_eq, h]
theorem decode_of_op {w : Word} (h : opcodeOf w = 0b0110011) : decode w = decodeOp w := by
  simp [decode, lowBits_eq, h]
theorem decode_of_miscMem {w : Word} (h : opcodeOf w = 0b0001111) : decode w = decodeMiscMem w := by
  simp [decode, lowBits_eq, h]
theorem decode_of_system {w : Word} (h : opcodeOf w = 0b1110011) : decode w = decodeSystem w := by
  simp [decode, lowBits_eq, h]

/-- An opcode of no row; the word may lie in the C space, so that the rejection is not always `illegal`. -/
theorem decode_of_opcode_notMem {w : Word} (h : opcodeOf w ∉ [0b0110111#7, 0b0010111#7, 0b1101111#7,
    0b1100111#7, 0b1100011#7, 0b0000011#7, 0b0100011#7, 0b0010011#7, 0b0110011#7, 0b0001111#7,
    0b1110011#7]) : ∃ r, decode w = .error r := by
  unfold decode
  split
  · split
    case h_12 => exact ⟨_, rfl⟩
    all_goals rename_i ho; simp [ho] at h
  · exact ⟨_, rfl⟩

/-- The function fields that no row of the opcode has (rule R97). -/
theorem decodeBranch_unmatched {w : Word} (h : funct3Of w ∈ [0b010#3, 0b011#3]) :
    decodeBranch w = .error .illegal := by
  unfold decodeBranch
  split
  case h_7 => rfl
  all_goals rename_i hf3; simp [hf3] at h

theorem decodeLoad_unmatched {w : Word} (h : funct3Of w ∈ [0b011#3, 0b110#3, 0b111#3]) :
    decodeLoad w = .error .illegal := by
  unfold decodeLoad
  split
  case h_6 => rfl
  all_goals rename_i hf3; simp [hf3] at h

theorem decodeStore_unmatched {w : Word} (h : 3 ≤ (funct3Of w).toNat) :
    decodeStore w = .error .illegal := by
  unfold decodeStore
  split
  case h_4 => rfl
  all_goals rename_i hf3; simp [hf3] at h

theorem decode_jalr_unmatched {w : Word} (ho : opcodeOf w = 0b1100111) (h : funct3Of w ≠ 0b000#3) :
    decode w = .error .illegal := by
  simp [decode, lowBits_eq, ho, h]

theorem decodeMiscMem_unmatched {w : Word} (h : 2 ≤ (funct3Of w).toNat) :
    decodeMiscMem w = .error .illegal := by
  unfold decodeMiscMem
  split
  case h_3 => rfl
  all_goals rename_i hf3; simp [hf3] at h

theorem decodeOpImm_slli_unmatched {w : Word} (hf3 : funct3Of w = 0b001)
    (h : funct7Of w ≠ 0b0000000#7) : decodeOpImm w = .error .illegal := by
  simp [decodeOpImm, hf3, h]

theorem decodeOpImm_right_unmatched {w : Word} (hf3 : funct3Of w = 0b101)
    (h : funct7Of w ∉ [0b0000000#7, 0b0100000#7]) : decodeOpImm w = .error .illegal := by
  have hright : decodeOpImm w = decodeShiftRightImm w := by simp [decodeOpImm, hf3]
  rw [hright]
  unfold decodeShiftRightImm
  split
  case h_3 => rfl
  all_goals rename_i hf7; simp [hf7] at h

/-- The M space is among these words, so that the rejection is not always `illegal`. -/
theorem decodeOp_unmatched {w : Word} (h : funct7Of w ∉ [0b0000000#7, 0b0100000#7]) :
    ∃ r, decodeOp w = .error r := by
  unfold decodeOp
  split
  case h_3 | h_4 => exact ⟨_, rfl⟩
  all_goals rename_i hf7; simp [hf7] at h

theorem decodeOp_alt_unmatched {w : Word} (hf7 : funct7Of w = 0b0100000)
    (h : funct3Of w ∉ [0b000#3, 0b101#3]) : decodeOp w = .error .illegal := by
  have halt : decodeOp w = decodeOpAlt w := by simp [decodeOp, hf7]
  rw [halt]
  unfold decodeOpAlt
  split
  case h_3 => rfl
  all_goals rename_i hf3; simp [hf3] at h

theorem decodeSystem_unmatched {w : Word} (h : funct3Of w = 0b100) :
    decodeSystem w = .error .illegal := by
  simp [decodeSystem, h]

theorem decodeSystem_zero_unmatched {w : Word} (hf3 : funct3Of w = 0b000)
    (hcall : w ≠ 0x00000073) (hbreak : w ≠ 0x00100073) : decodeSystem w = .error .illegal := by
  unfold decodeSystem
  split
  case h_1 => rw [if_neg hcall, if_neg hbreak]
  case h_8 => rfl
  all_goals rename_i h; simp [h] at hf3

/-- Settles O5: such a word is illegal and raises, and each listed group decodes to no instruction. -/
theorem unmatchedWordsRaise : Obligations.UnmatchedWordsRaise := by
  refine ⟨fun s w hr ha hf hrow hlow hm => ?_, fun w h => ?_⟩
  · refine ⟨s.illegal w, ?_, s.trapped_raise _ _⟩
    rw [step_of_fetch hr ha hf, runWord, decode_eq_illegal hrow hlow hm]
  · suffices herr : ∃ r, decode w = .error r by
      obtain ⟨r, hd⟩ := herr
      exact covers_eq_false_of_error hd
    rcases h with ho | ⟨ho, h⟩ | ⟨ho, h⟩ | ⟨ho, h⟩ | ⟨ho, h⟩ | ⟨ho, h⟩ | ⟨ho, hf3, h⟩ | ⟨ho, hf3, h⟩ |
      ⟨ho, h⟩ | ⟨ho, hf7, h⟩ | ⟨ho, h⟩ | ⟨ho, hf3, hcall, hbreak⟩
    · exact decode_of_opcode_notMem ho
    · exact ⟨_, (decode_of_branch ho).trans (decodeBranch_unmatched h)⟩
    · exact ⟨_, (decode_of_load ho).trans (decodeLoad_unmatched h)⟩
    · exact ⟨_, (decode_of_store ho).trans (decodeStore_unmatched h)⟩
    · exact ⟨_, decode_jalr_unmatched ho h⟩
    · exact ⟨_, (decode_of_miscMem ho).trans (decodeMiscMem_unmatched h)⟩
    · exact ⟨_, (decode_of_opImm ho).trans (decodeOpImm_slli_unmatched hf3 h)⟩
    · exact ⟨_, (decode_of_opImm ho).trans (decodeOpImm_right_unmatched hf3 h)⟩
    · rw [decode_of_op ho]; exact decodeOp_unmatched h
    · exact ⟨_, (decode_of_op ho).trans (decodeOp_alt_unmatched hf7 h)⟩
    · exact ⟨_, (decode_of_system ho).trans (decodeSystem_unmatched h)⟩
    · exact ⟨_, (decode_of_system ho).trans (decodeSystem_zero_unmatched hf3 hcall hbreak)⟩

/-! ### The bits of the immediates (rules R88 to R92) -/

/-- Above its sign bit a sign-extended field repeats it. -/
theorem getLsbD_signExtend_of_ge {n k : Nat} (v : BitVec (n + 1)) (h : n ≤ k) (hk : k < 32) :
    (v.signExtend 32).getLsbD k = v.getLsbD n := by
  rw [BitVec.getLsbD_signExtend, decide_eq_true hk, Bool.true_and]
  split
  · obtain rfl : k = n := by omega
    rfl
  · exact BitVec.msb_eq_getLsbD_last v

/-- Within the field a sign-extended field is the field. -/
theorem getLsbD_signExtend_of_lt {n k : Nat} (v : BitVec n) (h : k < n) (hn : n ≤ 32) :
    (v.signExtend 32).getLsbD k = v.getLsbD k := by
  have hk : k < 32 := by omega
  rw [BitVec.getLsbD_signExtend, decide_eq_true hk, Bool.true_and, if_pos h]

/-- The range of a sign-extended field of `n + 1` bits. -/
theorem toInt_signExtend_range {n : Nat} (v : BitVec (n + 1)) (hn : n + 1 ≤ 32) :
    -2 ^ n ≤ (v.signExtend 32).toInt ∧ (v.signExtend 32).toInt < 2 ^ n := by
  rw [BitVec.toInt_signExtend_of_le hn]
  exact ⟨BitVec.le_toInt v, BitVec.toInt_lt⟩

/-- A sign-extended field whose bit 0 is clear is an even number. -/
theorem toInt_signExtend_even {n : Nat} {v : BitVec (n + 1)} (hn : n + 1 ≤ 32)
    (h : v.getLsbD 0 = false) : (v.signExtend 32).toInt % 2 = 0 := by
  have hnat : v.toNat % 2 = 0 := by
    simpa [BitVec.getLsbD, Nat.testBit_zero] using h
  rw [BitVec.toInt_signExtend_of_le hn, BitVec.toInt_eq_toNat_cond]
  have hpow : (2 : Nat) ^ (n + 1) = 2 * 2 ^ n := by ring
  split <;> push_cast <;> omega

/-- A slice of a sign-extended field that the word holds bit by bit is a slice of the word. -/
theorem extractLsb'_signExtend_eq {n lo lo' len : Nat} {v : BitVec n} {w : Word}
    (hlen : lo + len ≤ n) (hn : n ≤ 32) (h : ∀ i < len, v.getLsbD (lo + i) = w.getLsbD (lo' + i)) :
    (v.signExtend 32).extractLsb' lo len = w.extractLsb' lo' len := by
  rw [extractLsb'_signExtend hlen hn]
  apply BitVec.eq_of_getLsbD_eq; intro i hi
  rw [BitVec.getLsbD_extractLsb', BitVec.getLsbD_extractLsb', h i hi]

/-- The bits of the field of an I-immediate (rule R88). -/
theorem getLsbD_immIOf (w : Word) {i : Nat} (h : i < 12) :
    (immIOf w).getLsbD i = w.getLsbD (20 + i) := by
  rw [immIOf, BitVec.getLsbD_extractLsb', decide_eq_true h, Bool.true_and]

/-- The I-immediate of a word (rule R88). -/
theorem imm12_immIOf (w : Word) :
    let v := imm12 (immIOf w)
    (∀ k, 11 ≤ k → k < 32 → v.getLsbD k = w.getLsbD 31) ∧
      v.extractLsb' 5 6 = w.extractLsb' 25 6 ∧ v.extractLsb' 1 4 = w.extractLsb' 21 4 ∧
      v.getLsbD 0 = w.getLsbD 20 ∧ v = (w.extractLsb' 20 12).signExtend 32 ∧
      -2048 ≤ v.toInt ∧ v.toInt ≤ 2047 := by
  obtain ⟨hlo, hhi⟩ := toInt_signExtend_range (immIOf w) (by decide)
  refine ⟨fun k h hk => ?_, ?_, ?_, ?_, rfl, hlo, Int.le_of_lt_add_one hhi⟩
  · exact (getLsbD_signExtend_of_ge _ h hk).trans (getLsbD_immIOf w (by decide))
  · refine extractLsb'_signExtend_eq (by decide) (by decide) fun i hi => ?_
    rw [getLsbD_immIOf w (by omega)]; congr 1; omega
  · refine extractLsb'_signExtend_eq (by decide) (by decide) fun i hi => ?_
    rw [getLsbD_immIOf w (by omega)]; congr 1; omega
  · exact (getLsbD_signExtend_of_lt _ (by decide) (by decide)).trans (getLsbD_immIOf w (by decide))

/-- The S-immediate of a word (rule R89). -/
theorem imm12_storeOffset (w : Word) :
    let v := imm12 (storeOffset w)
    (∀ k, 11 ≤ k → k < 32 → v.getLsbD k = w.getLsbD 31) ∧
      v.extractLsb' 5 6 = w.extractLsb' 25 6 ∧ v.extractLsb' 1 4 = w.extractLsb' 8 4 ∧
      v.getLsbD 0 = w.getLsbD 7 ∧ v = (storeOffset w).signExtend 32 ∧
      -2048 ≤ v.toInt ∧ v.toInt ≤ 2047 := by
  obtain ⟨hlo, hhi⟩ := toInt_signExtend_range (storeOffset w) (by decide)
  refine ⟨fun k h hk => ?_, ?_, ?_, ?_, rfl, hlo, Int.le_of_lt_add_one hhi⟩
  · exact (getLsbD_signExtend_of_ge _ h hk).trans (getLsbD_storeOffset w 11)
  · refine extractLsb'_signExtend_eq (by decide) (by decide) fun i hi => ?_
    rw [getLsbD_storeOffset]; interval_cases i <;> rfl
  · refine extractLsb'_signExtend_eq (by decide) (by decide) fun i hi => ?_
    rw [getLsbD_storeOffset]; interval_cases i <;> rfl
  · exact (getLsbD_signExtend_of_lt _ (by decide) (by decide)).trans (getLsbD_storeOffset w 0)

/-- The B-immediate of a word (rule R90). -/
theorem immB_branchOffset (w : Word) :
    let v := immB (branchOffset w)
    (∀ k, 12 ≤ k → k < 32 → v.getLsbD k = w.getLsbD 31) ∧ v.getLsbD 11 = w.getLsbD 7 ∧
      v.extractLsb' 5 6 = w.extractLsb' 25 6 ∧ v.extractLsb' 1 4 = w.extractLsb' 8 4 ∧
      v.getLsbD 0 = false ∧ v = (branchOffset w).signExtend 32 ∧
      -4096 ≤ v.toInt ∧ v.toInt ≤ 4094 := by
  obtain ⟨hlo, hhi⟩ := toInt_signExtend_range (branchOffset w) (by decide)
  have heven := toInt_signExtend_even (by decide) (getLsbD_branchOffset w 0)
  refine ⟨fun k h hk => ?_, ?_, ?_, ?_, ?_, rfl, hlo, ?_⟩
  · exact (getLsbD_signExtend_of_ge _ h hk).trans (getLsbD_branchOffset w 12)
  · exact (getLsbD_signExtend_of_lt _ (by decide) (by decide)).trans (getLsbD_branchOffset w 11)
  · refine extractLsb'_signExtend_eq (by decide) (by decide) fun i hi => ?_
    rw [getLsbD_branchOffset]; interval_cases i <;> rfl
  · refine extractLsb'_signExtend_eq (by decide) (by decide) fun i hi => ?_
    rw [getLsbD_branchOffset]; interval_cases i <;> rfl
  · exact (getLsbD_signExtend_of_lt _ (by decide) (by decide)).trans (getLsbD_branchOffset w 0)
  · rw [immB]; omega

/-- The J-immediate of a word (rule R92). -/
theorem immJ_jumpOffset (w : Word) :
    let v := immJ (jumpOffset w)
    (∀ k, 20 ≤ k → k < 32 → v.getLsbD k = w.getLsbD 31) ∧
      v.extractLsb' 12 8 = w.extractLsb' 12 8 ∧ v.getLsbD 11 = w.getLsbD 20 ∧
      v.extractLsb' 5 6 = w.extractLsb' 25 6 ∧ v.extractLsb' 1 4 = w.extractLsb' 21 4 ∧
      v.getLsbD 0 = false ∧ v = (jumpOffset w).signExtend 32 ∧
      -1048576 ≤ v.toInt ∧ v.toInt ≤ 1048574 := by
  obtain ⟨hlo, hhi⟩ := toInt_signExtend_range (jumpOffset w) (by decide)
  have heven := toInt_signExtend_even (by decide) (getLsbD_jumpOffset w 0)
  refine ⟨fun k h hk => ?_, ?_, ?_, ?_, ?_, ?_, rfl, hlo, ?_⟩
  · exact (getLsbD_signExtend_of_ge _ h hk).trans (getLsbD_jumpOffset w 20)
  · refine extractLsb'_signExtend_eq (by decide) (by decide) fun i hi => ?_
    rw [getLsbD_jumpOffset]; interval_cases i <;> rfl
  · exact (getLsbD_signExtend_of_lt _ (by decide) (by decide)).trans (getLsbD_jumpOffset w 11)
  · refine extractLsb'_signExtend_eq (by decide) (by decide) fun i hi => ?_
    rw [getLsbD_jumpOffset]; interval_cases i <;> rfl
  · refine extractLsb'_signExtend_eq (by decide) (by decide) fun i hi => ?_
    rw [getLsbD_jumpOffset]; interval_cases i <;> rfl
  · exact (getLsbD_signExtend_of_lt _ (by decide) (by decide)).trans (getLsbD_jumpOffset w 0)
  · rw [immJ]; omega

/-- The bits of a U-immediate: the field, over twelve zeros (rule R91). -/
theorem immU_slices (f : BitVec 20) :
    (immU f).extractLsb' 12 20 = f ∧ (immU f).extractLsb' 0 12 = 0 := by
  constructor <;> apply BitVec.eq_of_getLsbD_eq <;> intro i hi
  · have hword : 12 + i < 32 := by omega
    simp [immU, hi, hword]
  · simp [immU, getLsbD_place, hi]

/-- Settles O9: the decoder reads the immediate off the word, and the lemma of its format says the rest. -/
theorem immediateBits : Obligations.ImmediateBits := by
  intro w rd rs1 rs2
  refine ⟨fun imm h => ?_, fun imm h => ?_, fun off h => ?_, fun imm20 h => ?_, fun off h => ?_⟩
  · obtain rfl : immIOf w = imm := by
      simp only [List.mem_cons, List.not_mem_nil, or_false, decode_eq_ok_iff, Reads] at h; tauto
    exact imm12_immIOf w
  · obtain rfl : storeOffset w = imm := by
      simp only [List.mem_cons, List.not_mem_nil, or_false, decode_eq_ok_iff, Reads, immSOf_eq] at h
      tauto
    exact imm12_storeOffset w
  · obtain rfl : branchOffset w = off := by
      simp only [List.mem_cons, List.not_mem_nil, or_false, decode_eq_ok_iff, Reads, immBOf_eq] at h
      tauto
    exact immB_branchOffset w
  · obtain rfl : immUOf w = imm20 := by
      simp only [List.mem_cons, List.not_mem_nil, or_false, decode_eq_ok_iff, Reads] at h; tauto
    obtain ⟨hhigh, hlow⟩ := immU_slices (immUOf w)
    exact ⟨hhigh, hlow, immU_eq _⟩
  · obtain ⟨-, -, rfl⟩ := reads_of_decode h
    rw [immJOf_eq]
    exact immJ_jumpOffset w

/-! ### The pseudo-instructions (rule R103) -/

/-- Below 1 as an unsigned number: the test of SEQZ (rule R122). -/
theorem boolWord_ltUnsigned_one (a : Word) :
    boolWord (ltUnsigned a (imm12 1)) = if a = 0 then 1 else 0 := by
  by_cases h : a = 0
  · subst h; decide
  · have hlt : ltUnsigned a (imm12 1) = false := by
      have hone : (imm12 1).toNat = 1 := by decide
      rw [ltUnsigned, hone, decide_eq_false_iff_not]; bv_omega
    rw [hlt, if_neg h]; rfl

/-- Above 0 as an unsigned number: the test of SNEZ (rule R134). -/
theorem boolWord_zero_ltUnsigned (a : Word) :
    boolWord (ltUnsigned 0 a) = if a = 0 then 0 else 1 := by
  by_cases h : a = 0
  · subst h; decide
  · have hlt : ltUnsigned 0 a = true := by
      rw [ltUnsigned, decide_eq_true_eq]; bv_omega
    rw [hlt, if_neg h]; rfl

/-- Settles O35: each expansion comes down to `State.finish` with its result. -/
theorem pseudoInstructionResults : Obligations.PseudoInstructionResults := by
  intro s rd rs
  refine ⟨completes_of_finish ?_, completes_of_finish ?_, completes_of_finish ?_,
    completes_of_finish ?_⟩
  · have hzero : imm12 0 = 0 := by decide
    rw [Pseudo.mv, exec_addi, hzero]
    exact congrArg (s.finish rd) (BitVec.add_zero _)
  · rw [Pseudo.seqz, exec_sltiu, boolWord_ltUnsigned_one]
  · have hones : imm12 (-1) = BitVec.allOnes 32 := by decide
    rw [Pseudo.not, exec_xori, hones, BitVec.xor_allOnes]
  · have hx0 : s.reg 0 = 0 := s.reg_zero
    rw [Pseudo.snez, exec_sltu, hx0, boolWord_zero_ltUnsigned]

end Sys2Proof.Machine
end

section
/-! PROOFS. The family of 40_integer_computational.md: what the 21 integer computational instructions
compute, their rows of the decode table, and NOP. -/

namespace Sys2Proof.Machine

/-! ### The comparisons and shifts as arithmetic (rules R9, R143) -/

theorem boolWord_ltSigned (a b : Word) :
    boolWord (ltSigned a b) = if a.toInt < b.toInt then 1 else 0 := by
  simp [boolWord, ltSigned]

theorem boolWord_ltUnsigned (a b : Word) :
    boolWord (ltUnsigned a b) = if a.toNat < b.toNat then 1 else 0 := by
  simp [boolWord, ltUnsigned]

/-- A left shift is a product with a power of two, modulo 2^32. -/
theorem shiftLeft_eq_mul (a : Word) (n : BitVec 5) :
    shiftLeft a n = BitVec.ofNat 32 (a.toNat * 2 ^ n.toNat) := by
  apply BitVec.eq_of_toNat_eq
  rw [shiftLeft, BitVec.toNat_shiftLeft, BitVec.toNat_ofNat, Nat.shiftLeft_eq]

/-- A logical right shift is the quotient of the unsigned value by a power of two. -/
theorem shiftRightLogical_eq_div (a : Word) (n : BitVec 5) :
    shiftRightLogical a n = BitVec.ofNat 32 (a.toNat / 2 ^ n.toNat) := by
  have hlt : a.toNat / 2 ^ n.toNat < 2 ^ 32 := (Nat.div_le_self ..).trans_lt a.isLt
  apply BitVec.eq_of_toNat_eq
  rw [shiftRightLogical, BitVec.toNat_ushiftRight, Nat.shiftRight_eq_div_pow, BitVec.toNat_ofNat,
    Nat.mod_eq_of_lt hlt]

/-- An arithmetic right shift is the quotient of the signed value by a power of two, rounded toward
minus infinity. -/
theorem shiftRightArith_eq_fdiv (a : Word) (n : BitVec 5) :
    shiftRightArith a n = BitVec.ofInt 32 (a.toInt.fdiv (2 ^ n.toNat)) := by
  have hpow : (0 : Int) ≤ 2 ^ n.toNat := by positivity
  rw [shiftRightArith, BitVec.sshiftRight, Int.shiftRight_eq_div_pow,
    Int.fdiv_eq_ediv_of_nonneg _ hpow]
  norm_cast

/-- The amount of a register shift is rs2 modulo 32 (rule R138). -/
theorem toNat_shiftAmount (v : Word) : (shiftAmount v).toNat = v.toNat % 32 := by
  simp [shiftAmount]

/-! ### The register-immediate instructions -/

/-- Settles O27: each instruction comes down to `State.finish` with its result. -/
theorem immediateArithmetic : Obligations.ImmediateArithmetic :=
  ⟨rowIs_row (.addi 0 0 0), rowIs_row (.andi 0 0 0), rowIs_row (.ori 0 0 0),
    rowIs_row (.xori 0 0 0), fun s rd rs1 imm =>
      ⟨completes_of_finish (exec_addi rd rs1 imm s), completes_of_finish (exec_andi rd rs1 imm s),
        completes_of_finish (exec_ori rd rs1 imm s), completes_of_finish (exec_xori rd rs1 imm s)⟩⟩

/-- Settles O28: the immediate is sign-extended first, and only then read as signed or as unsigned. -/
theorem immediateComparisons : Obligations.ImmediateComparisons := by
  refine ⟨rowIs_row (.slti 0 0 0), rowIs_row (.sltiu 0 0 0), fun s rd rs1 imm =>
    ⟨completes_of_finish ?_, completes_of_finish ?_⟩⟩
  · rw [exec_slti, boolWord_ltSigned, imm12]
  · rw [exec_sltiu, boolWord_ltUnsigned, imm12]

/-- Settles O29: the rows with the amount where rs2 stands, and the shifts as arithmetic. -/
theorem immediateShifts : Obligations.ImmediateShifts := by
  refine ⟨rowIs_row (.slli 0 0 0), rowIs_row (.srli 0 0 0), rowIs_row (.srai 0 0 0),
    fun s rd rs1 shamt =>
      ⟨completes_of_finish ?_, completes_of_finish ?_, completes_of_finish ?_⟩⟩
  · rw [exec_slli, shiftLeft_eq_mul]
  · rw [exec_srli, shiftRightLogical_eq_div]
  · rw [exec_srai, shiftRightArith_eq_fdiv]

/-- Settles O30: the U-immediate is the field over twelve zeros, `immU_eq`. -/
theorem upperImmediates : Obligations.UpperImmediates := by
  refine ⟨rowIs_row (.lui 0 0), rowIs_row (.auipc 0 0), fun s rd imm20 =>
    ⟨completes_of_finish ?_, completes_of_finish ?_⟩⟩
  · rw [exec_lui, immU_eq]
  · rw [exec_auipc, immU_eq]

/-! ### The register-register instructions -/

/-- Settles O31: each instruction comes down to `State.finish` with its result. -/
theorem registerArithmetic : Obligations.RegisterArithmetic :=
  ⟨rowIs_row (.add 0 0 0), rowIs_row (.sub 0 0 0), rowIs_row (.and 0 0 0), rowIs_row (.or 0 0 0),
    rowIs_row (.xor 0 0 0), fun s rd rs1 rs2 =>
      ⟨completes_of_finish (exec_add rd rs1 rs2 s), completes_of_finish (exec_sub rd rs1 rs2 s),
        completes_of_finish (exec_and rd rs1 rs2 s), completes_of_finish (exec_or rd rs1 rs2 s),
        completes_of_finish (exec_xor rd rs1 rs2 s)⟩⟩

/-- Settles O32: the comparisons of O28 on two registers. -/
theorem registerComparisons : Obligations.RegisterComparisons := by
  refine ⟨rowIs_row (.slt 0 0 0), rowIs_row (.sltu 0 0 0), fun s rd rs1 rs2 =>
    ⟨completes_of_finish ?_, completes_of_finish ?_⟩⟩
  · rw [exec_slt, boolWord_ltSigned]
  · rw [exec_sltu, boolWord_ltUnsigned]

/-- Settles O33: the shifts of O29 with the amount of `toNat_shiftAmount`. -/
theorem registerShifts : Obligations.RegisterShifts := by
  refine ⟨rowIs_row (.sll 0 0 0), rowIs_row (.srl 0 0 0), rowIs_row (.sra 0 0 0),
    fun s rd rs1 rs2 =>
      ⟨completes_of_finish ?_, completes_of_finish ?_, completes_of_finish ?_⟩⟩
  · rw [exec_sll, shiftLeft_eq_mul, toNat_shiftAmount]
  · rw [exec_srl, shiftRightLogical_eq_div, toNat_shiftAmount]
  · rw [exec_sra, shiftRightArith_eq_fdiv, toNat_shiftAmount]

/-! ### NOP (rule R141) -/

/-- A result written to x0 is discarded (rule R21). -/
theorem WroteOnly.movedOnly_of_x0 {s t : State} {v npc : Word} (h : WroteOnly s t 0 v npc) :
    MovedOnly s t npc := by
  obtain ⟨hreg, hframe⟩ := h
  refine ⟨fun r => ?_, hframe⟩
  by_cases hr : r = 0
  · subst hr
    exact (hreg 0).trans s.reg_zero.symm
  · rw [hreg r, if_neg hr, if_neg hr]

/-- Settles O34: NOP is an ADDI whose destination is x0. -/
theorem nopOnlyMovesOn : Obligations.NopOnlyMovesOn := by
  have hword : encode Pseudo.nop = 0x00000013 := by decide
  have hwf : Pseudo.nop.wellFormed = true := by decide
  refine ⟨hword, hword ▸ decode_encode hwf, fun s => ?_⟩
  obtain ⟨t, hexec, hwrote⟩ := completes_of_finish (exec_addi 0 0 0 s)
  exact ⟨t, hexec, hwrote.movedOnly_of_x0⟩

end Sys2Proof.Machine
end

section
/-! PROOFS. The family of 41_control_transfer.md: when a target is misaligned, the eight jumps and
branches with their rows of the decode table, and that nothing else raises InstructionAddressMisaligned. -/

namespace Sys2Proof.Machine

/-! ### The low two bits of a target (rule R158) -/

theorem misaligned_iff (t : Word) : Misaligned t ↔ aligned t = false := by
  simp [Misaligned, aligned]

theorem not_misaligned_iff (t : Word) : ¬ Misaligned t ↔ aligned t = true := by
  simp [Misaligned, aligned]

/-- A word is misaligned when one of its low two bits is set. -/
theorem misaligned_iff_bits (t : Word) :
    Misaligned t ↔ t.getLsbD 0 = true ∨ t.getLsbD 1 = true := by
  have hmod : aligned t = false ↔ ¬ t.toNat % 4 = 0 := by
    rw [← aligned_iff, Bool.not_eq_true]
  rw [misaligned_iff, hmod, BitVec.getLsbD, BitVec.getLsbD, Nat.testBit_eq_decide_div_mod_eq,
    Nat.testBit_eq_decide_div_mod_eq, decide_eq_true_eq, decide_eq_true_eq]
  omega

/-- Adding to a multiple of 4 leaves the low two bits of what is added. -/
theorem getLsbD_add_of_aligned {a : Word} (ha : aligned a = true) (v : Word) {k : Nat} (hk : k < 2) :
    (a + v).getLsbD k = v.getLsbD k := by
  have hmod : (a + v).toNat % 2 ^ 2 = v.toNat % 2 ^ 2 := by
    rw [aligned_iff] at ha
    bv_omega
  have hbit : ((a + v).toNat % 2 ^ 2).testBit k = (v.toNat % 2 ^ 2).testBit k := by rw [hmod]
  rwa [Nat.testBit_mod_two_pow, Nat.testBit_mod_two_pow, decide_eq_true hk, Bool.true_and,
    Bool.true_and] at hbit

/-- The low two bits of a target relative to an aligned pc are those of the offset (rules R90, R92). -/
theorem getLsbD_add_signExtend {a : Word} (ha : aligned a = true) {n k : Nat} (off : BitVec n)
    (hk : k < 2) (hn : 2 ≤ n) (hn' : n ≤ 32) : (a + off.signExtend 32).getLsbD k = off.getLsbD k :=
  (getLsbD_add_of_aligned ha _ hk).trans (getLsbD_signExtend_of_lt off (by omega) hn')

/-- A target relative to an aligned pc is even when the offset is (rules R90, R92). -/
theorem getLsbD_zero_add_signExtend {a : Word} (ha : aligned a = true) {n : Nat} {off : BitVec n}
    (hoff : evenOffset off = true) (hn : 2 ≤ n) (hn' : n ≤ 32) :
    (a + off.signExtend 32).getLsbD 0 = false := by
  rw [getLsbD_add_signExtend ha off (by decide) hn hn']
  simpa [evenOffset] using hoff

/-- Clearing bit 0 of a sum clears bit 0 and keeps bit 1 (rule R151). -/
theorem getLsbD_and_clearBit0 (v : Word) :
    (v &&& 0xFFFFFFFE).getLsbD 0 = false ∧ (v &&& 0xFFFFFFFE).getLsbD 1 = v.getLsbD 1 := by
  simp

/-- A target with bit 0 cleared is misaligned when bit 1 of the sum is set (rule R151). -/
theorem misaligned_and_clearBit0_iff (v : Word) :
    Misaligned (v &&& 0xFFFFFFFE) ↔ v.getLsbD 1 = true := by
  obtain ⟨hbit0, hbit1⟩ := getLsbD_and_clearBit0 v
  rw [misaligned_iff_bits, hbit0, hbit1]
  simp

/-! ### The jumps (rules R150, R151) -/

/-- An instruction that comes down to `State.jump` links and goes to an aligned target, and raises on a
misaligned one. -/
theorem jumps_of_exec {i : Instr} {s : State} {rd : Reg} {t : Word} (h : exec i s = s.jump rd t) :
    (¬ Misaligned t → Completes i s fun u => WroteOnly s u rd (s.pc + 4) t) ∧
      (Misaligned t → Traps i s .instructionAddressMisaligned (some t)) := by
  rw [Completes, Traps, h, not_misaligned_iff, misaligned_iff]
  exact ⟨fun ha => State.jump_spec ha rd, fun ha => State.jump_trap ha rd⟩

/-- Settles O36: the row, `jumps_of_exec`, and the low two bits of the target. -/
theorem jalJumpsAndLinks : Obligations.JalJumpsAndLinks := by
  refine ⟨rowIs_row (.jal 0 0), fun s rd off => ?_⟩
  obtain ⟨hgoes, hraises⟩ := jumps_of_exec (exec_jal rd off s)
  refine ⟨hgoes, hraises, fun hpc hoff => ?_⟩
  rw [misaligned_iff_bits, getLsbD_add_signExtend hpc off (by decide) (by decide) (by decide),
    getLsbD_add_signExtend hpc off (by decide) (by decide) (by decide), hoff]
  simp

/-- Settles O37: the row, and `jumps_of_exec` where bit 1 of the sum tells whether the target is
misaligned. -/
theorem jalrJumpsAndLinks : Obligations.JalrJumpsAndLinks := by
  refine ⟨rowIs_row (.jalr 0 0 0), fun s rd rs1 off => ?_⟩
  have hbit := misaligned_and_clearBit0_iff (s.reg rs1 + off.signExtend 32)
  obtain ⟨hgoes, hraises⟩ := jumps_of_exec (exec_jalr rd rs1 off s)
  exact ⟨fun hclear => hgoes (hbit.not.mpr (Bool.eq_false_iff.mp hclear)),
    fun hset => hraises (hbit.mpr hset), hbit⟩

/-! ### The conditional branches (rules R152 to R157) -/

/-- An instruction that comes down to `State.branch` is a branch with the condition its test decides. -/
theorem branches_of_exec {i : Instr} {s : State} {c : Bool} {cond : Prop} {t : Word}
    (h : exec i s = s.branch c t) (hc : c = true ↔ cond) : Branches i s cond t := by
  rw [Branches, Completes, Completes, Traps, h, not_misaligned_iff, misaligned_iff, ← hc]
  cases c with
  | true => exact ⟨fun _ => State.branch_taken, fun _ => State.branch_trap, by simp⟩
  | false => exact ⟨by simp, by simp, fun _ => State.branch_notTaken s t⟩

theorem ltSigned_iff (a b : Word) : ltSigned a b = true ↔ a.toInt < b.toInt := by
  simp [ltSigned]

theorem ltUnsigned_iff (a b : Word) : ltUnsigned a b = true ↔ a.toNat < b.toNat := by
  simp [ltUnsigned]

theorem not_ltSigned_iff (a b : Word) : (!ltSigned a b) = true ↔ b.toInt ≤ a.toInt := by
  simp [ltSigned]

theorem not_ltUnsigned_iff (a b : Word) : (!ltUnsigned a b) = true ↔ b.toNat ≤ a.toNat := by
  simp [ltUnsigned]

/-- Settles O38: the six rows, and `branches_of_exec` with the condition that each test decides. -/
theorem conditionalBranches : Obligations.ConditionalBranches :=
  ⟨rowIs_row (.beq 0 0 0), rowIs_row (.bne 0 0 0), rowIs_row (.blt 0 0 0), rowIs_row (.bltu 0 0 0),
    rowIs_row (.bge 0 0 0), rowIs_row (.bgeu 0 0 0), fun s rs1 rs2 off =>
      ⟨branches_of_exec (exec_beq rs1 rs2 off s) beq_iff_eq,
        branches_of_exec (exec_bne rs1 rs2 off s) bne_iff_ne,
        branches_of_exec (exec_blt rs1 rs2 off s) (ltSigned_iff ..),
        branches_of_exec (exec_bltu rs1 rs2 off s) (ltUnsigned_iff ..),
        branches_of_exec (exec_bge rs1 rs2 off s) (not_ltSigned_iff ..),
        branches_of_exec (exec_bgeu rs1 rs2 off s) (not_ltUnsigned_iff ..)⟩⟩

/-! ### Nothing else raises so (rule R158) -/

/-- The one exception of an instruction that transfers control is a misaligned target (rule R234). -/
theorem possibleException_of_transferTarget {i : Instr} {s : State} {u : Word}
    (h : transferTarget i s = some u) :
    possibleException i = some .instructionAddressMisaligned := by
  cases i
  case jal | jalr | beq | bne | blt | bge | bltu | bgeu => rfl
  all_goals cases h

/-- The transfer to a misaligned target is the exception: every other effect of the instruction goes to an
aligned target or transfers nowhere. -/
theorem Effect.trapped_of_misaligned {i : Instr} {s t : State} (h : Effect i s t) {u : Word}
    (hu : transferTarget i s = some u) (hmis : Misaligned u) :
    Trapped s t .instructionAddressMisaligned (some u) := by
  rw [misaligned_iff] at hmis
  cases h with
  | wrote _ _ _ ha => simp [ha u hu] at hmis
  | moved ha => simp [ha u hu] at hmis
  | stored _ _ _ _ _ _ ht => simp [ht] at hu
  | synchronised hi => subst hi; cases hu
  | trapped e x hp hm =>
    obtain rfl : e = .instructionAddressMisaligned :=
      Option.some.inj (hp.symm.trans (possibleException_of_transferTarget hu))
    obtain ⟨v, hv, -, rfl⟩ := hm rfl
    obtain rfl : u = v := Option.some.inj (hu.symm.trans hv)
    exact s.trapped_raise _ _

/-- An instruction of a running hart whose trap record says InstructionAddressMisaligned was transferring
to a misaligned target, the one recorded. -/
theorem Effect.misaligned_of_trap {i : Instr} {s t : State} (h : Effect i s t) (hrun : s.Running)
    {r : TrapRecord} (hr : t.trap = some r) (he : r.exception = .instructionAddressMisaligned) :
    ∃ u, transferTarget i s = some u ∧ Misaligned u ∧ r.info = some u := by
  have hrun : s.trap = none := hrun
  cases h with
  | wrote => simp [hrun] at hr
  | moved => simp [hrun] at hr
  | stored => simp [hrun] at hr
  | synchronised => simp [hrun] at hr
  | trapped e x _ hm =>
    obtain rfl := Option.some.inj hr
    obtain ⟨u, hu, hmis, hx⟩ := hm he
    exact ⟨u, hu, (misaligned_iff u).mpr hmis, hx⟩

/-- Bit 0 of a target is 0: an offset is even and a pc aligned, and JALR clears the bit (rules R90, R92,
R151). -/
theorem getLsbD_zero_transferTarget {i : Instr} {s : State} {u : Word} (hwf : i.wellFormed = true)
    (hpc : aligned s.pc = true) (hu : transferTarget i s = some u) : u.getLsbD 0 = false := by
  cases i
  case jal rd off =>
    obtain rfl := Option.some.inj hu
    exact getLsbD_zero_add_signExtend hpc hwf (by decide) (by decide)
  case jalr rd rs1 off =>
    obtain rfl := Option.some.inj hu
    obtain ⟨hbit0, -⟩ := getLsbD_and_clearBit0 (s.reg rs1 + off.signExtend 32)
    exact hbit0
  case beq rs1 rs2 off | bne rs1 rs2 off | blt rs1 rs2 off | bge rs1 rs2 off | bltu rs1 rs2 off
      | bgeu rs1 rs2 off =>
    obtain ⟨-, hu⟩ := Option.ite_none_right_eq_some.mp hu
    obtain rfl := Option.some.inj hu
    exact getLsbD_zero_add_signExtend hpc hwf (by decide) (by decide)
  all_goals cases hu

/-- Settles O22: every answer is one of the effects of its instruction. -/
theorem misalignedTargetsRaise : Obligations.MisalignedTargetsRaise := by
  refine fun i s => ⟨fun u hu hmis => ?_, fun t r hrun h => ?_,
    fun u => getLsbD_zero_transferTarget⟩
  · obtain ⟨t, hexec, he⟩ := exec_effect i s
    exact ⟨t, hexec, he.trapped_of_misaligned hu hmis⟩
  · exact (effect_of_exec h).misaligned_of_trap hrun

end Sys2Proof.Machine
end

section
/-! PROOFS. The family of 42_load_store.md: the five loads, their rows of the decode table and their trap. -/

namespace Sys2Proof.Machine

section
variable {i : Instr} {s : State} {rd : Reg} {ea : Word}

/-- An instruction that comes down to `State.finishLoad` is a load of what its read answers, where the read
answers just when every byte may be read. -/
theorem loads_of_exec {n : Nat} {v : Word} {read : Option Word}
    (h : exec i s = s.finishLoad rd ea read) (hsome : AllAccessible s .read ea n → read = some v)
    (hnone : ¬ AllAccessible s .read ea n → read = none) : Loads i s rd ea n v := by
  constructor
  · intro hacc
    exact completes_of_finish (by rw [h, hsome hacc, State.finishLoad])
  · intro hacc
    exact ⟨_, by rw [h, hnone hacc, State.finishLoad], s.trapped_raise _ _⟩

/-- A load of one byte, extended by `extend` (rules R170, R173). -/
theorem loads_of_memRead8 {extend : BitVec 8 → Word}
    (h : exec i s = s.finishLoad rd ea ((s.memRead8 ea).map extend)) :
    Loads i s rd ea 1 (extend (s.observe .read ea)) :=
  loads_of_exec h (fun hacc => by rw [State.memRead8_of hacc, Option.map_some])
    fun hacc => by rw [State.memRead8_none hacc, Option.map_none]

/-- A load of two bytes, extended by `extend` (rules R171, R174). -/
theorem loads_of_memRead16 {extend : BitVec 16 → Word}
    (h : exec i s = s.finishLoad rd ea ((s.memRead16 ea).map extend)) :
    Loads i s rd ea 2 (extend (leHalf (s.observe .read ea) (s.observe .read (ea + 1)))) :=
  loads_of_exec h (fun hacc => by rw [State.memRead16_of hacc, Option.map_some])
    fun hacc => by rw [State.memRead16_none hacc, Option.map_none]

end

/-- Settles O39: the five rows, and for each load the bytes it observes, whose number it extends. -/
theorem loadsReadAndExtend : Obligations.LoadsReadAndExtend := by
  refine ⟨rowIs_row (.lb 0 0 0), rowIs_row (.lh 0 0 0), rowIs_row (.lw 0 0 0),
    rowIs_row (.lbu 0 0 0), rowIs_row (.lhu 0 0 0), fun s rd rs1 off => ?_⟩
  simp only [observedNat_one, observedNat_two, observedNat_four, BitVec.ofNat_toNat,
    BitVec.setWidth_eq]
  exact ⟨loads_of_memRead8 (exec_lb rd rs1 off s), loads_of_memRead16 (exec_lh rd rs1 off s),
    loads_of_exec (exec_lw rd rs1 off s) State.memRead32_of State.memRead32_none,
    loads_of_memRead8 (exec_lbu rd rs1 off s), loads_of_memRead16 (exec_lhu rd rs1 off s)⟩

end Sys2Proof.Machine
end

section
/-! PROOFS. The family of 43_fence.md: the eight class bits of FENCE, and the fetch view after FENCE.I. -/

namespace Sys2Proof.Machine

/-! ### FENCE (rules R94, R190) -/

theorem predOf_eq (w : Word) :
    predOf w = ⟨w.getLsbD 27, w.getLsbD 26, w.getLsbD 25, w.getLsbD 24⟩ := by
  simp [predOf, Classes.ofBits]

theorem succOf_eq (w : Word) :
    succOf w = ⟨w.getLsbD 23, w.getLsbD 22, w.getLsbD 21, w.getLsbD 20⟩ := by
  simp [succOf, Classes.ofBits]

/-- Settles O44: the row names the two sets by `predOf` and `succOf`, and the effect is `State.retire`
alone. -/
theorem fenceOnlyMovesOn : Obligations.FenceOnlyMovesOn := by
  refine ⟨fun w => ?_, fun s pred succ => ⟨_, exec_fence pred succ s, s.movedOnly_retire _⟩⟩
  beta_reduce
  rw [← predOf_eq, ← succOf_eq]
  exact rowIs_row (.fence (predOf w) (succOf w)) w

/-! ### FENCE.I (rule R191) -/

/-- Where the fetch view is empty, every fetched byte is the one a load would see. -/
theorem State.fetchByte_of_stale_nil {s : State} (h : s.stale = []) (a : Word) :
    s.fetchByte a = s.observe .fetch a :=
  State.fetchByte_fresh (by rw [h]; rfl)

/-- Settles O45: FENCE.I retires from the state with an empty fetch view, which agrees with the state
before it in everything else. -/
theorem fenceISynchronises : Obligations.FenceISynchronises := by
  refine ⟨rowIs_row .fenceI, fun s => ⟨_, exec_fenceI s, ?_⟩⟩
  obtain ⟨hregs, hmem, hstale, hret⟩ :=
    State.movedOnly_retire { s with stale := [] } (s.pc + 4)
  exact ⟨hregs, hmem, hstale, hret, State.fetchByte_of_stale_nil hstale⟩

end Sys2Proof.Machine
end

section
/-! PROOFS. The family of 44_csr_system.md: what the six CSR instructions do where they only read and where
they would write, the counter pseudo-instructions, ECALL and EBREAK, and their rows of the decode table. -/

namespace Sys2Proof.Machine

/-! ### The two ends of a CSR access (rules R208, R209) -/

section
variable {i : Instr} {s : State} {w : Word} {rd : Reg} {a : CsrAddr} {f : Word → Word}

/-- An instruction that comes down to a read of an implemented CSR, without a write, leaves the CSR's value
in its register and goes on. -/
theorem completes_of_csrRead {c : Csr} (ha : Csr.ofAddr a = some c)
    (h : exec i s = s.csrAccess w rd a true false f) :
    Completes i s fun t => WroteOnly s t rd (c.value s) (s.pc + 4) := by
  rw [Completes, h]
  exact State.csrAccess_read ha w rd f

/-- An instruction that comes down to a CSR access with a write raises, since no CSR can be written. -/
theorem traps_of_csrWrite {reads writes : Bool} (hw : writes = true)
    (h : exec i s = s.csrAccess w rd a reads writes f) : Traps i s .illegalInstruction (some w) := by
  subst hw
  exact ⟨_, h.trans (State.csrAccess_write ..), s.trapped_raise _ _⟩

end

/-! ### The forms that only read (rules R201, R202, R204, R205, R212) -/

/-- The four forms with a zero rs1 or zimm field read an implemented CSR and do not write it. -/
theorem csrReads_of_ofAddr {a : CsrAddr} {c : Csr} (ha : Csr.ofAddr a = some c) (s : State) (rd : Reg) :
    Completes (.csrrs rd a 0) s (fun t => WroteOnly s t rd (c.value s) (s.pc + 4)) ∧
    Completes (.csrrc rd a 0) s (fun t => WroteOnly s t rd (c.value s) (s.pc + 4)) ∧
    Completes (.csrrsi rd a 0) s (fun t => WroteOnly s t rd (c.value s) (s.pc + 4)) ∧
    Completes (.csrrci rd a 0) s (fun t => WroteOnly s t rd (c.value s) (s.pc + 4)) :=
  ⟨completes_of_csrRead ha (exec_csrrs rd a 0 s), completes_of_csrRead ha (exec_csrrc rd a 0 s),
    completes_of_csrRead ha (exec_csrrsi rd a 0 s), completes_of_csrRead ha (exec_csrrci rd a 0 s)⟩

/-- Settles O46: each of the six addresses names its CSR, whose value is the half the list gives. -/
theorem csrReads : Obligations.CsrReads := by
  intro s rd csr v h
  simp only [List.mem_cons, Prod.mk.injEq, List.not_mem_nil, or_false] at h
  obtain ⟨rfl, rfl⟩ | ⟨rfl, rfl⟩ | ⟨rfl, rfl⟩ | ⟨rfl, rfl⟩ | ⟨rfl, rfl⟩ | ⟨rfl, rfl⟩ := h
  · exact csrReads_of_ofAddr (c := .cycle) rfl s rd
  · exact csrReads_of_ofAddr (c := .time) rfl s rd
  · exact csrReads_of_ofAddr (c := .instret) rfl s rd
  · exact csrReads_of_ofAddr (c := .cycleh) rfl s rd
  · exact csrReads_of_ofAddr (c := .timeh) rfl s rd
  · exact csrReads_of_ofAddr (c := .instreth) rfl s rd

/-- The low half of a counter is the counter modulo 2^32. -/
theorem ofNat_toNat_eq_low (n : DWord) : BitVec.ofNat 32 n.toNat = n.extractLsb' 0 32 := rfl

/-- The high half of a counter is its quotient by 2^32. -/
theorem ofNat_toNat_div_eq_high (n : DWord) :
    BitVec.ofNat 32 (n.toNat / 2 ^ 32) = n.extractLsb' 32 32 := by
  rw [BitVec.extractLsb', Nat.shiftRight_eq_div_pow]

/-- Settles O49: each counter pseudo-instruction is a CSRRS with x0 of one of the six CSRs. -/
theorem counterReads : Obligations.CounterReads := by
  intro s rd
  have hread {a : CsrAddr} {c : Csr} (ha : Csr.ofAddr a = some c) :
      Completes (.csrrs rd a 0) s fun t => WroteOnly s t rd (c.value s) (s.pc + 4) :=
    (csrReads_of_ofAddr ha s rd).left
  simp only [ofNat_toNat_eq_low, ofNat_toNat_div_eq_high]
  exact ⟨hread (c := .cycle) rfl, hread (c := .cycleh) rfl, hread (c := .time) rfl,
    hread (c := .timeh) rfl, hread (c := .instret) rfl, hread (c := .instreth) rfl⟩

/-! ### The forms that write (rules R200 to R205, R209, R214) -/

/-- A CSR instruction is encoded as the word it was decoded from: it has no reserved field. -/
theorem encode_of_decode_csr {w : Word} {i : Instr} (h : decode w = .ok i)
    (hcsr : accessesCsr i = true) : encode i = w := by
  refine encode_of_reads (reads_of_decode h) ?_ ?_
  · rintro pred succ rfl
    cases hcsr
  · rintro rfl
    cases hcsr

/-- Settles O47: the six rows, and `traps_of_csrWrite` for the forms that write always and for those whose
field is not zero. -/
theorem csrWritesRaise : Obligations.CsrWritesRaise := by
  refine ⟨rowIs_row (.csrrw 0 0 0), rowIs_row (.csrrs 0 0 0), rowIs_row (.csrrc 0 0 0),
    rowIs_row (.csrrwi 0 0 0), rowIs_row (.csrrsi 0 0 0), rowIs_row (.csrrci 0 0 0),
    fun _ _ => encode_of_decode_csr, fun s rd csr f =>
      ⟨traps_of_csrWrite rfl (exec_csrrw rd csr f s), traps_of_csrWrite rfl (exec_csrrwi rd csr f s),
        fun hf => ?_⟩⟩
  have hwrites : (f != 0#5) = true := bne_iff_ne.mpr hf
  exact ⟨traps_of_csrWrite hwrites (exec_csrrs rd csr f s),
    traps_of_csrWrite hwrites (exec_csrrc rd csr f s),
    traps_of_csrWrite hwrites (exec_csrrsi rd csr f s),
    traps_of_csrWrite hwrites (exec_csrrci rd csr f s)⟩

/-! ### ECALL and EBREAK (rules R206, R207) -/

/-- Settles O51: the row of the one word, and ECALL as `State.raise`. -/
theorem ecallTakesEnvironmentCall : Obligations.EcallTakesEnvironmentCall :=
  ⟨rowIs_row .ecall, fun s => ⟨_, exec_ecall s, s.trapped_raise _ _⟩⟩

/-- Settles O52: the row of the one word, and EBREAK as `State.raise` with its own pc. -/
theorem ebreakTakesBreakpoint : Obligations.EbreakTakesBreakpoint :=
  ⟨rowIs_row .ebreak, fun s => ⟨_, exec_ebreak s, s.trapped_raise _ _⟩⟩

end Sys2Proof.Machine
end

section
/-! PROOFS. The family of 60_exceptions.md: what a trap leaves as it was, which trap is a normal end, and
what the environment answers to one. -/

namespace Sys2Proof.Machine

/-! ### Where a running hart goes (rules R240 to R242) -/

/-- An instruction of a running hart leaves it running, or takes the exception its rule names. -/
theorem Effect.running_or_raised {i : Instr} {s t : State} (h : Effect i s t) (hrun : s.Running) :
    t.Running ∨ ∃ e x, possibleException i = some e ∧ t = s.raise e x := by
  cases h with
  | wrote => exact .inl ((State.setReg_trap ..).trans hrun)
  | stored => exact .inl ((State.storeBytes_trap ..).trans hrun)
  | moved | synchronised => exact .inl hrun
  | trapped e x hp => exact .inr ⟨e, x, hp, rfl⟩

/-- A step of a running hart leaves it running, or is the taking of one exception: at the fetch, at a word
that matches no row, or by the instruction. -/
theorem step_running_or_raised {s t : State} (hrun : s.Running) (h : step s = .next t) :
    t.Running ∨ ∃ e x, t = s.raise e x := by
  rcases step_next h with ⟨q, -, hq, -⟩ | ⟨-, -, ⟨-, rfl⟩ | ⟨w, -, hw⟩⟩
  · cases hrun.symm.trans hq
  · exact .inr ⟨_, _, rfl⟩
  · rcases runWord_next hw with ⟨i, -, he⟩ | ⟨-, rfl⟩
    · exact (he.running_or_raised hrun).imp_right fun ⟨e, x, _, ht⟩ => ⟨e, x, ht⟩
    · exact .inr ⟨_, _, rfl⟩

/-- Settles O20: a trap record can only come from `State.raise`, and `State.trapped_raise` says what that
leaves. -/
theorem trapsArePrecise : Obligations.TrapsArePrecise := by
  intro s t r hrun h hr
  rcases step_running_or_raised hrun h with ht | ⟨e, x, rfl⟩
  · cases ht.symm.trans hr
  · obtain rfl := Option.some.inj hr
    exact ⟨rfl, rfl, s.trapped_raise e x⟩

/-! ### The two ends of a run (rule R244) -/

theorem State.Running.normalEnd_eq {s : State} (h : s.Running) : s.normalEnd = false := by
  have h : s.trap = none := h
  simp only [State.normalEnd, h]

theorem State.Running.faultEnd_eq {s : State} (h : s.Running) : s.faultEnd = false := by
  have h : s.trap = none := h
  simp only [State.faultEnd, h]

theorem State.normalEnd_raise_iff (s : State) (e : Exception) (x : Option Word) :
    (s.raise e x).normalEnd = true ↔ e = .environmentCall := beq_iff_eq

theorem State.faultEnd_raise_iff (s : State) (e : Exception) (x : Option Word) :
    (s.raise e x).faultEnd = true ↔ e ≠ .environmentCall := bne_iff_ne

/-- Only ECALL can raise EnvironmentCall (rules R206, R230). -/
theorem possibleException_eq_environmentCall_iff (i : Instr) :
    possibleException i = some .environmentCall ↔ i = .ecall := by
  cases i
  case ecall => exact ⟨fun _ => rfl, fun _ => rfl⟩
  all_goals exact ⟨nofun, nofun⟩

/-- ECALL leaves no hart running (rule R206). -/
theorem not_running_of_ecall {s t : State} (h : exec .ecall s = .next t) : ¬ t.Running := by
  rw [exec_ecall] at h
  cases h
  exact nofun

/-- Settles O26: a hart that still runs is at neither end and ran no ECALL; one that trapped took the
exception of its instruction, which is EnvironmentCall for ECALL alone. -/
theorem onlyEcallEndsNormally : Obligations.OnlyEcallEndsNormally := by
  intro i s t hrun h
  rcases (effect_of_exec h).running_or_raised hrun with ht | ⟨e, x, hp, rfl⟩
  · have hi : i ≠ .ecall := by
      rintro rfl
      exact not_running_of_ecall h ht
    have htrap : t.trap = none := ht
    simp [ht.normalEnd_eq, ht.faultEnd_eq, htrap, hi]
  · have he : e = .environmentCall ↔ i = .ecall := by
      rw [← possibleException_eq_environmentCall_iff, hp, Option.some.injEq]
    rw [State.normalEnd_raise_iff, State.faultEnd_raise_iff, ne_eq, ne_eq i, he]
    simp

/-! ### The environment's answer (rule R243) -/

theorem State.answered_resume {s : State} {q : Resume} (h : aligned q.pc = true) :
    s.answered (.resume q) = .next (s.resumeFrom q) := if_pos h

theorem State.answered_resume_misaligned {s : State} {q : Resume} (h : aligned q.pc = false) :
    s.answered (.resume q) = .fault .misalignedPc := if_neg (by simp [h])

/-- A handed-over hart waits for the environment. -/
theorem step_of_trap {s : State} {r : TrapRecord} (h : s.trap = some r) :
    step s = s.answered (Config.eeiHandler r s) := by
  simp only [step, stepMachine, h]

/-- Settles O53: the fields of `State.resumeFrom`, its fetch view by `Stale.mem_values_ofPairs` and its
memory by `Memory.read_writeEach`. -/
theorem environmentAnswers : Obligations.EnvironmentAnswers :=
  ⟨fun _ _ => step_of_trap, fun _ => rfl, fun _ _ => State.answered_resume_misaligned,
    fun s q hmem hpc => ⟨s.resumeFrom q, State.answered_resume hpc, rfl, rfl, rfl, rfl, rfl,
      Stale.mem_values_ofPairs q.fetchView, Memory.read_writeEach hmem q.stores, rfl, rfl, rfl⟩⟩

/-! ### An answer for every new state (rules R38, R39, R243) -/

/-- The pairs of a fetch view as an answer tells them. -/
def Stale.toPairs (t : Stale) : List (Word × Byte) := t.map fun c => (BitVec.ofNat 32 c.1, c.2)

/-- The stores that turn one memory into another: at each address that either lists, the byte of the
second. -/
def Memory.storesTo (m n : Memory) : List (Word × Byte) :=
  (m ++ n).map fun c => (BitVec.ofNat 32 c.1, n.read c.1)

/-- An answer that leads a hart in `s` to the state `u`. -/
def Resume.toReach (s u : State) : Resume where
  regs := u.regs
  pc := u.pc
  cycle64 := u.cycle64
  instret64 := u.instret64
  fetchView := Stale.toPairs u.stale
  stores := Memory.storesTo s.mem u.mem

/-- An address of the address space is the number of its word. -/
theorem toNat_ofNat_address {a : Nat} (h : a < 2 ^ 32) : (BitVec.ofNat 32 a).toNat = a :=
  Nat.mod_eq_of_lt h

theorem Stale.mem_ofPairs_toPairs {t : Stale} (h : ∀ c ∈ t, c.1 < 2 ^ 32) (c : Host.Cell) :
    c ∈ Stale.ofPairs (Stale.toPairs t) ↔ c ∈ t := by
  induction t with
  | nil => rfl
  | cons d t ih =>
    obtain ⟨hd, ht⟩ := List.forall_mem_cons.mp h
    rw [Stale.toPairs, List.map_cons, Stale.ofPairs, Stale.mem_insert, toNat_ofNat_address hd,
      List.mem_cons]
    exact or_congr_right (ih ht)

/-- A canonical fetch view is the one its pairs build. -/
theorem Stale.ofPairs_toPairs {t : Stale} (h : Stale.wf t) : Stale.ofPairs (Stale.toPairs t) = t :=
  Stale.eq_of_mem_iff (Stale.ofPairs_wf _) h (Stale.mem_ofPairs_toPairs h.2)

/-- An address that a canonical memory does not list reads as an unlisted one. -/
theorem Memory.read_of_not_listed {m : Memory} (h : Memory.wf m) {a : Nat} (ha : ∀ c ∈ m, c.1 ≠ a) :
    m.read a = unlisted := by
  by_contra hne
  exact ha _ ((Memory.mem_iff_read h (a, m.read a)).mpr ⟨hne, rfl⟩) rfl

/-- Every store of `Memory.storesTo` stores what the second memory reads there. -/
theorem Memory.snd_of_mem_storesTo {m n : Memory} (hm : Memory.wf m) (hn : Memory.wf n)
    {p : Word × Byte} (hp : p ∈ Memory.storesTo m n) : p.2 = n.read p.1.toNat := by
  obtain ⟨c, hc, rfl⟩ := List.mem_map.mp hp
  have hlt : c.1 < 2 ^ 32 :=
    (List.mem_append.mp hc).elim (fun hc => (hm.2 c hc).1) fun hc => (hn.2 c hc).1
  rw [toNat_ofNat_address hlt]

/-- An address that `Memory.storesTo` leaves out is listed by neither memory. -/
theorem Memory.not_listed_of_storesTo {m n : Memory} {a : Word}
    (h : ∀ p ∈ Memory.storesTo m n, p.1 ≠ a) : ∀ c ∈ m ++ n, c.1 ≠ a.toNat := by
  intro c hc hca
  exact h _ (List.mem_map_of_mem hc) (by rw [hca, BitVec.ofNat_toNat, BitVec.setWidth_eq])

/-- A canonical memory becomes any other by the stores of `Memory.storesTo`. -/
theorem Memory.writeEach_storesTo {m n : Memory} (hm : Memory.wf m) (hn : Memory.wf n) :
    m.writeEach (Memory.storesTo m n) = n := by
  refine canonicalMemoriesAgree _ _ (Memory.writeEach_wf hm _) hn fun k hk => ?_
  obtain ⟨a, rfl⟩ : ∃ a : Word, a.toNat = k := ⟨_, toNat_ofNat_address hk⟩
  rw [Memory.read_writeEach hm]
  cases hfind : (Memory.storesTo m n).reverse.find? fun p => p.1 = a with
  | some p =>
    obtain rfl : p.1 = a := by simpa using List.find?_some hfind
    have hp : p ∈ Memory.storesTo m n := List.mem_reverse.mp (List.mem_of_find?_eq_some hfind)
    exact Memory.snd_of_mem_storesTo hm hn hp
  | none =>
    have hnot : ∀ c ∈ m ++ n, c.1 ≠ a.toNat :=
      Memory.not_listed_of_storesTo (by simpa using hfind)
    obtain ⟨hnotm, hnotn⟩ := List.forall_mem_append.mp hnot
    exact (Memory.read_of_not_listed hm hnotm).trans (Memory.read_of_not_listed hn hnotn).symm

/-- Settles O54: the answer is `Resume.toReach`. -/
theorem environmentCanGiveAnyState : Obligations.EnvironmentCanGiveAnyState :=
  fun s u hs hu hstale hpc => ⟨Resume.toReach s u, s.resumeFrom (Resume.toReach s u),
    State.answered_resume hpc, rfl, rfl, rfl, rfl, Memory.writeEach_storesTo hs hu,
    Stale.ofPairs_toPairs hstale, rfl⟩

end Sys2Proof.Machine
end

section
/-! PROOFS. The family of 95_test_vectors.md section 2: what the decoder answers to the sample words. -/

namespace Sys2Proof.Machine

/-- The word that encodes an instruction decodes to it (rule R105). -/
theorem decode_eq_ok_of_encode_eq {i : Instr} {w : Word} (hwf : i.wellFormed = true)
    (hw : encode i = w) : decode w = .ok i :=
  hw ▸ decode_encode hwf

/-- Settles O8: twelve of the words are what the encoder makes of their instructions; the FENCE.I has its
reserved fields set and is read by its row (rule R99); the last has the opcode and funct3 of ECALL and
EBREAK but is the word of neither (rules R97, R206, R207). -/
theorem sampleWordsDecode : Obligations.SampleWordsDecode := by
  have hfenceI : decode 0xFFFF9F8F = .ok .fenceI := (rowIs_row .fenceI _).mpr (by decide)
  have hillegal : decode 0x000000F3 = .error .illegal :=
    (decode_of_system (by decide)).trans
      (decodeSystem_zero_unmatched (by decide) (by decide) (by decide))
  refine ⟨?_, ?_, ?_, ?_, ?_, ?_, ?_, ?_, ?_, ?_, hfenceI, ?_, ?_, hillegal⟩ <;>
    exact decode_eq_ok_of_encode_eq (by decide) (by decide)

end Sys2Proof.Machine
end
